-- ==== Sys2Proof/Word.lean ====
section
/-! DEFINITION. The words of the engine: a 32-bit register or bus word, a 16-bit sample slot and a byte
(00_scope.md R8; 10_state.md R40; 20_memory.md R60, R63). -/

namespace Sys2Proof

/-- A register, a bus word, a command word or a binary32 value (R8, R9, R23). -/
abbrev Word := BitVec 32

/-- A PCM sample slot (R40). -/
abbrev Half := BitVec 16

/-- The unit RAM is held in (R63). -/
abbrev Byte := BitVec 8

end Sys2Proof
end

