-- ==== Sys2Proof/Machine/Binary32.lean ====
section
/-! DEFINITION. binary32 values held as words, their exact comparisons, `RNE32` and `mul32` (00_scope.md R9), and
`round_he` (R10). Every finite value is an integer number of units of `2^-149`; +∞ compares as `2^277` units, above
every finite value and every integer register. -/

namespace Sys2Proof.Machine

/-- The magnitude, in units of `2^-149`, of the binary32 whose encoding without its sign bit is `e` (R9). -/
def encUnits (e : Nat) : Nat :=
  if e / 2 ^ 23 = 0 then e else (2 ^ 23 + e % 2 ^ 23) * 2 ^ (e / 2 ^ 23 - 1)

/-- The encoding without its sign bit. -/
def magBits (w : Word) : Nat := w.toNat % 2 ^ 31

/-- The sign bit. -/
def signBit (w : Word) : Bool := w.getLsbD 31

/-- The encoding of +∞. -/
def infBits : Nat := 0x7F800000

/-- `isNaN` (R9): exponent all ones, fraction not zero. -/
def isNaN (w : Word) : Bool := infBits < magBits w

/-- `isFinite` (R9): exponent not all ones. -/
def isFinite (w : Word) : Bool := magBits w < infBits

/-- `val(w)` in units of `2^-149`, with ±∞ at `±2^277` (R9); of no meaning for a NaN. -/
def unitsOf (w : Word) : Int := if signBit w then -(encUnits (magBits w) : Int) else encUnits (magBits w)

/-- `a ≤ b` for binary32 values: false with a NaN, +0 equal to −0 (R9). -/
def leF (a b : Word) : Bool := !isNaN a && !isNaN b && decide (unitsOf a ≤ unitsOf b)

/-- `0 < a` for a binary32 (R9). -/
def posF (a : Word) : Bool := !isNaN a && decide (0 < unitsOf a)

/-- `f = 0` for a binary32: +0 or −0 (R9). -/
def isZeroF (f : Word) : Bool := magBits f == 0

/-- `m ≤ f` for an integer `m` and a binary32 `f`: exact, false with a NaN (R9). -/
def natLeF (m : Nat) (f : Word) : Bool := !isNaN f && decide ((m * 2 ^ 149 : Int) ≤ unitsOf f)

/-- `f ≤ m` for a binary32 `f` and an integer `m`: exact, false with a NaN (R9). -/
def fLeNat (f : Word) (m : Nat) : Bool := !isNaN f && decide (unitsOf f ≤ (m * 2 ^ 149 : Int))

/-- `f > m` for a binary32 `f` and an integer `m`: exact, false with a NaN (R9). -/
def fGtNat (f : Word) (m : Nat) : Bool := !isNaN f && decide ((m * 2 ^ 149 : Int) < unitsOf f)

/-- The largest encoding of a finite value. -/
def maxFiniteBits : Nat := 0x7F7FFFFF

/-- The largest finite non-negative encoding whose value is at most the real `r`, found bit by bit from the top;
`cmp u` compares `r` with `u / 2^150`. -/
def floorBits (cmp : Nat → Ordering) : Nat → Nat → Nat
  | 0, e => e
  | i + 1, e =>
    if e + 2 ^ i ≤ maxFiniteBits ∧ cmp (2 * encUnits (e + 2 ^ i)) ≠ .lt then floorBits cmp i (e + 2 ^ i)
    else floorBits cmp i e

/-- `RNE32(r)` (R9) for the real `r ≥ 0` that `cmp` compares with `u / 2^150`, as an encoding: the value below `r` or
the next one above, whichever is nearer, the even one on a tie. Above the largest finite value the next one is +∞,
at `2^128` (DEDUCED from R172, log 15). -/
def rneBits (cmp : Nat → Ordering) : Nat :=
  match cmp (encUnits (floorBits cmp 31 0) + encUnits (floorBits cmp 31 0 + 1)) with
  | .lt => floorBits cmp 31 0
  | .gt => floorBits cmp 31 0 + 1
  | .eq => if floorBits cmp 31 0 % 2 = 0 then floorBits cmp 31 0 else floorBits cmp 31 0 + 1

/-- `RNE32(p / q)` of a non-negative rational (R9). -/
def rneRat (p q : Nat) : Word := BitVec.ofNat 32 (rneBits (fun u => compare (p * 2 ^ 150) (u * q)))

/-- The encoding with the sign bit `s` and the magnitude bits `e`. -/
def withSign (s : Bool) (e : Nat) : Word := BitVec.ofNat 32 (if s then 2 ^ 31 + e else e)

/-- The NaN that `mul32` returns. R9 names no payload, and no rule lets one be seen (R177). DESIGN CHOICE (log 8):
safe. -/
def defaultNaN : Word := 0x7FC00000#32

/-- `mul32(a, b)` (R9): the IEEE 754 product, rounded to nearest even, subnormals kept, no flags. -/
def mul32 (a b : Word) : Word :=
  if isNaN a || isNaN b then defaultNaN
  else if isFinite a && isFinite b then
    withSign (signBit a ^^ signBit b)
      (rneBits (fun u => compare (encUnits (magBits a) * encUnits (magBits b)) (u * 2 ^ 148)))
  else if isZeroF a || isZeroF b then defaultNaN
  else withSign (signBit a ^^ signBit b) infBits

/-- `round_he(p, q)` (R10). -/
def roundHe (p q : Nat) : Nat :=
  if 2 * (p % q) > q then p / q + 1
  else if 2 * (p % q) < q then p / q
  else if p / q % 2 = 0 then p / q else p / q + 1

end Sys2Proof.Machine
end

