-- ==== Sys2Proof/Config.lean ====
section
/-! DEFINITION. What an implementation fixes (00_scope.md R6) and the values the spec leaves open: the draws of
10_state.md R49 and 20_memory.md R62, R68, and the magnitude function of 41_spectrum.md R136. -/

namespace Sys2Proof

/-- `MAG_MODE` (R6, R136). `bounded tol` stands for `MAG_TOL = tol / 2^150`: every non-negative real tolerance lies
below one of these by less than `2^-150`. No tolerance is illegal, not even one so small that no binary32 meets P4 (R137).
DESIGN CHOICE (log 6): safe. -/
inductive MagMode where
  | exactRounded
  | bounded (tol : Nat)
  deriving DecidableEq, Repr

/-- The implementation parameters a model takes as arguments (R6). DESIGN CHOICE (log 3): they stand in the state, so
that a statement about every state is one about every implementation. `MAG_IMPL` is the free value `Config.magImpl`
(log 6), `LATENCY` is any number of events (log 13), and the channel count is a register. -/
structure Params where
  /-- `N_MAX`, the capacity of one window in frames (R6, R44). -/
  nMax : Nat
  /-- `MAG_MODE` (R136). -/
  magMode : MagMode
  /-- `ID_VALUE`, what the register `ID` reads (R24). -/
  idValue : Word
  /-- `ADDR_BITS − 18`: the map of R23 needs 18 bits of address, so no legal `ADDR_BITS` is less (DEDUCED, log 23). -/
  addrExtra : Nat
  deriving DecidableEq, Repr

/-- `ADDR_BITS`, the width of a host byte address (R6, R53). -/
def Params.addrBits (p : Params) : Nat := 18 + p.addrExtra

/-- The values the spec chooses (R6): `N_MAX = 4096`, the reference model's `exact_rounded`, `ID_VALUE`, and
`ADDR_BITS = 18`. -/
def Config.reference : Params where
  nMax := 4096
  magMode := .exactRounded
  idValue := 0x4A434631#32
  addrExtra := 0

/-- The byte at a RAM offset that nothing has written since the `epoch`-th hardware reset: an unspecified value, the
same until it is written (R49, R230; U1). A free value (log 4): safe. -/
opaque Config.ramByte (epoch addr : Nat) : Byte

/-- The data of the `n`-th bus read whose value the spec leaves unspecified: an output read while busy (R68; U3) or a
misaligned or sub-word read (R62; U4). A free value (log 5): safe. -/
opaque Config.freeRead (n : Nat) : Word

/-- An implementation's magnitude function `MAG_IMPL(raw[0..n−1], A, n, k)` (R136, R137 P1), before it is held to
P2, P3 and P4. A free value (log 6): safe. -/
opaque Config.magImpl (raw : List Int) (a n k : Nat) : Word

end Sys2Proof
end

