-- ==== Sys2Proof/Syntax.lean ====
section
/-! DEFINITION. The engine's commands (30_encoding.md R90 to R92), one constructor per row of spec/opcode_table.json,
and what reaches the engine from outside: bus transactions (20_memory.md R60), reset, and the engine agent's turn
(00_scope.md R14). -/

namespace Sys2Proof

/-- A channel index `c ∈ {0, 1}`: 0 is L, 1 is R (R91, R131). -/
inductive Channel where
  | ch0
  | ch1
  deriving DecidableEq, Repr

/-- The index of a channel as a number. -/
def Channel.index : Channel → Nat
  | .ch0 => 0
  | .ch1 => 1

/-- The commands of the opcode map (R92). -/
inductive Instr where
  /-- `NOP` (R119). -/
  | nop
  /-- `ANALYZE` (R185). -/
  | analyze
  /-- `SPECTRUM c` (R130). -/
  | spectrum (c : Channel)
  /-- `SELECT c` (R150). -/
  | select (c : Channel)
  /-- `SHAPE c` (R170). -/
  | shape (c : Channel)
  deriving DecidableEq, Repr

/-- The width a bus access carries: the port has one legal width, and a protocol with byte or halfword strobes can
ask for less (R62). -/
inductive Width where
  | byte
  | half
  | word
  deriving DecidableEq, Repr

/-- One host transaction `(addr, we, wdata)` (R60), with the width its strobes select (R62). A read carries no data. The
address is a key of the map, which the port takes to its own width, `ADDR_BITS` (R6, R53; log 23). -/
inductive Txn where
  | read (width : Width) (addr : Nat)
  | write (width : Width) (addr : Nat) (wdata : Word)
  deriving DecidableEq, Repr

/-- What happens next, seen from outside the engine (R14, R211). A list of these is one interleaving of the host, the
engine agent and the reset line. -/
inductive Event where
  /-- The host performs one transaction (R61). -/
  | host (t : Txn)
  /-- The engine agent takes its step, if it is enabled (R113). -/
  | engineTurn
  /-- `rst_n` is asserted and released (R230). -/
  | hardReset
  deriving DecidableEq, Repr

end Sys2Proof
end

