-- ==== Sys2Proof/Machine/State.lean ====
section
/-! DEFINITION. The state of the engine (10_state.md R22 to R52), what lies outside it (00_scope.md R14), the reasons a
step can stop, the names of the register map (R23), and the state after reset (70_reset_and_hazards.md R231). -/

namespace Sys2Proof.Machine

/-- Why the machine stops. -/
inductive Fault where
  /-- Raised by the engine agent's step when the word in flight is none that `decode` reads as a command. Only accepted
  commands are ever in flight (R111, R112), so no run reaches such a state and no rule speaks of it (log 9). Safe. -/
  | inFlightUndecodable
  deriving DecidableEq, Repr

/-- Why an instruction has no meaning. -/
inductive Refusal where
  /-- Raised by an arm of `exec` whose command is not modelled; no arm is. Safe. -/
  | notModelled (mnemonic : String)
  deriving DecidableEq, Repr

/-- The sequencer `SEQ` (R22). -/
inductive Seq where
  | idle
  | busy (cmd : Word)
  deriving DecidableEq, Repr

/-- The stored bits of `CTRL` (R25). -/
structure Ctrl where
  ieDone : Bool
  ieErr : Bool
  deriving DecidableEq, Repr

/-- The stored fields of `STATUS` (R26); `BUSY` is a function of `SEQ`. -/
structure Status where
  done : Bool
  err : Bool
  errCode : BitVec 4
  deriving DecidableEq, Repr

/-- The registers `CHANNELS` to `HI_DEFAULT` (R28 to R39), each 32 bits. -/
structure Regs where
  channels : Word
  norm : Word
  sampleRate : Word
  periodMs : Word
  len : Word
  gain : Word
  floorHz : Word
  ceilHz : Word
  boundHz : Word
  resLoHz : Word
  resHiHz : Word
  resCeil : Word
  loDefault : Word
  hiDefault : Word
  deriving DecidableEq, Repr

/-- One channel's candidate registers `CAND[c]` (R42). -/
structure Cand where
  hiF : Word
  hiA : Word
  loF : Word
  loA : Word
  deriving DecidableEq, Repr

/-- One channel's result registers `RESULT[c]` (R43). -/
structure RumbleParams where
  freqHigh : Word
  ampHigh : Word
  freqLow : Word
  ampLow : Word
  deriving DecidableEq, Repr

/-- One value for each channel. -/
structure Lanes (α : Type) where
  ch0 : α
  ch1 : α
  deriving DecidableEq, Repr

/-- `resp` of a transaction (R60). -/
inductive Resp where
  | okay
  | error
  deriving DecidableEq, Repr

/-- The response `(rdata, resp)` of a transaction (R60); a write returns no data (log 14). -/
structure Response where
  rdata : Option Word
  resp : Resp
  deriving DecidableEq, Repr

/-- The state. The engine's own is `seq` to `mem`, exactly what R52 lists. `params` are the model's arguments (R6;
log 3), `ramEpoch` and `draws` number the spec's draws (log 4, log 5), and `pending` and `responses` are the outside
world: what it does next, and what the bus has answered (log 2, log 14). -/
structure State where
  /-- `N_MAX`, `MAG_MODE`, `ID_VALUE` and `ADDR_BITS`; no step changes them. -/
  params : Params
  /-- `SEQ` (R22). -/
  seq : Seq
  /-- `CTRL.IE_DONE`, `CTRL.IE_ERR` (R25). -/
  ctrl : Ctrl
  /-- `STATUS.DONE`, `ERR`, `ERRCODE` (R26). -/
  status : Status
  /-- `CHANNELS` to `HI_DEFAULT` (R28 to R39). -/
  regs : Regs
  /-- `CAND[0..1]` (R42). -/
  cand : Lanes Cand
  /-- `RESULT[0..1]` (R43). -/
  result : Lanes RumbleParams
  /-- The bytes of the PCM and SPEC RAMs that were written since `rst_n`, by host offset, strictly rising (R40, R41,
  R63). -/
  mem : List Host.Cell
  /-- The number of hardware resets so far: which draws the unwritten RAM holds (R49, R230). -/
  ramEpoch : Nat
  /-- The number of unspecified bus reads so far (R62, R68). -/
  draws : Nat
  /-- The events still to come, the next one first (R14). -/
  pending : List Event
  /-- The bus responses so far, the latest first (R60). -/
  responses : List Response
  deriving DecidableEq, Repr

/-- The registers of R23 with the access type RW, `CHANNELS` to `HI_DEFAULT`. -/
inductive CfgReg where
  | channels
  | norm
  | sampleRate
  | periodMs
  | len
  | gain
  | floorHz
  | ceilHz
  | boundHz
  | resLoHz
  | resHiHz
  | resCeil
  | loDefault
  | hiDefault
  deriving DecidableEq, Repr

/-- The fields of `CAND[c]` (R42). -/
inductive CandField where
  | hiF
  | hiA
  | loF
  | loA
  deriving DecidableEq, Repr

/-- The fields of `RESULT[c]` (R43). -/
inductive ResultField where
  | freqHigh
  | ampHigh
  | freqLow
  | ampLow
  deriving DecidableEq, Repr

/-- What an aligned host offset names (R23, R64). -/
inductive Location where
  | id
  | ctrl
  | status
  | cmd
  | cfg (r : CfgReg)
  | wsize
  | floorBin
  | ceilBin
  | nmax
  | cand (c : Channel) (f : CandField)
  | result (c : Channel) (f : ResultField)
  /-- Word `j` of the PCM RAM (R65). -/
  | pcm (j : Nat)
  /-- `SPEC[c][k]` (R41). -/
  | spec (c : Channel) (k : Nat)
  | unmapped
  deriving DecidableEq, Repr

/-- The errors a `CMD` write can be rejected with (R200, codes 1 to 4). -/
inductive CmdError where
  | configuration
  | request
  | illegal
  | length
  deriving DecidableEq, Repr

/-- The reset values of `CHANNELS` to `HI_DEFAULT` (R231). -/
def Regs.reset : Regs where
  channels := 1#32
  norm := 0#32
  sampleRate := 0#32
  periodMs := 32#32
  len := 0#32
  gain := 0x41200000#32
  floorHz := 40#32
  ceilHz := 1252#32
  boundHz := 626#32
  resLoHz := 160#32
  resHiHz := 360#32
  resCeil := 0x3DCCCCCD#32
  loDefault := 0x43200000#32
  hiDefault := 0x43A00000#32

/-- `CAND[c]` after reset (R42). -/
def Cand.reset : Cand := { hiF := 0#32, hiA := 0#32, loF := 0#32, loA := 0#32 }

/-- `RESULT[c]` after reset (R43). -/
def RumbleParams.reset : RumbleParams := { freqHigh := 0#32, ampHigh := 0#32, freqLow := 0#32, ampLow := 0#32 }

/-- The machine right after `rst_n` (R230, R231): every register at its reset value, `SEQ` idle, every RAM slot a draw.
The model's own fields start empty and at 0, with the spec's parameters (DESIGN CHOICE, log 19). -/
def State.reset : State where
  params := Config.reference
  seq := .idle
  ctrl := { ieDone := false, ieErr := false }
  status := { done := false, err := false, errCode := 0#4 }
  regs := Regs.reset
  cand := { ch0 := Cand.reset, ch1 := Cand.reset }
  result := { ch0 := RumbleParams.reset, ch1 := RumbleParams.reset }
  mem := []
  ramEpoch := 0
  draws := 0
  pending := []
  responses := []

end Sys2Proof.Machine
end

