-- ==== Sys2Proof/Machine/Ops.lean ====
section
/-! DEFINITION. The named operations over registers and RAM (10_state.md R40 to R43; 20_memory.md R63, R65), the life
of a command (40_command.md R112, R113, R115), error entry and the return from it (60_exceptions.md R205, R207, R208),
and reset (70_reset_and_hazards.md R230, R232). -/

namespace Sys2Proof.Machine

/-- The value of one channel. -/
def Lanes.get {α : Type} (l : Lanes α) : Channel → α
  | .ch0 => l.ch0
  | .ch1 => l.ch1

/-- The lanes with one channel's value replaced. -/
def Lanes.set {α : Type} (l : Lanes α) (c : Channel) (v : α) : Lanes α :=
  match c with
  | .ch0 => { l with ch0 := v }
  | .ch1 => { l with ch1 := v }

/-- `reg[r]` (R11). -/
def Regs.get (g : Regs) : CfgReg → Word
  | .channels => g.channels
  | .norm => g.norm
  | .sampleRate => g.sampleRate
  | .periodMs => g.periodMs
  | .len => g.len
  | .gain => g.gain
  | .floorHz => g.floorHz
  | .ceilHz => g.ceilHz
  | .boundHz => g.boundHz
  | .resLoHz => g.resLoHz
  | .resHiHz => g.resHiHz
  | .resCeil => g.resCeil
  | .loDefault => g.loDefault
  | .hiDefault => g.hiDefault

/-- `reg[r] <- v` (R11): every bit is stored as written (R23, R73). -/
def Regs.set (g : Regs) (r : CfgReg) (v : Word) : Regs :=
  match r with
  | .channels => { g with channels := v }
  | .norm => { g with norm := v }
  | .sampleRate => { g with sampleRate := v }
  | .periodMs => { g with periodMs := v }
  | .len => { g with len := v }
  | .gain => { g with gain := v }
  | .floorHz => { g with floorHz := v }
  | .ceilHz => { g with ceilHz := v }
  | .boundHz => { g with boundHz := v }
  | .resLoHz => { g with resLoHz := v }
  | .resHiHz => { g with resHiHz := v }
  | .resCeil => { g with resCeil := v }
  | .loDefault => { g with loDefault := v }
  | .hiDefault => { g with hiDefault := v }

/-- A field of `CAND[c]` (R42). -/
def Cand.get (d : Cand) : CandField → Word
  | .hiF => d.hiF
  | .hiA => d.hiA
  | .loF => d.loF
  | .loA => d.loA

/-- A field of `CAND[c]` replaced (R42). -/
def Cand.set (d : Cand) (f : CandField) (v : Word) : Cand :=
  match f with
  | .hiF => { d with hiF := v }
  | .hiA => { d with hiA := v }
  | .loF => { d with loF := v }
  | .loA => { d with loA := v }

/-- A field of `RESULT[c]` (R43). -/
def RumbleParams.get (p : RumbleParams) : ResultField → Word
  | .freqHigh => p.freqHigh
  | .ampHigh => p.ampHigh
  | .freqLow => p.freqLow
  | .ampLow => p.ampLow

/-! ### RAM -/

/-- The stored byte at an offset, if it was written since `rst_n`. -/
def findByte : List Host.Cell → Nat → Option Byte
  | [], _ => none
  | (b, v) :: rest, a => if a = b then some v else findByte rest a

/-- The cells with the byte at offset `a` replaced, in rising order of offsets. -/
def putByte : List Host.Cell → Nat → Byte → List Host.Cell
  | [], a, v => [(a, v)]
  | (b, u) :: rest, a, v =>
    if a < b then (a, v) :: (b, u) :: rest
    else if a = b then (a, v) :: rest
    else (b, u) :: putByte rest a v

/-- The byte at a RAM offset. What an unlisted byte reads as: it has not been written since `rst_n`, so it is a draw,
the same until it is written (R49, U1; log 4). -/
def readByte (s : State) (a : Nat) : Byte :=
  match findByte s.mem a with
  | some v => v
  | none => Config.ramByte s.ramEpoch a

/-- The 16 bits at an even RAM offset, the byte at the lower offset least significant (R63). -/
def readHalf (s : State) (a : Nat) : Half := readByte s (a + 1) ++ readByte s a

/-- The 32 bits at an aligned RAM offset (R63). -/
def readWord (s : State) (a : Nat) : Word := readHalf s (a + 2) ++ readHalf s a

/-- The cells with a 32-bit word stored at offset `a`, least significant byte first (R63). -/
def putWord (m : List Host.Cell) (a : Nat) (w : Word) : List Host.Cell :=
  putByte (putByte (putByte (putByte m a (w.extractLsb' 0 8)) (a + 1) (w.extractLsb' 8 8))
    (a + 2) (w.extractLsb' 16 8)) (a + 3) (w.extractLsb' 24 8)

/-- A RAM word written (R66). -/
def writeWord (s : State) (a : Nat) (w : Word) : State := { s with mem := putWord s.mem a w }

/-- The offset of the slot `PCM[i]` (R65): word `j` holds `PCM[2j]` in its low and `PCM[2j+1]` in its high half. -/
def pcmAddr (i : Nat) : Nat := 0x10000 + 2 * i

/-- The offset of `SPEC[c][k]` (R41). -/
def specAddr (c : Channel) (k : Nat) : Nat := 0x20000 + 0x8000 * c.index + 4 * k

/-- Does a RAM hold a byte at this offset (R23)? -/
def inRam (nMax a : Nat) : Bool :=
  (decide (0x10000 ≤ a) && decide (a < 0x10000 + 4 * nMax)) ||
  (decide (0x20000 ≤ a) && decide (a < 0x20000 + 2 * nMax)) ||
  (decide (0x28000 ≤ a) && decide (a < 0x28000 + 2 * nMax))

/-- Are the offsets strictly rising? -/
def rising : List Host.Cell → Bool
  | [] => true
  | [_] => true
  | (a, _) :: (b, v) :: rest => decide (a < b) && rising ((b, v) :: rest)

/-- The canonical form of the RAM: offsets strictly rising, each one a byte a RAM holds. A byte is listed exactly when
it was written since `rst_n` (log 16). -/
def Memory.wf (nMax : Nat) (m : List Host.Cell) : Bool := rising m && m.all (fun c => inRam nMax c.1)

/-! ### The registers an instruction writes -/

/-- `CAND[c]` written (R156). -/
def setCand (s : State) (c : Channel) (d : Cand) : State := { s with cand := s.cand.set c d }

/-- `RESULT[c]` written (R175). -/
def setResult (s : State) (c : Channel) (p : RumbleParams) : State := { s with result := s.result.set c p }

/-! ### The life of a command -/

/-- `Accept(w)` (R112). -/
def accept (w : Word) (s : State) : State :=
  { s with seq := .busy w, status := { s.status with done := false } }

/-- The end of the completion step (R113): `SEQ <- IDLE`, `STATUS.DONE <- 1`. -/
def complete (s : State) : State :=
  { s with seq := .idle, status := { s.status with done := true } }

/-! ### Errors -/

/-- `STATUS.ERRCODE` of an error (R200). -/
def errorCode : CmdError → BitVec 4
  | .configuration => 1#4
  | .request => 2#4
  | .illegal => 3#4
  | .length => 4#4

/-- Error entry (R115, R205): exactly these three fields. -/
def reject (e : CmdError) (s : State) : State :=
  { s with status := { done := true, err := true, errCode := errorCode e } }

/-- BusyWrite (R207): the write is dropped, `ERR <- 1`, `ERRCODE <- 5`. -/
def busyWrite (s : State) : State :=
  { s with status := { s.status with err := true, errCode := 5#4 } }

/-- The return from an error (R208): `ERR <- 0`, `ERRCODE <- 0`. -/
def clearError (s : State) : State :=
  { s with status := { s.status with err := false, errCode := 0#4 } }

/-- `DONE <- 0` (R26). -/
def clearDone (s : State) : State := { s with status := { s.status with done := false } }

/-! ### Reset -/

/-- The registers and `SEQ` at their reset values, a command in flight abandoned, the RAMs kept (R232). -/
def softReset (s : State) : State :=
  { s with
    seq := State.reset.seq
    ctrl := State.reset.ctrl
    status := State.reset.status
    regs := State.reset.regs
    cand := State.reset.cand
    result := State.reset.result }

/-- Hardware reset (R230): as the soft reset, and every RAM slot holds a fresh unspecified value (log 4, log 11). -/
def hardReset (s : State) : State := { softReset s with mem := [], ramEpoch := s.ramEpoch + 1 }

/-! ### The bus -/

/-- A response of the bus (R60). -/
def respond (r : Response) (s : State) : State := { s with responses := r :: s.responses }

/-- The response to a read whose data the spec leaves unspecified: a fresh draw (R62, R68; log 5). -/
def respondDraw (r : Resp) (s : State) : State :=
  { respond { rdata := some (Config.freeRead s.draws), resp := r } s with draws := s.draws + 1 }

end Sys2Proof.Machine
end

