-- ==== Sys2Proof/Machine/Operands.lean ====
section
/-! DEFINITION. What the commands read: the derived values (10_state.md R45 to R47), the window of a channel
(41_spectrum.md R131), its spectrum (R41), a bin's frequency (42_select.md R151) and the declared channels
(44_analyze.md R185). -/

namespace Sys2Proof.Machine

/-- `W`, unsaturated (R45). -/
def windowSize (s : State) : Nat := roundHe (s.regs.sampleRate.toNat * s.regs.periodMs.toNat) 1000

/-- `floorBin`, unsaturated (R46). -/
def floorBin (s : State) : Nat := roundHe (s.regs.floorHz.toNat * s.regs.periodMs.toNat) 1000

/-- `ceilBin`, unsaturated (R47). -/
def ceilBin (s : State) : Nat := roundHe (s.regs.ceilHz.toNat * s.regs.periodMs.toNat) 1000

/-- A derived value as its register reads: saturated to 32 bits (R45 to R47). -/
def saturate (n : Nat) : Word := BitVec.ofNat 32 (min n 0xFFFFFFFF)

/-- `n`, the frames of the window (R32). -/
def windowLen (s : State) : Nat := s.regs.len.toNat

/-- `C`, the declared channel count (R28). -/
def channelCount (s : State) : Nat := s.regs.channels.toNat

/-- `nb = n div 2`, the bins of the spectrum (R135). -/
def binCount (s : State) : Nat := windowLen s / 2

/-- `raw[t] = sext16(PCM[t·C + c])` (R131). -/
def sample (s : State) (c : Channel) (t : Nat) : Int :=
  (readHalf s (pcmAddr (t * channelCount s + c.index))).toInt

/-- The window of channel `c`: `raw[0 .. n−1]` (R131, R132). -/
def window (s : State) (c : Channel) : List Int := (List.range (windowLen s)).map (sample s c)

/-- `SPEC[c][k]` (R41). -/
def specBin (s : State) (c : Channel) (k : Nat) : Word := readWord s (specAddr c k)

/-- `F(k) = RNE32(k·sr / n)` (R151). -/
def frequency (s : State) (k : Nat) : Word := rneRat (k * s.regs.sampleRate.toNat) (windowLen s)

/-- The channels `[0 .. C−1]` that `ANALYZE` processes, in order (R185, R188). -/
def declaredChannels (s : State) : List Channel := [Channel.ch0, Channel.ch1].filter (fun c => c.index < channelCount s)

end Sys2Proof.Machine
end

