-- ==== Sys2Proof/Machine/Select.lean ====
section
/-! DEFINITION. `SELECT` (42_select.md R150 to R160). -/

namespace Sys2Proof.Machine

/-- `I = [floorBin .. min(ceilBin, nb − 1)]`, ascending (R152). -/
def selectable (s : State) : List Nat :=
  (List.range (binCount s)).filter (fun k => decide (floorBin s ≤ k) && decide (k ≤ ceilBin s))

/-- High band: `F(k) > B` (R153). -/
def inHighBand (s : State) (k : Nat) : Bool := fGtNat (frequency s k) s.regs.boundHz.toNat

/-- Low band: `FLOOR_HZ ≤ F(k) ≤ B` (R153). -/
def inLowBand (s : State) (k : Nat) : Bool :=
  natLeF s.regs.floorHz.toNat (frequency s k) && fLeNat (frequency s k) s.regs.boundHz.toNat

/-- `Q = [k ∈ I : SPEC[c][k] > 0]` (R154). -/
def qualifying (s : State) (c : Channel) : List Nat := (selectable s).filter (fun k => posF (specBin s c k))

/-- `k` put before the first element whose key is not larger than its own. -/
def insertDesc (key : Nat → Int) (k : Nat) : List Nat → List Nat
  | [] => [k]
  | j :: rest => if key j ≤ key k then k :: j :: rest else j :: insertDesc key k rest

/-- `stable_sort_desc(L, key)` (R12): descending keys, equal keys in their original order. -/
def stableSortDesc (key : Nat → Int) : List Nat → List Nat
  | [] => []
  | k :: rest => insertDesc key k (stableSortDesc key rest)

/-- The scan of R155 over the sorted bins, with what each band has recorded so far and the early stop. -/
def scanBands (s : State) : List Nat → Option Nat → Option Nat → Option Nat × Option Nat
  | _, some h, some l => (some h, some l)
  | [], hi, lo => (hi, lo)
  | k :: rest, hi, lo =>
    if hi.isNone && inHighBand s k then scanBands s rest (some k) lo
    else if lo.isNone && inLowBand s k then scanBands s rest hi (some k)
    else scanBands s rest hi lo

/-- The `(frequency, amplitude)` pair of a band's candidate, the sentinel `(+0, +0)` when it has none (R155 step 4). -/
def candidate (s : State) (c : Channel) : Option Nat → Word × Word
  | none => (0#32, 0#32)
  | some k => (frequency s k, specBin s c k)

/-- The two bands' bins that `SelectBands(c)` picks (R155). -/
def pickBands (s : State) (c : Channel) : Option Nat × Option Nat :=
  scanBands s (stableSortDesc (fun k => unitsOf (specBin s c k)) (qualifying s c)) none none

/-- `CAND[c]` as `SelectBands(c)` writes it (R155). -/
def selectBands (s : State) (c : Channel) : Cand where
  hiF := (candidate s c (pickBands s c).1).1
  hiA := (candidate s c (pickBands s c).1).2
  loF := (candidate s c (pickBands s c).2).1
  loA := (candidate s c (pickBands s c).2).2

/-- The writes of `SELECT c`: the four registers `CAND[c]` and nothing else (R156). -/
def selectStage (c : Channel) (s : State) : State := setCand s c (selectBands s c)

/-- The completion step of `SELECT c` (R113, R150). -/
def execSelect (c : Channel) (s : State) : Host.Outcome State Fault Refusal :=
  .next (complete (selectStage c s))

end Sys2Proof.Machine
end

