-- ==== Sys2Proof/Machine/Shape.lean ====
section
/-! DEFINITION. `SHAPE` (43_shape.md R170 to R179). -/

namespace Sys2Proof.Machine

/-- The binary32 1.0. -/
def oneF : Word := 0x3F800000#32

/-- `Ceiling(f)` (R174). -/
def ceilingOf (g : Regs) (f : Word) : Word :=
  if natLeF g.resLoHz.toNat f && fLeNat f g.resHiHz.toNat then g.resCeil else oneF

/-- `Clamp(p, cap)` (R177). -/
def clamp (p cap : Word) : Word :=
  if isNaN p then 0#32
  else if leF p 0#32 then 0#32
  else if leF cap p then cap
  else p

/-- `ShapeBand(f, a, dflt)` (R171, R172, R173). -/
def shapeBand (g : Regs) (f a dflt : Word) : Word × Word :=
  if isZeroF f then (dflt, 0#32) else (f, clamp (mul32 a g.gain) (ceilingOf g f))

/-- `RESULT[c]` as `ShapeBands(c)` writes it (R170). -/
def shapeBands (g : Regs) (d : Cand) : RumbleParams where
  freqHigh := (shapeBand g d.hiF d.hiA g.hiDefault).1
  ampHigh := (shapeBand g d.hiF d.hiA g.hiDefault).2
  freqLow := (shapeBand g d.loF d.loA g.loDefault).1
  ampLow := (shapeBand g d.loF d.loA g.loDefault).2

/-- The writes of `SHAPE c`: the four registers `RESULT[c]` and nothing else (R175). -/
def shapeStage (c : Channel) (s : State) : State := setResult s c (shapeBands s.regs (s.cand.get c))

/-- The completion step of `SHAPE c` (R113, R170). -/
def execShape (c : Channel) (s : State) : Host.Outcome State Fault Refusal :=
  .next (complete (shapeStage c s))

end Sys2Proof.Machine
end

