-- ==== Sys2Proof/Machine/Magnitude.lean ====
section
/-! DEFINITION. The spectral magnitude detector: `SpectrumOf` as a function of one channel's window
(41_spectrum.md R133 to R137).

`M[k] = 2·|X[k]| / n` is an algebraic number, and `exact_rounded` asks for the binary32 nearest to it, exactly. It is
computed in integers. `Y = A·X[k] = Σ raw[t]·w^t`, with `w = exp(−2πi·k/n)`, is evaluated in fixed point with `S`
fraction bits, with an error of at most `2^96` units in each part, a bound derived by hand (DEDUCED, log 7). The two ends of the
enclosure of `M[k]` that follows are rounded: if they round to one value, that is `RNE32(M[k])`. If not, `M[k]` may be a
tie, which is decided exactly, in the ring of integer polynomials in `w`; else `S` is doubled. -/

namespace Sys2Proof.Machine

/-- A fixed-point complex number, real and imaginary part in units of `2^-S`. -/
abbrev FixC := Int × Int

/-- `acc + Σ_{j ≥ i} (−1)^j·pw / (x2^(j−i)·(2j+1))`, the terms floored, until `pw` reaches 0. -/
def arctanSum (x2 : Nat) : Nat → Nat → Nat → Int → Int
  | 0, _, _, acc => acc
  | fuel + 1, pw, i, acc =>
    if pw = 0 then acc
    else arctanSum x2 fuel (pw / x2) (i + 1)
      (if i % 2 = 0 then acc + (pw / (2 * i + 1) : Nat) else acc - (pw / (2 * i + 1) : Nat))

/-- `arctan(1/x)` in units of `2^-S`. -/
def arctanInv (S x : Nat) : Int := arctanSum (x * x) S (2 ^ S / x) 0 0

/-- `π` in units of `2^-S`: Machin's formula `π/4 = 4·arctan(1/5) − arctan(1/239)`. -/
def piFix (S : Nat) : Int := 16 * arctanInv S 5 - 4 * arctanInv S 239

/-- The Taylor series of `exp(−i·x)` for `x ≥ 0` in units of `2^-S`, from the term `j` on, whose magnitude is `term`. -/
def expSum (S x : Nat) : Nat → Nat → Nat → Int → Int → FixC
  | 0, _, _, c, s => (c, s)
  | fuel + 1, j, term, c, s =>
    if term = 0 then (c, s)
    else
      expSum S x fuel (j + 1) (term * x / ((j + 1) * 2 ^ S))
        (if j % 4 = 0 then c + term else if j % 4 = 2 then c - term else c)
        (if j % 4 = 1 then s - term else if j % 4 = 3 then s + term else s)

/-- `w = exp(−2πi·k/n)` in units of `2^-S` (R134). -/
def rootFix (S k n : Nat) : FixC := expSum S (2 * (piFix S).toNat * k / n) (S + 64) 0 (2 ^ S) 0 0

/-- One step of Horner's rule: `acc·w + r`. -/
def hornerStep (S : Nat) (w : FixC) (r : Int) (acc : FixC) : FixC :=
  ((acc.1 * w.1 - acc.2 * w.2) / 2 ^ S + r * 2 ^ S, (acc.1 * w.2 + acc.2 * w.1) / 2 ^ S)

/-- `Y = Σ_t raw[t]·w^t` in units of `2^-S` (R134, times `A`). -/
def dftFix (S : Nat) (raw : List Int) (k : Nat) : FixC :=
  raw.foldr (hornerStep S (rootFix S k raw.length)) (0, 0)

/-- The bound, in units of `2^-S`, on the error of each part of `dftFix` for windows of at most 16384 samples of 16 bits
and every `S` that `roundedMagnitude` uses (DEDUCED, log 7). -/
def dftError : Nat := 2 ^ 96

/-- A lower bound of `|Y|²` in units of `2^-2S`. -/
def powerLow (y : FixC) : Nat := (y.1.natAbs - dftError) ^ 2 + (y.2.natAbs - dftError) ^ 2

/-- An upper bound of `|Y|²` in units of `2^-2S`. -/
def powerHigh (y : FixC) : Nat := (y.1.natAbs + dftError) ^ 2 + (y.2.natAbs + dftError) ^ 2

/-- `RNE32(2·√(p / 2^2S) / (n·A))`, as an encoding: with `p / 2^2S` for `|Y|²`, this is `RNE32(M[k])` (R135, R136). -/
def rneOfPower (S p n a : Nat) : Nat :=
  rneBits (fun u => compare (4 * p * 2 ^ 300) (u * u * (n * n * (a * a)) * 2 ^ (2 * S)))

/-- The coefficients of `Σ_j p_j·x^j` modulo `x^m − 1`. -/
def foldMod (m : Nat) (p : List Int) : List Int :=
  (List.range m).map (fun j => ((List.range (p.length / m)).map (fun i => p.getD (i * m + j) 0)).sum)

/-- `(x^(−s) − 1)·p` modulo `x^m − 1`, for `p` of length `m`. -/
def rotateSub (p : List Int) (s : Nat) : List Int := List.zipWith (fun a b => a - b) (p.drop s ++ p.take s) p

/-- Does the integer polynomial `p` of length `m`, modulo `x^m − 1`, vanish at a primitive `m`-th root of unity? The
product of `x^(m/q) − 1` over the divisors `q > 1` of `m` is 0 at every other `m`-th root and not 0 at a primitive one,
so `p` vanishes there exactly when its product with that is 0 modulo `x^m − 1`. -/
def vanishesAtPrimitive (m : Nat) (p : List Int) : Bool :=
  (((List.range (m + 1)).filter (fun q => 1 < q ∧ m % q = 0)).foldl (fun p q => rotateSub p (m / q)) p).all (· == 0)

/-- The coefficients of `|Y|²` in powers of `w`: the cyclic autocorrelation of the window. -/
def autocorrelation (p : List Int) : List Int :=
  (List.range p.length).map (fun d => (List.zipWith (fun a b => a * b) p (p.drop d ++ p.take d)).sum)

/-- `p − x` for an integer `x`. -/
def subConstant (x : Int) : List Int → List Int
  | [] => []
  | c :: rest => (c - x) :: rest

/-- Is `M[k]` exactly `u / 2^150`? `w` is a primitive `n / gcd(n, k)`-th root of unity, so the test is that
`4·2^300·|Y|² − u²·n²·A²` vanishes there. -/
def magnitudeEq (raw : List Int) (a k u : Nat) : Bool :=
  let m := raw.length / Nat.gcd raw.length k
  vanishesAtPrimitive m
    (subConstant ((u * u * (raw.length * raw.length * (a * a)) : Nat) : Int)
      ((autocorrelation (foldMod m raw)).map (fun c => 4 * 2 ^ 300 * c)))

/-- The fraction bits of the first attempt. -/
def baseBits : Nat := 256

/-- `RNE32(M[k])` as an encoding, at `S` fraction bits and then at `2S`, `4S`, ... for `fuel` more attempts. -/
def roundedMagnitude (raw : List Int) (a k : Nat) : Nat → Nat → Nat
  | 0, S => rneOfPower S (powerLow (dftFix S raw k)) raw.length a
  | fuel + 1, S =>
    let lo := rneOfPower S (powerLow (dftFix S raw k)) raw.length a
    let hi := rneOfPower S (powerHigh (dftFix S raw k)) raw.length a
    if lo = hi then lo
    else if magnitudeEq raw a k (encUnits lo + encUnits (lo + 1)) then (if lo % 2 = 0 then lo else lo + 1)
    else roundedMagnitude raw a k fuel (2 * S)

/-- The number of attempts after the first that are enough for every window of `n` samples (DEDUCED, log 7). -/
def attempts (n : Nat) : Nat := Nat.log2 n + 4

/-- Is the normalised window all zero (R133), because `A = 0` or because every sample is 0? -/
def silentWindow (raw : List Int) (a : Nat) : Bool := a == 0 || raw.all (· == 0)

/-- The encoding of 65536.0, the largest value `M[k]` can take (R135). -/
def maxMagnitudeBits : Nat := 0x47800000

/-- `RNE32(M[k])` (R136, `exact_rounded`). The bound `M[k] ≤ 65536` of R135 is applied to the result, which it never
changes. -/
def exactMagnitude (raw : List Int) (a k : Nat) : Word :=
  if silentWindow raw a then 0#32
  else BitVec.ofNat 32 (min (roundedMagnitude raw a k (attempts raw.length) baseBits) maxMagnitudeBits)

/-- The enclosure test of P4 at `S` fraction bits: `M[k] ≤ hi / 2^150` and `lo / 2^150 ≤ M[k]`, `none` while undecided. -/
def compareMagnitude (raw : List Int) (a k u : Nat) : Nat → Nat → Ordering
  | 0, _ => .eq
  | fuel + 1, S =>
    let scale := u * u * (raw.length * raw.length * (a * a)) * 2 ^ (2 * S)
    if 4 * powerHigh (dftFix S raw k) * 2 ^ 300 < scale then .lt
    else if scale < 4 * powerLow (dftFix S raw k) * 2 ^ 300 then .gt
    else if magnitudeEq raw a k u then .eq
    else compareMagnitude raw a k u fuel (2 * S)

/-- P4 (R137): `|val(v) − M[k]| ≤ tol / 2^150`, for `v` +0 or positive and finite. -/
def withinTolerance (tol : Nat) (raw : List Int) (a k : Nat) (v : Word) : Bool :=
  compareMagnitude raw a k (2 * encUnits (magBits v) + tol) (attempts raw.length + 1) baseBits != .gt &&
    (decide (2 * encUnits (magBits v) ≤ tol) ||
      compareMagnitude raw a k (2 * encUnits (magBits v) - tol) (attempts raw.length + 1) baseBits != .lt)

/-- A value that P2, P3 and P4 allow an implementation for this window and bin (R137). -/
def conforms (tol : Nat) (raw : List Int) (a k : Nat) (v : Word) : Bool :=
  decide (v.toNat ≤ maxFiniteBits) &&
    (if silentWindow raw a then v == 0#32 else withinTolerance tol raw a k v)

/-- `MAG_IMPL` held to R137: the implementation's value where it conforms. Where it does not, it is no value of a
conforming implementation, and the reference value stands in. For a tolerance below the distance from `M[k]` to the
nearest binary32 no value meets P4, and R137 says nothing: there the reference value, outside the tolerance, is stored.
DESIGN CHOICE (log 6). -/
def boundedMagnitude (tol : Nat) (raw : List Int) (a k : Nat) : Word :=
  if conforms tol raw a k (Config.magImpl raw a raw.length k) then Config.magImpl raw a raw.length k
  else exactMagnitude raw a k

/-- `SpectrumOf` for the window `raw` of one channel, the normaliser `a` and the bin `k` (R136). -/
def magnitude (mode : MagMode) (raw : List Int) (a k : Nat) : Word :=
  match mode with
  | .exactRounded => exactMagnitude raw a k
  | .bounded tol => boundedMagnitude tol raw a k

end Sys2Proof.Machine
end

