-- ==== Sys2Proof/Machine/Spectrum.lean ====
section
/-! DEFINITION. `SPECTRUM` (41_spectrum.md R130 to R140). -/

namespace Sys2Proof.Machine

/-- `SpectrumOf(c, k)` (R136). -/
def spectrumOf (s : State) (c : Channel) (k : Nat) : Word :=
  magnitude s.params.magMode (window s c) s.regs.norm.toNat k

/-- The bins `k, k+1, ...` of `SPEC[c]` written with the values of a list. -/
def putBins (c : Channel) : Nat → List Word → List Host.Cell → List Host.Cell
  | _, [], m => m
  | k, w :: ws, m => putBins c (k + 1) ws (putWord m (specAddr c k) w)

/-- The bins `0 .. floor(n/2) − 1` of a window's spectrum (R135). -/
def spectrumOfWindow (mode : MagMode) (raw : List Int) (a : Nat) : List Word :=
  (List.range (raw.length / 2)).map (magnitude mode raw a)

/-- The bins that `SPECTRUM c` computes (R130). -/
def spectrumBins (s : State) (c : Channel) : List Word :=
  spectrumOfWindow s.params.magMode (window s c) s.regs.norm.toNat

/-- The writes of `SPECTRUM c`: `SPEC[c][0 .. floor(n/2) − 1]` and nothing else (R130, R138). -/
def spectrumStage (c : Channel) (s : State) : State :=
  { s with mem := putBins c 0 (spectrumBins s c) s.mem }

/-- The completion step of `SPECTRUM c` (R113, R130). -/
def execSpectrum (c : Channel) (s : State) : Host.Outcome State Fault Refusal :=
  .next (complete (spectrumStage c s))

end Sys2Proof.Machine
end

