-- ==== Sys2Proof/Machine/Analyze.lean ====
section
/-! DEFINITION. `ANALYZE` (44_analyze.md R185 to R190). -/

namespace Sys2Proof.Machine

/-- The three stages of one channel, each reading what the one before it computed (R185). -/
def analyzeChannel (s : State) (c : Channel) : State := shapeStage c (selectStage c (spectrumStage c s))

/-- The completion step of `ANALYZE`: every declared channel in one step (R113, R185, R187). -/
def execAnalyze (s : State) : Host.Outcome State Fault Refusal :=
  .next (complete ((declaredChannels s).foldl analyzeChannel s))

end Sys2Proof.Machine
end

