-- ==== Sys2Proof/Machine/Nop.lean ====
section
/-! DEFINITION. `NOP` (40_command.md R119). -/

namespace Sys2Proof.Machine

/-- `Exec(NOP) = {}`: the completion step writes nothing else (R119). -/
def execNop (s : State) : Host.Outcome State Fault Refusal := .next (complete s)

end Sys2Proof.Machine
end

