-- ==== Sys2Proof/Machine/Dispatch.lean ====
section
/-! DEFINITION. The one dispatch over the commands (30_encoding.md R92): `exec i` is the completion step of the command
`i` (40_command.md R113). -/

namespace Sys2Proof.Machine

def exec (i : Instr) (s : State) : Host.Outcome State Fault Refusal :=
  match i with
  | .nop => Sys2Proof.Machine.execNop s
  | .analyze => Sys2Proof.Machine.execAnalyze s
  | .spectrum c => Sys2Proof.Machine.execSpectrum c s
  | .select c => Sys2Proof.Machine.execSelect c s
  | .shape c => Sys2Proof.Machine.execShape c s

end Sys2Proof.Machine
end

