-- ==== Sys2Proof/WellFormed.lean ====
section
/-! DEFINITION. What is well formed: commands (30_encoding.md R91), host transactions (20_memory.md R62) and
implementation parameters (00_scope.md R6). -/

namespace Sys2Proof

/-- A channel operand is one of the channels a one-bit `CH` can name (R91). -/
def Channel.wellFormed (c : Channel) : Bool := c.index < 2

/-- A command is well formed when its channel operand is. The type of `Instr` already admits nothing else: `NOP` and
`ANALYZE` have no operand (R91), so their `CH` is 0. -/
def Instr.wellFormed : Instr → Bool
  | .nop => true
  | .analyze => true
  | .spectrum c => c.wellFormed
  | .select c => c.wellFormed
  | .shape c => c.wellFormed

/-- The address a transaction carries. -/
def Txn.addr : Txn → Nat
  | .read _ a => a
  | .write _ a _ => a

/-- The width a transaction carries. -/
def Txn.width : Txn → Width
  | .read w _ => w
  | .write w _ _ => w

/-- The only legal access is 32 bits wide with `addr[1:0] = 0` (R62). -/
def Txn.wellFormed (t : Txn) : Bool := t.width == .word && t.addr % 4 == 0

/-- The legal `N_MAX`: even, `2 ≤ N_MAX ≤ 16384` (R6). R6 bounds no other parameter. -/
def Params.wellFormed (p : Params) : Bool := p.nMax % 2 == 0 && decide (2 ≤ p.nMax) && decide (p.nMax ≤ 16384)

end Sys2Proof
end

