-- ==== Sys2Proof/Decode.lean ====
section
/-! DEFINITION. The command word: a decoder total on every 32-bit word, rejecting by name (30_encoding.md R93, R94),
and after it the encoder (R90, R92). -/

namespace Sys2Proof

/-- Why a word is ILLEGAL (R94). -/
inductive DecodeError where
  /-- A bit of 31:9 or 7:4 is set (R94). -/
  | reservedBits
  /-- `OP ∈ 0x5 .. 0xF` (R94). -/
  | reservedOp
  /-- `CH = 1` on `NOP` or `ANALYZE` (R91, R94). -/
  | channelOperand
  deriving DecidableEq, Repr

/-- `OP = w[3:0]` (R90). -/
def opField (w : Word) : BitVec 4 := w.extractLsb' 0 4

/-- The reserved field `w[7:4]` (R90). -/
def lowReserved (w : Word) : BitVec 4 := w.extractLsb' 4 4

/-- `CH = w[8]` (R90). -/
def chField (w : Word) : BitVec 1 := w.extractLsb' 8 1

/-- The reserved field `w[31:9]` (R90). -/
def highReserved (w : Word) : BitVec 23 := w.extractLsb' 9 23

/-- `CH` read as an unsigned channel index (R91). -/
def channelOf (ch : BitVec 1) : Channel := if ch = 0#1 then .ch0 else .ch1

/-- `Decode(w)` (R93); an error is its ILLEGAL, with the reason R94 lists. -/
def decode (w : Word) : Except DecodeError Instr :=
  if highReserved w ≠ 0#23 ∨ lowReserved w ≠ 0#4 then .error .reservedBits
  else if opField w = 0x0#4 then (if chField w = 0#1 then .ok .nop else .error .channelOperand)
  else if opField w = 0x1#4 then (if chField w = 0#1 then .ok .analyze else .error .channelOperand)
  else if opField w = 0x2#4 then .ok (.spectrum (channelOf (chField w)))
  else if opField w = 0x3#4 then .ok (.select (channelOf (chField w)))
  else if opField w = 0x4#4 then .ok (.shape (channelOf (chField w)))
  else .error .reservedOp

/-- The `CH` field of a channel (R91). -/
def chBits : Channel → BitVec 1
  | .ch0 => 0#1
  | .ch1 => 1#1

/-- A word of the one format `CMDW` (R90): `31:9` zero, `CH`, `7:4` zero, `OP`. -/
def commandWord (op : BitVec 4) (ch : BitVec 1) : Word := 0#23 ++ ch ++ 0#4 ++ op

/-- The word of a command (R92). -/
def encode : Instr → Word
  | .nop => commandWord 0x0#4 0#1
  | .analyze => commandWord 0x1#4 0#1
  | .spectrum c => commandWord 0x2#4 (chBits c)
  | .select c => commandWord 0x3#4 (chBits c)
  | .shape c => commandWord 0x4#4 (chBits c)

/-- The first `nbits` bits of a table word, the bits above them 0. -/
def tableWord (nbits w : Nat) : Nat := w % 2 ^ nbits

/-- The command the decoder reads from the word `w`, numbered as spec/opcode_table.json numbers it. A command is
exactly one 32-bit word (R90), so a number that needs more is no command. -/
def decodeTableWord (nbits w : Nat) : Option Instr :=
  if tableWord nbits w < 2 ^ 32 then (decode (BitVec.ofNat 32 (tableWord nbits w))).toOption else none

end Sys2Proof
end

