-- ==== Sys2Proof/Machine/Flags.lean ====
section
/-! DEFINITION. `STATUS` and `CTRL` as the host reads and writes them (10_state.md R25, R26), and `irq`
(10_state.md R48, 60_exceptions.md R210). No command sets a flag from the value of a result (R50). -/

namespace Sys2Proof.Machine

/-- A flag as one bit. -/
def bit (b : Bool) : BitVec 1 := if b then 1#1 else 0#1

/-- `STATUS.BUSY`: 1 exactly when `SEQ = BUSY(_)` (R26). -/
def isBusy (s : State) : Bool :=
  match s.seq with
  | .idle => false
  | .busy _ => true

/-- `STATUS` read (R26): bits 31:8 and 3 read 0, `ERRCODE` at 7:4, `ERR` at 2, `DONE` at 1, `BUSY` at 0. -/
def statusWord (s : State) : Word :=
  0#24 ++ s.status.errCode ++ 0#1 ++ bit s.status.err ++ bit s.status.done ++ bit (isBusy s)

/-- `CTRL` read (R25): bits 31:2 read 0, `IE_ERR` at 1, `IE_DONE` at 0. -/
def ctrlWord (s : State) : Word := 0#30 ++ bit s.ctrl.ieErr ++ bit s.ctrl.ieDone

/-- `STATUS` written with `v` (R26): a 1 in bit 1 clears `DONE`, a 1 in bit 2 clears `ERR` and `ERRCODE`. -/
def writeStatus (v : Word) (s : State) : State :=
  let s1 := if v.getLsbD 1 then clearDone s else s
  if v.getLsbD 2 then clearError s1 else s1

/-- `CTRL` written with `v` (R25): a 1 in bit 31 is the soft reset and the other bits are ignored (R232); else
`IE_DONE` and `IE_ERR` are stored. -/
def writeCtrl (v : Word) (s : State) : State :=
  if v.getLsbD 31 then softReset s
  else { s with ctrl := { ieDone := v.getLsbD 0, ieErr := v.getLsbD 1 } }

/-- The `irq` output, a level (R48, R210). -/
def irq (s : State) : Bool := (s.ctrl.ieDone && s.status.done) || (s.ctrl.ieErr && s.status.err)

end Sys2Proof.Machine
end

