-- ==== Sys2Proof/Machine/Port.lean ====
section
/-! DEFINITION. The host port: the register map (10_state.md R23), reads and writes (20_memory.md R60 to R68;
60_exceptions.md R207), and the issue of a command with its checks (40_command.md R110 to R112, R115, R116). -/

namespace Sys2Proof.Machine

/-- The control and status registers and the derived values of R23. -/
def controlMap : List (Nat × Location) :=
  [(0x000, .id), (0x004, .ctrl), (0x008, .status), (0x00C, .cmd),
   (0x048, .wsize), (0x04C, .floorBin), (0x050, .ceilBin), (0x054, .nmax)]

/-- The configuration registers of R23. -/
def configMap : List (Nat × Location) :=
  [(0x010, .cfg .channels), (0x014, .cfg .norm), (0x018, .cfg .sampleRate), (0x01C, .cfg .periodMs),
   (0x020, .cfg .len), (0x024, .cfg .gain), (0x028, .cfg .floorHz), (0x02C, .cfg .ceilHz),
   (0x030, .cfg .boundHz), (0x034, .cfg .resLoHz), (0x038, .cfg .resHiHz), (0x03C, .cfg .resCeil),
   (0x040, .cfg .loDefault), (0x044, .cfg .hiDefault)]

/-- `CAND[0..1]` in R23. -/
def candMap : List (Nat × Location) :=
  [(0x080, .cand .ch0 .hiF), (0x084, .cand .ch0 .hiA), (0x088, .cand .ch0 .loF), (0x08C, .cand .ch0 .loA),
   (0x090, .cand .ch1 .hiF), (0x094, .cand .ch1 .hiA), (0x098, .cand .ch1 .loF), (0x09C, .cand .ch1 .loA)]

/-- `RESULT[0..1]` in R23. -/
def resultMap : List (Nat × Location) :=
  [(0x0C0, .result .ch0 .freqHigh), (0x0C4, .result .ch0 .ampHigh),
   (0x0C8, .result .ch0 .freqLow), (0x0CC, .result .ch0 .ampLow),
   (0x0D0, .result .ch1 .freqHigh), (0x0D4, .result .ch1 .ampHigh),
   (0x0D8, .result .ch1 .freqLow), (0x0DC, .result .ch1 .ampLow)]

/-- The register part of the map of R23. -/
def registerMap : List (Nat × Location) := controlMap ++ configMap ++ candMap ++ resultMap

/-- The RAM part of the map of R23, for an aligned offset; the tails past `N_MAX` are unmapped (R64). -/
def locateRam (nMax a : Nat) : Location :=
  if 0x10000 ≤ a ∧ a < 0x10000 + 4 * nMax then .pcm ((a - 0x10000) / 4)
  else if 0x20000 ≤ a ∧ a < 0x20000 + 2 * nMax then .spec .ch0 ((a - 0x20000) / 4)
  else if 0x28000 ≤ a ∧ a < 0x28000 + 2 * nMax then .spec .ch1 ((a - 0x28000) / 4)
  else .unmapped

/-- What an aligned offset names (R23, R64). -/
def locate (nMax : Nat) (a : Nat) : Location :=
  match registerMap.lookup a with
  | some l => l
  | none => locateRam nMax a

/-- The offset an address names: the port carries its low `ADDR_BITS` bits (R53, R60; log 23). -/
def portOffset (p : Params) (a : Nat) : Nat := a % 2 ^ p.addrBits

/-! ### Reads -/

/-- The outputs whose value a read while busy does not tell (R68). -/
def hiddenWhileBusy : Location → Bool
  | .cand _ _ => true
  | .result _ _ => true
  | .pcm _ => true
  | .spec _ _ => true
  | _ => false

/-- The value an aligned read returns (R23 to R47, R64). -/
def readLocation (s : State) : Location → Word
  | .id => s.params.idValue
  | .ctrl => ctrlWord s
  | .status => statusWord s
  | .cmd => 0#32
  | .cfg r => s.regs.get r
  | .wsize => saturate (windowSize s)
  | .floorBin => saturate (floorBin s)
  | .ceilBin => saturate (ceilBin s)
  | .nmax => BitVec.ofNat 32 s.params.nMax
  | .cand c f => (s.cand.get c).get f
  | .result c f => (s.result.get c).get f
  | .pcm j => readWord s (pcmAddr (2 * j))
  | .spec c k => readWord s (specAddr c k)
  | .unmapped => 0#32

/-- An aligned 32-bit read (R66, R68): no effect but the response, which is OKAY. R64 states that of the unmapped offsets
only; elsewhere it is a DESIGN CHOICE (log 22). -/
def hostRead (l : Location) (s : State) : State :=
  if isBusy s && hiddenWhileBusy l then respondDraw .okay s
  else respond { rdata := some (readLocation s l), resp := .okay } s

/-! ### Issue -/

/-- `ConfigOK()` (R116). -/
def configOk (s : State) : Bool :=
  (channelCount s == 1 || channelCount s == 2) &&
  decide (1 ≤ s.regs.sampleRate.toNat) &&
  decide (1 ≤ s.regs.periodMs.toNat) &&
  (decide (1 ≤ windowSize s) && decide (windowSize s ≤ s.params.nMax)) &&
  isFinite s.regs.gain &&
  (!isNaN s.regs.resCeil && !signBit s.regs.resCeil && leF s.regs.resCeil oneF) &&
  (isFinite s.regs.loDefault && posF s.regs.loDefault) &&
  (isFinite s.regs.hiDefault && posF s.regs.hiDefault)

/-- The channel a per-channel command names (R91). -/
def channelOperand : Instr → Option Channel
  | .nop => none
  | .analyze => none
  | .spectrum c => some c
  | .select c => some c
  | .shape c => some c

/-- The commands that read a window, and so check `LEN` (R111). -/
def readsWindow : Instr → Bool
  | .nop => false
  | .analyze => true
  | .spectrum _ => true
  | .select _ => true
  | .shape _ => false

/-- The request check (R111, R202): does the command name a channel `c ≥ CHANNELS`? -/
def requestBad (s : State) (i : Instr) : Bool :=
  match channelOperand i with
  | none => false
  | some c => decide (channelCount s ≤ c.index)

/-- The length check (R111): `LEN` is in `[1, W]`. -/
def lengthOk (s : State) : Bool := decide (1 ≤ windowLen s) && decide (windowLen s ≤ windowSize s)

/-- `Check(w)` (R111): the first check that fails, in the priority of R204; `none` is its OK. -/
def check (s : State) (w : Word) : Option CmdError :=
  match decode w with
  | .error _ => some .illegal
  | .ok i =>
    if i = .nop then none
    else if !configOk s then some .configuration
    else if requestBad s i then some .request
    else if readsWindow i && !lengthOk s then some .length
    else none

/-- `OnCmdWrite(w)` for an idle sequencer (R110). -/
def issue (w : Word) (s : State) : State :=
  match check s w with
  | none => accept w s
  | some e => reject e s

/-! ### Writes -/

/-- An aligned write to a location other than `CTRL` and `STATUS`, while `SEQ = IDLE` (R23, R27, R64). -/
def writeIdle (l : Location) (v : Word) (s : State) : State :=
  match l with
  | .cmd => issue v s
  | .cfg r => { s with regs := s.regs.set r v }
  | .cand c f => setCand s c ((s.cand.get c).set f v)
  | .pcm j => writeWord s (pcmAddr (2 * j)) v
  | .spec c k => writeWord s (specAddr c k) v
  | .id => s
  | .wsize => s
  | .floorBin => s
  | .ceilBin => s
  | .nmax => s
  | .result _ _ => s
  | .unmapped => s
  | .ctrl => writeCtrl v s
  | .status => writeStatus v s

/-- The effect of an aligned 32-bit write: `CTRL` and `STATUS` in either state of `SEQ`; anything else while busy is a
BusyWrite (R207). -/
def writeEffect (l : Location) (v : Word) (s : State) : State :=
  if l = .ctrl then writeCtrl v s
  else if l = .status then writeStatus v s
  else if isBusy s then busyWrite s
  else writeIdle l v s

/-- An aligned 32-bit write and its response (R60, R66). The response is OKAY in every case, a rejected command and a
BusyWrite among them: R115, R205 and R207 record those in `STATUS` and name no `resp`. DESIGN CHOICE (log 22). -/
def hostWrite (l : Location) (v : Word) (s : State) : State :=
  respond { rdata := none, resp := .okay } (writeEffect l v s)

/-- One host transaction (R60 to R68). A misaligned or sub-word one is answered with ERROR and changes nothing (R62). -/
def hostStep (t : Txn) (s : State) : State :=
  match t with
  | .read w a =>
    if (Txn.read w a).wellFormed then hostRead (locate s.params.nMax (portOffset s.params a)) s
    else respondDraw .error s
  | .write w a v =>
    if (Txn.write w a v).wellFormed then hostWrite (locate s.params.nMax (portOffset s.params a)) v s
    else respond { rdata := none, resp := .error } s

end Sys2Proof.Machine
end

