-- ==== Sys2Proof/Machine/Agents.lean ====
section
/-! DEFINITION. Who moves (00_scope.md R14; 60_exceptions.md R211): the host, the engine agent (40_command.md R113), or
the reset line (70_reset_and_hazards.md R230). -/

namespace Sys2Proof.Machine

/-- The engine agent's step: the completion of the command in flight (R113). With none in flight it is not enabled, and
the engine stays idle (R233). -/
def engineStep (s : State) : Host.Outcome State Fault Refusal :=
  match s.seq with
  | .idle => .next s
  | .busy w =>
    match decode w with
    | .ok i => exec i s
    | .error _ => .fault .inFlightUndecodable

/-- One event happens. -/
def happen (e : Event) (s : State) : Host.Outcome State Fault Refusal :=
  match e with
  | .host t => .next (hostStep t s)
  | .engineTurn => engineStep s
  | .hardReset => .next (hardReset s)

/-- One step: the next event of `pending`, or the engine agent's step when none is left (log 2, log 13). -/
def advance (s : State) : Host.Outcome State Fault Refusal :=
  match s.pending with
  | [] => engineStep s
  | e :: rest => happen e { s with pending := rest }

/-- The state with the command word `w` in flight and the engine agent to move next (log 12). -/
def placeInFlight (s : State) (w : Word) : State :=
  { s with seq := .busy w, pending := .engineTurn :: s.pending }

end Sys2Proof.Machine
end

