-- ==== Sys2Proof/Machine/Step.lean ====
section
/-! DEFINITION. The step of the machine, and the placing of one command where the next step takes it up. -/

namespace Sys2Proof.Machine

/-- One step (00_scope.md R14; 60_exceptions.md R211). -/
def step (s : State) : Host.Outcome State Fault Refusal := advance s

/-- `s` with the command word of `nbits` bits that spec/opcode_table.json numbers `w` in flight, so that the next step
is its completion step (40_command.md R113; log 12). -/
def State.withFetchWord (s : State) (nbits w : Nat) : State := placeInFlight s (BitVec.ofNat 32 (tableWord nbits w))

end Sys2Proof.Machine
end

