-- ==== Sys2Proof/Machine/HostProgram.lean ====
section
/-! DEFINITION. Host programs as lists of events: assembler mnemonics (30_encoding.md R95), transactions (R96),
pseudo-instructions (R97) and the window-stream procedure (20_memory.md R75, 44_analyze.md R191). -/

namespace Sys2Proof.Machine

/-! ### Assembler -/

/-- The command a mnemonic and its operand assemble to (R95): case-insensitive, a missing channel is `ch0`, `NOP` and
`ANALYZE` take none. -/
def assemble (mnemonic : List Char) (operand : Option Channel) : Option Instr :=
  let m := mnemonic.map Char.toUpper
  if m = ['N', 'O', 'P'] then (if operand = none then some .nop else none)
  else if m = ['A', 'N', 'A', 'L', 'Y', 'Z', 'E'] then (if operand = none then some .analyze else none)
  else if m = ['S', 'P', 'E', 'C', 'T', 'R', 'U', 'M'] then some (.spectrum (operand.getD .ch0))
  else if m = ['S', 'E', 'L', 'E', 'C', 'T'] then some (.select (operand.getD .ch0))
  else if m = ['S', 'H', 'A', 'P', 'E'] then some (.shape (operand.getD .ch0))
  else none

/-! ### Transactions -/

/-- The offsets of the registers `CHANNELS` to `HI_DEFAULT` (R23). -/
def cfgOffset : CfgReg → Nat
  | .channels => 0x010
  | .norm => 0x014
  | .sampleRate => 0x018
  | .periodMs => 0x01C
  | .len => 0x020
  | .gain => 0x024
  | .floorHz => 0x028
  | .ceilHz => 0x02C
  | .boundHz => 0x030
  | .resLoHz => 0x034
  | .resHiHz => 0x038
  | .resCeil => 0x03C
  | .loDefault => 0x040
  | .hiDefault => 0x044

/-- The place of a field within `CAND[c]` (R23). -/
def candOffset : CandField → Nat
  | .hiF => 0x0
  | .hiA => 0x4
  | .loF => 0x8
  | .loA => 0xC

/-- The place of a field within `RESULT[c]` (R23). -/
def resultOffset : ResultField → Nat
  | .freqHigh => 0x0
  | .ampHigh => 0x4
  | .freqLow => 0x8
  | .ampLow => 0xC

/-- The offset of `PCM.w[j]` (R96). -/
def pcmWordAddr (j : Nat) : Nat := 0x10000 + 4 * j

/-- The offset a `<reg>` operand names (R96). -/
def offsetOf : Location → Option Nat
  | .id => some 0x000
  | .ctrl => some 0x004
  | .status => some 0x008
  | .cmd => some 0x00C
  | .cfg r => some (cfgOffset r)
  | .wsize => some 0x048
  | .floorBin => some 0x04C
  | .ceilBin => some 0x050
  | .nmax => some 0x054
  | .cand c f => some (0x080 + 0x10 * c.index + candOffset f)
  | .result c f => some (0x0C0 + 0x10 * c.index + resultOffset f)
  | .pcm j => some (pcmWordAddr j)
  | .spec c k => some (specAddr c k)
  | .unmapped => none

/-- `WR` at an offset (R96). -/
def wr (a : Nat) (v : Word) : Event := .host (.write .word a v)

/-- `RD` at an offset (R96). -/
def rd (a : Nat) : Event := .host (.read .word a)

/-! ### Pseudo-instructions -/

/-- `CMD <mnemonic>` (R97). -/
def cmdProgram (i : Instr) : List Event := [wr 0x00C (encode i)]

/-- `WAIT` (R97) on the interleaving in which `polls` reads of `STATUS` come before the engine agent completes and one
more read ends the loop (R243; log 18). -/
def waitProgram (polls : Nat) : List Event := List.replicate polls (rd 0x008) ++ [.engineTurn, rd 0x008]

/-- `RUN <mnemonic>` (R97), the engine agent completing before the first poll. -/
def runProgram (i : Instr) : List Event := cmdProgram i ++ waitProgram 0

/-- `CLEAR` (R97). -/
def clearProgram : List Event := [wr 0x008 0x00000006#32]

/-- `SOFTRESET` (R97). -/
def softResetProgram : List Event := [wr 0x004 0x80000000#32]

/-- `PCMFRAMES2 t0, (l0,r0), ...` (R97): two-channel frames from frame `t0` on. -/
def pcmFrames2 : Nat → List (Half × Half) → List Event
  | _, [] => []
  | t, (l, r) :: rest => wr (pcmWordAddr t) (r ++ l) :: pcmFrames2 (t + 1) rest

/-- The ascending list `[a .. b]` (R12). -/
def span (a b : Nat) : List Nat := (List.range (b + 1 - a)).map (fun i => a + i)

/-- `PCMFILL a, b, v` (R97). -/
def pcmFill (a b : Nat) (v : Word) : List Event := (span a b).map (fun j => wr (pcmWordAddr j) v)

/-- `SPECFILL c, a, b, v` (R97). -/
def specFill (c : Channel) (a b : Nat) (v : Word) : List Event := (span a b).map (fun k => wr (specAddr c k) v)

/-! ### The window stream -/

/-- `raw` of R75: the signed 16-bit little-endian samples of a byte buffer; an odd last byte is no sample. -/
def samplesOfBytes : List Byte → List Half
  | lo :: hi :: rest => (hi ++ lo) :: samplesOfBytes rest
  | _ => []

/-- `A = max(|raw[i]|)`, 0 for no samples (R75). -/
def trackPeak (raw : List Half) : Nat := raw.foldl (fun a h => max a h.toInt.natAbs) 0

/-- The PCM words that hold the slots of one window, from word `j` on (R65). A spare upper half of the last word, which
no command reads (R131), is written 0. A window with more slots than the PCM RAM, `W > N_MAX`, names slots that do not
exist: no transaction writes those. DESIGN CHOICE (log 20). -/
def windowWords (nMax : Nat) : Nat → List Half → List Event
  | _, [] => []
  | j, [a] => if j < nMax then [wr (pcmWordAddr j) (0#16 ++ a)] else []
  | j, a :: b :: rest => if j < nMax then wr (pcmWordAddr j) (b ++ a) :: windowWords nMax (j + 1) rest else []

/-- The reads that emit `RESULT[0], ..., RESULT[C−1]` (R75). -/
def emitProgram (c : Nat) : List Event := (List.range (4 * c)).map (fun i => rd (0x0C0 + 4 * i))

/-- `n` of step `m` (R75): the frames of its window, fewer than `W` in a trailing partial one. -/
def streamLen (frames w m : Nat) : Nat := min w (frames - m * w)

/-- The writes of step `m` before its command (R75): `PCM[t·C + c] <- raw[(m·W + t)·C + c]`, then `LEN`. -/
def streamLoad (nMax : Nat) (raw : List Half) (c w m : Nat) : List Event :=
  windowWords nMax 0 ((raw.drop (m * w * c)).take (streamLen (raw.length / c) w m * c)) ++
    [wr 0x020 (BitVec.ofNat 32 (streamLen (raw.length / c) w m))]

/-- Step `m` of the stream (R75): load the window, run `ANALYZE` with `polls` reads of `STATUS` that find it busy, emit
the results. -/
def streamStep (nMax : Nat) (raw : List Half) (c w polls m : Nat) : List Event :=
  streamLoad nMax raw c w m ++ cmdProgram .analyze ++ waitProgram polls ++ emitProgram c

/-- The loop of R75 from step `m` on, at most `fuel` steps of it: `while m·W < L`. -/
def streamLoop (nMax : Nat) (raw : List Half) (c w : Nat) (polls : Nat → Nat) : Nat → Nat → List Event
  | 0, _ => []
  | fuel + 1, m =>
    if m * w < raw.length / c then
      streamStep nMax raw c w (polls m) m ++ streamLoop nMax raw c w polls fuel (m + 1)
    else []

/-- `ceil(L / W)`, the steps of the stream (R75, R191). -/
def streamSteps (frames w : Nat) : Nat := (frames + w - 1) / w

/-- The configuration writes of R75 and the read of `WSIZE`. -/
def streamConfig (raw : List Half) (c sr p : Word) : List Event :=
  [wr 0x010 c, wr 0x018 sr, wr 0x01C p, wr 0x014 (BitVec.ofNat 32 (trackPeak raw)), rd 0x048]

/-- R75's `require`. -/
def streamLegal (c sr p : Word) : Bool :=
  (c.toNat == 1 || c.toNat == 2) && decide (1 ≤ sr.toNat) && decide (1 ≤ p.toNat)

/-- `W` as R75's host has it, read from `WSIZE` (R45). -/
def streamWindow (sr p : Word) : Nat := min (roundHe (sr.toNat * p.toNat) 1000) 0xFFFFFFFF

/-- `HostStream(buf, C, sr, P)` (R75) on the engine with the capacity `nMax`, on the interleaving in which `polls m`
reads of `STATUS` find step `m` busy. Where R75's `require` fails, the host configures and issues one `ANALYZE`, which
the engine rejects with ConfigurationError, and reads `STATUS`: no frame count is taken. `L` rounds are enough for the
loop to end when `W ≥ 1`; for `W = 0` R75's loop does not end, and the script is its first `L` rounds, each one's
`ANALYZE` rejected with ConfigurationError. DESIGN CHOICE (log 20). -/
def hostStream (nMax : Nat) (buf : List Byte) (c sr p : Word) (polls : Nat → Nat) : List Event :=
  let raw := samplesOfBytes buf
  streamConfig raw c sr p ++
    (if streamLegal c sr p then streamLoop nMax raw c.toNat (streamWindow sr p) polls (raw.length / c.toNat) 0
    else cmdProgram .analyze ++ waitProgram 0)

end Sys2Proof.Machine
end

