-- ==== Sys2Proof/Safety.lean ====
section
/-! DEFINITION. What counts as a sound state and a safe run, in the terms the claims use. -/

namespace Sys2Proof.Machine

/-- The `STATUS` fields that can occur together (10_state.md R26; 60_exceptions.md R200): `ERRCODE` is 0 without `ERR`
and one of 1 to 5 with it. -/
def Status.wellFormed (f : Status) : Bool :=
  if f.err then decide (1 ≤ f.errCode.toNat) && decide (f.errCode.toNat ≤ 5) else f.errCode == 0#4

/-- A command in flight was accepted: its checks pass on the registers as they stand, and `DONE` is 0
(40_command.md R111, R112; 20_memory.md R67). -/
def inFlightSound (s : State) : Bool :=
  match s.seq with
  | .idle => true
  | .busy w => (check s w).isNone && !s.status.done

/-- An amplitude the source allows: a binary32 in `[+0, 1.0]` (43_shape.md R176). -/
def unitAmplitude (a : Word) : Bool := decide (a.toNat ≤ oneF.toNat)

/-- Both amplitudes of a result are in `[+0, 1.0]` (R176). -/
def RumbleParams.bounded (p : RumbleParams) : Bool := unitAmplitude p.ampHigh && unitAmplitude p.ampLow

/-- The invariant of the machine: legal parameters (R6), RAM in its canonical form and inside the RAMs (R40, R41), a
`STATUS` that can occur (R26), an accepted command in flight or none (R112), and every result amplitude in range
(R176). -/
structure State.Inv (s : State) : Prop where
  params : s.params.wellFormed = true
  mem : Memory.wf s.params.nMax s.mem = true
  status : s.status.wellFormed = true
  inFlight : inFlightSound s = true
  results : s.result.ch0.bounded = true ∧ s.result.ch1.bounded = true

/-- `b` is the encoding of `RNE32(r / 2^149)` for the real `r ≥ 0` (00_scope.md R9): the nearest finite value, the even
encoding of two equally near; from half way between the largest finite value and `2^128` on, +∞. -/
def NearestEven (r : ℝ) (b : Nat) : Prop :=
  if ((encUnits maxFiniteBits : ℝ) + encUnits infBits) / 2 ≤ r then b = infBits
  else b ≤ maxFiniteBits ∧ ∀ e ≤ maxFiniteBits, e ≠ b →
    |r - encUnits b| < |r - encUnits e| ∨ (|r - encUnits b| = |r - encUnits e| ∧ b % 2 = 0)

/-- The exact magnitude `M[k] = 2·|X[k]| / n` of a window, with `X[k] = Σ (raw[t] / A)·exp(−2πi·k·t/n)`
(41_spectrum.md R133, R134, R135), in units of `2^-149`. -/
noncomputable def idealMagnitude (raw : List Int) (a k : Nat) : ℝ :=
  2 ^ 149 * (2 * ‖∑ t ∈ Finset.range raw.length, ((raw.getD t 0 : ℂ) / (a : ℂ)) *
    Complex.exp (-(2 * Real.pi * Complex.I * k * t / raw.length))‖ / raw.length)

/-- A bin of `I` whose magnitude is positive and that lies in the band: one of R157's lists. -/
def inBandList (s : State) (c : Channel) (band : State → Nat → Bool) (k : Nat) : Prop :=
  floorBin s ≤ k ∧ k ≤ ceilBin s ∧ k < binCount s ∧ posF (specBin s c k) = true ∧ band s k = true

/-- The bin that the closed form of R157 picks in a band: the largest magnitude, the smallest index among equals. -/
def isBandPeak (s : State) (c : Channel) (band : State → Nat → Bool) (k : Nat) : Prop :=
  inBandList s c band k ∧
    ∀ j, inBandList s c band j →
      unitsOf (specBin s c j) < unitsOf (specBin s c k) ∨
        (unitsOf (specBin s c j) = unitsOf (specBin s c k) ∧ k ≤ j)

/-- A transaction that is no soft reset: no aligned 32-bit write to `CTRL` with bit 31 set (70_reset_and_hazards.md
R232). -/
def noSoftReset (p : Params) : Txn → Bool
  | .read _ _ => true
  | .write w a v => !(w == .word && portOffset p a == 0x004 && v.getLsbD 31)

/-- A run is safe when no step of it stops. -/
def safeRun (k : Nat) (s : State) : Prop := ∃ t, Host.Core.run Sys2Proof.core k s = .next t

end Sys2Proof.Machine
end

