-- ==== Sys2Proof/Certificates/Slice0/Obligations.lean ====
section
/-! DEFINITION. The claims of this row, each from the numbered rules of spec/ that its docstring names. Transactions at
the head of `pending` are the ones the step performs (log 2). -/

open Sys2Proof Sys2Proof.Machine

/-! ### Encoding -/

/-- The eight command words of R92, each written out bit by bit from the format of R90. -/
def Obligations.CommandWordsDecode : Prop :=
  decode 0b00000000000000000000000000000000#32 = .ok .nop ∧
  decode 0b00000000000000000000000000000001#32 = .ok .analyze ∧
  decode 0b00000000000000000000000000000010#32 = .ok (.spectrum .ch0) ∧
  decode 0b00000000000000000000000100000010#32 = .ok (.spectrum .ch1) ∧
  decode 0b00000000000000000000000000000011#32 = .ok (.select .ch0) ∧
  decode 0b00000000000000000000000100000011#32 = .ok (.select .ch1) ∧
  decode 0b00000000000000000000000000000100#32 = .ok (.shape .ch0) ∧
  decode 0b00000000000000000000000100000100#32 = .ok (.shape .ch1)

/-- Decoding the encoding of a well-formed command gives it back (R90 to R93). -/
def Obligations.EncodeThenDecode : Prop :=
  ∀ i : Instr, i.wellFormed = true → decode (encode i) = .ok i

/-- A word decodes to a command exactly when it is that command's word (R92, R93): no two words share a meaning and no
bit is dropped. -/
def Obligations.DecodedWordIsItsEncoding : Prop :=
  ∀ (w : Word) (i : Instr), decode w = .ok i ↔ w = encode i

/-- R94: the illegal words are exactly those it lists, and writing one to `CMD` while idle changes only `STATUS`. -/
def Obligations.IllegalWordsExactly : Prop :=
  ∀ w : Word,
    ((∃ e, decode w = .error e) ↔
      (w.toNat / 2 ^ 9 ≠ 0 ∨ w.toNat / 2 ^ 4 % 2 ^ 4 ≠ 0 ∨ 5 ≤ w.toNat % 2 ^ 4 ∨
        w = 0x00000100#32 ∨ w = 0x00000101#32)) ∧
    ∀ (s : State) (rest : List Event) (e : DecodeError), decode w = .error e → s.seq = .idle →
      s.pending = wr 0x00C w :: rest →
      ∃ r : Response, step s = .next { s with
        pending := rest
        responses := r :: s.responses
        status := { done := true, err := true, errCode := 3#4 } }

/-! ### Issue and errors -/

/-- R110, R112, R115, with the codes of R200: a `CMD` write while busy is a BusyWrite; while idle it is accepted when
every check passes, `STATUS.BUSY` reading 1 from then on, and rejected with the first failing one otherwise, each with
exactly the writes named. -/
def Obligations.CmdWriteAcceptsOrRejects : Prop :=
  (errorCode .configuration = 1#4 ∧ errorCode .request = 2#4 ∧ errorCode .illegal = 3#4 ∧ errorCode .length = 4#4) ∧
  ∀ (s : State) (w : Word) (rest : List Event), s.pending = wr 0x00C w :: rest →
    (∀ v, s.seq = .busy v →
      ∃ r : Response, step s = .next { s with
        pending := rest
        responses := r :: s.responses
        status := { s.status with err := true, errCode := 5#4 } }) ∧
    (s.seq = .idle → check s w = none →
      ∃ (t : State) (r : Response), step s = .next t ∧
        t = { s with
          pending := rest
          responses := r :: s.responses
          seq := .busy w
          status := { s.status with done := false } } ∧
        (readLocation t .status).getLsbD 0 = true) ∧
    ∀ e, s.seq = .idle → check s w = some e →
      ∃ r : Response, step s = .next { s with
        pending := rest
        responses := r :: s.responses
        status := { done := true, err := true, errCode := errorCode e } }

/-- R111, in the priority of R204: illegal before configuration before request before length; `NOP` makes no check but
decode, `SHAPE` none of the length. -/
def Obligations.ChecksInPriorityOrder : Prop :=
  ∀ (s : State) (w : Word),
    (∀ e, decode w = .error e → check s w = some .illegal) ∧
    (decode w = .ok .nop → check s w = none) ∧
    ∀ i, decode w = .ok i → i ≠ .nop →
      (configOk s = false → check s w = some .configuration) ∧
      (configOk s = true →
        ((∃ c : Channel, (i = .spectrum c ∨ i = .select c ∨ i = .shape c) ∧ s.regs.channels.toNat ≤ c.index) →
          check s w = some .request) ∧
        ((∀ c : Channel, i = .spectrum c ∨ i = .select c ∨ i = .shape c → c.index < s.regs.channels.toNat) →
          (¬ (1 ≤ s.regs.len.toNat ∧ s.regs.len.toNat ≤ windowSize s) →
            (i = .analyze ∨ (∃ c, i = .spectrum c) ∨ ∃ c, i = .select c) → check s w = some .length) ∧
          ((1 ≤ s.regs.len.toNat ∧ s.regs.len.toNat ≤ windowSize s) ∨ (∃ c, i = .shape c) → check s w = none)))

/-- R116, the binary32 conditions as ranges of encodings: `GAIN` finite, `RES_CEIL` +0 or in `(0, 1.0]`, the defaults
positive and finite. -/
def Obligations.ConfigOkExactly : Prop :=
  ∀ s : State, configOk s = true ↔
    (s.regs.channels = 1#32 ∨ s.regs.channels = 2#32) ∧
    1 ≤ s.regs.sampleRate.toNat ∧
    1 ≤ s.regs.periodMs.toNat ∧
    (1 ≤ roundHe (s.regs.sampleRate.toNat * s.regs.periodMs.toNat) 1000 ∧
      roundHe (s.regs.sampleRate.toNat * s.regs.periodMs.toNat) 1000 ≤ s.params.nMax) ∧
    s.regs.gain.toNat / 2 ^ 23 % 2 ^ 8 ≠ 255 ∧
    s.regs.resCeil.toNat ≤ 0x3F800000 ∧
    (0 < s.regs.loDefault.toNat ∧ s.regs.loDefault.toNat < 0x7F800000) ∧
    (0 < s.regs.hiDefault.toNat ∧ s.regs.hiDefault.toNat < 0x7F800000)

/-- R235: from reset `NOP` runs, and any other command is a ConfigurationError as long as `SAMPLE_RATE` is 0, as it is
at reset. -/
def Obligations.OnlyNopRunsWithoutSampleRate : Prop :=
  State.reset.regs.sampleRate = 0#32 ∧
  (∃ t, Host.Core.run Sys2Proof.core 2 { State.reset with pending := cmdProgram .nop ++ [.engineTurn] } = .next t ∧
    readLocation t .status = 0x00000002#32) ∧
  ∀ (s : State) (w : Word) (i : Instr), decode w = .ok i → s.regs.sampleRate = 0#32 →
    (i = .nop → check s w = none) ∧ (i ≠ .nop → check s w = some .configuration)

/-- R207: while busy, an aligned write to anything but `CTRL` and `STATUS` is dropped and reported with code 5, `DONE`
and the command in flight unchanged; writes to those two are performed; a misaligned or sub-word write is a bus error
and no BusyWrite. That the write is answered OKAY, with no data, is the model's choice (log 14, log 22). -/
def Obligations.WritesWhileBusy : Prop :=
  ∀ (s : State) (cmd : Word) (width : Width) (a : Nat) (v : Word) (rest : List Event), s.seq = .busy cmd →
    s.pending = .host (.write width a v) :: rest →
    (width = .word → a % 4 = 0 → portOffset s.params a ≠ 0x004 → portOffset s.params a ≠ 0x008 →
      step s = .next { s with
        pending := rest
        responses := { rdata := none, resp := .okay } :: s.responses
        status := { s.status with err := true, errCode := 5#4 } }) ∧
    (width = .word → portOffset s.params a = 0x004 →
      step s = .next (respond { rdata := none, resp := .okay } (writeCtrl v { s with pending := rest }))) ∧
    (width = .word → portOffset s.params a = 0x008 →
      step s = .next (respond { rdata := none, resp := .okay } (writeStatus v { s with pending := rest }))) ∧
    (width ≠ .word ∨ a % 4 ≠ 0 →
      step s = .next { s with pending := rest, responses := { rdata := none, resp := .error } :: s.responses })

/-- R208: writing 4 to `STATUS` clears `ERR` and `ERRCODE` and nothing else, in either state of `SEQ`; `CLEAR`, which
writes 6, clears `DONE` too; and a set `ERR` blocks nothing: a command whose checks pass is accepted whatever `ERR`
holds. -/
def Obligations.ReturnFromError : Prop :=
  (∀ (s : State) (rest : List Event), s.pending = wr 0x008 0x00000004#32 :: rest →
    ∃ r : Response, step s = .next { s with
      pending := rest
      responses := r :: s.responses
      status := { s.status with err := false, errCode := 0#4 } }) ∧
  (∀ (s : State) (rest : List Event), s.pending = clearProgram ++ rest →
    ∃ r : Response, step s = .next { s with
      pending := rest
      responses := r :: s.responses
      status := { done := false, err := false, errCode := 0#4 } }) ∧
  ∀ (s : State) (f : Status) (w : Word) (rest : List Event), s.seq = .idle → check s w = none →
    s.pending = wr 0x00C w :: rest →
    ∃ r : Response, step { s with status := f } = .next { s with
      pending := rest
      responses := r :: s.responses
      seq := .busy w
      status := { f with done := false } }

/-- R209: an error while `ERR = 1` overwrites the code, and a BusyWrite during a command, followed by its completion,
leaves `ERR = 1`, `ERRCODE = 5`, `DONE = 1`. -/
def Obligations.NestedErrorsKeepTheNewest : Prop :=
  (∀ (s : State) (w : Word) (e : CmdError) (rest : List Event), s.status.err = true → s.seq = .idle →
    check s w = some e → s.pending = wr 0x00C w :: rest →
    ∃ t, step s = .next t ∧ t.status = { done := true, err := true, errCode := errorCode e }) ∧
  ∀ (s : State) (cmd v : Word) (i : Instr) (a : Nat) (rest : List Event), s.seq = .busy cmd → decode cmd = .ok i →
    a < 2 ^ 18 → a % 4 = 0 → a ≠ 0x004 → a ≠ 0x008 → s.pending = wr a v :: .engineTurn :: rest →
    ∃ t, Host.Core.run Sys2Proof.core 2 s = .next t ∧ t.seq = .idle ∧
      t.status = { done := true, err := true, errCode := 5#4 }

/-- R48, R210: `irq` is the level of its two sources in every state; so it rises in the step that completes a command,
rejects one or meets a BusyWrite, when the source is enabled; a completion adds no error; an acceptance drops the `DONE`
source; a `CTRL` write enables or masks at once; a `STATUS` write that clears the last source drops it. -/
def Obligations.IrqFollowsItsSources : Prop :=
  (∀ s : State, irq s = true ↔
    (s.ctrl.ieDone = true ∧ s.status.done = true) ∨ (s.ctrl.ieErr = true ∧ s.status.err = true)) ∧
  (∀ (i : Instr) (s : State), ∃ t, exec i s = .next t ∧ irq t = (s.ctrl.ieDone || (s.ctrl.ieErr && s.status.err))) ∧
  (∀ (s : State) (w : Word) (e : CmdError) (rest : List Event), s.seq = .idle → check s w = some e →
    s.pending = wr 0x00C w :: rest → ∃ t, step s = .next t ∧ irq t = (s.ctrl.ieDone || s.ctrl.ieErr)) ∧
  (∀ (s : State) (w : Word) (rest : List Event), s.seq = .idle → check s w = none →
    s.pending = wr 0x00C w :: rest → ∃ t, step s = .next t ∧ irq t = (s.ctrl.ieErr && s.status.err)) ∧
  (∀ (s : State) (cmd v : Word) (a : Nat) (rest : List Event), s.seq = .busy cmd → a % 4 = 0 →
    portOffset s.params a ≠ 0x004 → portOffset s.params a ≠ 0x008 → s.pending = wr a v :: rest →
    ∃ t, step s = .next t ∧ irq t = ((s.ctrl.ieDone && s.status.done) || s.ctrl.ieErr)) ∧
  (∀ (s : State) (v : Word) (rest : List Event), s.pending = wr 0x004 v :: rest →
    ∃ t, step s = .next t ∧
      irq t = (!v.getLsbD 31 && ((v.getLsbD 0 && s.status.done) || (v.getLsbD 1 && s.status.err)))) ∧
  ∀ (s : State) (v : Word) (rest : List Event), s.pending = wr 0x008 v :: rest →
    ∃ t, step s = .next t ∧
      irq t = ((s.ctrl.ieDone && s.status.done && !v.getLsbD 1) || (s.ctrl.ieErr && s.status.err && !v.getLsbD 2))

/-! ### The host port -/

/-- R62: a misaligned or sub-word access is answered with ERROR and changes nothing of the engine. -/
def Obligations.BadAccessChangesNothing : Prop :=
  ∀ (s : State) (x : Txn) (rest : List Event), s.pending = .host x :: rest → (x.width ≠ .word ∨ x.addr % 4 ≠ 0) →
    ∃ data n, step s = .next { s with
      pending := rest
      draws := n
      responses := { rdata := data, resp := .error } :: s.responses }

/-- R64: the unmapped offsets, for every legal `N_MAX` and every `ADDR_BITS`: a read returns 0, a write is ignored
while idle and a BusyWrite while busy. -/
def Obligations.UnmappedOffsets : Prop :=
  ∀ (s : State) (a : Nat) (v : Word) (rest : List Event), s.params.wellFormed = true → a % 4 = 0 →
    a < 2 ^ s.params.addrBits →
    ((0x058 ≤ a ∧ a ≤ 0x07C) ∨ (0x0A0 ≤ a ∧ a ≤ 0x0BC) ∨ (0x0E0 ≤ a ∧ a ≤ 0xFFFC) ∨
      (0x10000 + 4 * s.params.nMax ≤ a ∧ a ≤ 0x1FFFF) ∨ (0x20000 + 2 * s.params.nMax ≤ a ∧ a ≤ 0x27FFF) ∨
      (0x28000 + 2 * s.params.nMax ≤ a ∧ a ≤ 0x2FFFF) ∨ 0x30000 ≤ a) →
    (s.pending = rd a :: rest →
      step s = .next { s with
        pending := rest, responses := { rdata := some 0#32, resp := .okay } :: s.responses }) ∧
    (s.pending = wr a v :: rest → s.seq = .idle →
      ∃ data, step s = .next { s with
        pending := rest, responses := { rdata := data, resp := .okay } :: s.responses }) ∧
    ∀ cmd, s.pending = wr a v :: rest → s.seq = .busy cmd →
      ∃ r : Response, step s = .next { s with
        pending := rest
        responses := r :: s.responses
        status := { s.status with err := true, errCode := 5#4 } }

/-- R23: the port's map sends the offset of every register and RAM word to it, for every legal `N_MAX`. -/
def Obligations.MapNamesEveryLocation : Prop :=
  ∀ (p : Params) (l : Location) (o : Nat), p.wellFormed = true → offsetOf l = some o →
    (∀ j, l = .pcm j → j < p.nMax) → (∀ c k, l = .spec c k → k < p.nMax / 2) → locate p.nMax o = l

/-- R23, R73, R67: a configuration register stores every bit, leaves the other thirteen alone, and reads back in the
next transaction. That the write is answered OKAY, with no data, and the read OKAY, is the model's choice (log 14,
log 22). -/
def Obligations.ConfigRegistersReadBack : Prop :=
  ∀ (s : State) (r : CfgReg) (v : Word) (rest : List Event), s.seq = .idle →
    s.pending = wr (cfgOffset r) v :: rd (cfgOffset r) :: rest →
    Host.Core.run Sys2Proof.core 2 s = .next { s with
      pending := rest
      regs := s.regs.set r v
      responses := { rdata := some v, resp := .okay } :: { rdata := none, resp := .okay } :: s.responses } ∧
    (s.regs.set r v).get r = v ∧ ∀ q, q ≠ r → (s.regs.set r v).get q = s.regs.get q

/-- R42, R23: a candidate register stores every bit and reads back in the next transaction; the other seven keep theirs.
That the write is answered OKAY, with no data, and the read OKAY, is the model's choice (log 14, log 22). -/
def Obligations.CandidateRegistersReadBack : Prop :=
  ∀ (s : State) (c : Channel) (f : CandField) (o : Nat) (v : Word) (rest : List Event), s.seq = .idle →
    offsetOf (.cand c f) = some o →
    (s.pending = wr o v :: rest →
      ∃ t, step s = .next t ∧ (t.cand.get c).get f = v ∧ readLocation t (.cand c f) = v ∧
        (∀ d e, (d ≠ c ∨ e ≠ f) → (t.cand.get d).get e = (s.cand.get d).get e) ∧
        t = { s with
          pending := rest, cand := t.cand, responses := { rdata := none, resp := .okay } :: s.responses }) ∧
    (s.pending = wr o v :: rd o :: rest →
      ∃ t, Host.Core.run Sys2Proof.core 2 s = .next t ∧
        t.responses = { rdata := some v, resp := .okay } :: { rdata := none, resp := .okay } :: s.responses)

/-- R65: word `j` of the PCM RAM is `{PCM[2j+1], PCM[2j]}`; a write writes both slots and no other byte, a read returns
both. -/
def Obligations.PcmWordPacking : Prop :=
  ∀ (s : State) (j : Nat) (w : Word) (rest : List Event), s.params.wellFormed = true → j < s.params.nMax →
    s.seq = .idle → s.pending = wr (pcmWordAddr j) w :: rest →
    ∃ (t : State) (r : Response), step s = .next t ∧
      readHalf t (pcmAddr (2 * j)) = w.extractLsb' 0 16 ∧
      readHalf t (pcmAddr (2 * j + 1)) = w.extractLsb' 16 16 ∧
      readLocation t (.pcm j) = w ∧
      (∀ u : State, readLocation u (.pcm j) = readHalf u (pcmAddr (2 * j + 1)) ++ readHalf u (pcmAddr (2 * j))) ∧
      (∀ a, (a < pcmWordAddr j ∨ pcmWordAddr j + 4 ≤ a) → readByte t a = readByte s a) ∧
      t = { s with pending := rest, mem := t.mem, responses := r :: s.responses }

/-- R41, R66: a spectrum bin the host writes reads back, and no other byte of RAM changes. That the write is answered
OKAY, with no data, is the model's choice (log 14, log 22). -/
def Obligations.SpectrumRamReadBack : Prop :=
  ∀ (s : State) (c : Channel) (k : Nat) (w : Word) (rest : List Event), s.params.wellFormed = true →
    k < s.params.nMax / 2 → s.seq = .idle → s.pending = wr (specAddr c k) w :: rest →
    ∃ t, step s = .next t ∧ specBin t c k = w ∧ readLocation t (.spec c k) = w ∧
      (∀ a, (a < specAddr c k ∨ specAddr c k + 4 ≤ a) → readByte t a = readByte s a) ∧
      t = { s with pending := rest, mem := t.mem, responses := { rdata := none, resp := .okay } :: s.responses }

/-- R23, R24, R43, R44: a write to `ID`, `WSIZE`, `FLOOR_BIN`, `CEIL_BIN`, `NMAX` or a result register while idle is
ignored. That the write is answered OKAY, with no data, is the model's choice (log 14, log 22). -/
def Obligations.ReadOnlyRegistersIgnoreWrites : Prop :=
  ∀ (s : State) (l : Location) (o : Nat) (v : Word) (rest : List Event),
    (l = .id ∨ l = .wsize ∨ l = .floorBin ∨ l = .ceilBin ∨ l = .nmax ∨ ∃ c f, l = .result c f) →
    offsetOf l = some o → s.seq = .idle → s.pending = wr o v :: rest →
    step s = .next { s with pending := rest, responses := { rdata := none, resp := .okay } :: s.responses }

/-- R66: a read has no effect on the engine, whatever it reads and in either state of `SEQ`. R23, R67, R77: while
idle, an aligned read answers with what the offset holds, OKAY. That every aligned 32-bit access is answered OKAY,
reads and writes, accepted or not, is the model's choice where no rule states it (log 22). -/
def Obligations.ReadsHaveNoSideEffects : Prop :=
  (∀ (s : State) (width : Width) (a : Nat) (rest : List Event), s.pending = .host (.read width a) :: rest →
    ∃ r n, step s = .next { s with pending := rest, draws := n, responses := r :: s.responses }) ∧
  (∀ (s : State) (a : Nat) (rest : List Event), s.seq = .idle → a % 4 = 0 → s.pending = rd a :: rest →
    step s = .next { s with
      pending := rest
      responses :=
        { rdata := some (readLocation s (locate s.params.nMax (portOffset s.params a))), resp := .okay } ::
          s.responses }) ∧
  ∀ (s : State) (x : Txn) (rest : List Event), x.wellFormed = true → s.pending = .host x :: rest →
    ∃ t r, step s = .next t ∧ t.responses = r :: s.responses ∧ r.resp = .okay

/-- R68: while busy, a read of `PCM`, `SPEC`, `CAND` or `RESULT` returns some value, which nothing here fixes, and a
read of anything else its current value; neither changes the engine. -/
def Obligations.ReadsWhileBusy : Prop :=
  ∀ (s : State) (cmd : Word) (a : Nat) (rest : List Event), s.seq = .busy cmd → a % 4 = 0 → a < 2 ^ 18 →
    s.pending = rd a :: rest →
    ((∃ j, locate s.params.nMax a = .pcm j) ∨ (∃ c k, locate s.params.nMax a = .spec c k) ∨
        (∃ c f, locate s.params.nMax a = .cand c f) ∨ (∃ c f, locate s.params.nMax a = .result c f) →
      ∃ data p n, step s = .next { s with
        pending := rest
        draws := n
        responses := { rdata := some data, resp := p } :: s.responses }) ∧
    ((∀ j, locate s.params.nMax a ≠ .pcm j) → (∀ c k, locate s.params.nMax a ≠ .spec c k) →
        (∀ c f, locate s.params.nMax a ≠ .cand c f) → (∀ c f, locate s.params.nMax a ≠ .result c f) →
      ∃ p, step s = .next { s with
        pending := rest
        responses := { rdata := some (readLocation s (locate s.params.nMax a)), resp := p } :: s.responses })

/-- R26: the bits of `STATUS` as read, and what a write of `v` does in either state of `SEQ`. That the write is
answered OKAY, with no data, is the model's choice (log 14, log 22). -/
def Obligations.StatusReadAndWrite : Prop :=
  (∀ s : State,
    ((statusWord s).getLsbD 0 = true ↔ ∃ cmd, s.seq = .busy cmd) ∧
    (statusWord s).getLsbD 1 = s.status.done ∧
    (statusWord s).getLsbD 2 = s.status.err ∧
    (statusWord s).extractLsb' 4 4 = s.status.errCode ∧
    (statusWord s).getLsbD 3 = false ∧
    (statusWord s).extractLsb' 8 24 = 0#24) ∧
  ∀ (s : State) (v : Word) (rest : List Event), s.pending = wr 0x008 v :: rest →
    step s = .next { s with
      pending := rest
      responses := { rdata := none, resp := .okay } :: s.responses
      status := {
        done := if v.getLsbD 1 then false else s.status.done
        err := if v.getLsbD 2 then false else s.status.err
        errCode := if v.getLsbD 2 then 0#4 else s.status.errCode } }

/-- R25: `CTRL` stores `IE_DONE` and `IE_ERR` and no other bit, and reads the two back. That the write is answered
OKAY, with no data, is the model's choice (log 14, log 22). -/
def Obligations.CtrlStoresTheEnables : Prop :=
  (∀ s : State,
    (ctrlWord s).getLsbD 0 = s.ctrl.ieDone ∧
    (ctrlWord s).getLsbD 1 = s.ctrl.ieErr ∧
    (ctrlWord s).extractLsb' 2 30 = 0#30) ∧
  ∀ (s : State) (v : Word) (rest : List Event), v.getLsbD 31 = false → s.pending = wr 0x004 v :: rest →
    step s = .next { s with
      pending := rest
      responses := { rdata := none, resp := .okay } :: s.responses
      ctrl := { ieDone := v.getLsbD 0, ieErr := v.getLsbD 1 } }

/-! ### Reset -/

/-- R232: the soft reset, in either state of `SEQ`: registers and `SEQ` as after `rst_n`, `CTRL` 0 whatever the other
bits were, a command in flight abandoned, every RAM slot kept. -/
def Obligations.SoftResetKeepsTheRams : Prop :=
  ∀ (s : State) (v : Word) (rest : List Event), v.getLsbD 31 = true → s.pending = wr 0x004 v :: rest →
    ∃ t data, step s = .next t ∧
      t = { s with
        pending := rest
        responses := { rdata := data, resp := .okay } :: s.responses
        seq := State.reset.seq
        ctrl := State.reset.ctrl
        status := State.reset.status
        regs := State.reset.regs
        cand := State.reset.cand
        result := State.reset.result } ∧
      ctrlWord t = 0#32 ∧ ∀ a, readByte t a = readByte s a

/-- R230: the hardware reset, in either state of `SEQ`: registers and `SEQ` at their reset values, a command in flight
abandoned, every RAM byte a fresh unspecified value (the model's free value, log 4). -/
def Obligations.HardwareReset : Prop :=
  ∀ (s : State) (rest : List Event), s.pending = .hardReset :: rest →
    ∃ t, step s = .next t ∧
      t = { State.reset with
        params := s.params
        pending := rest
        responses := s.responses
        draws := s.draws
        ramEpoch := s.ramEpoch + 1 } ∧
      statusWord t = 0#32 ∧ ctrlWord t = 0#32 ∧ irq t = false ∧
      ∀ a, readByte t a = Config.ramByte (s.ramEpoch + 1) a

/-- R231: what every register reads right after reset, as the table gives it. The spec marks its values of
`LO_DEFAULT` and `HI_DEFAULT` as general knowledge; the value of `NMAX` is the parameter the model's reset state
carries (log 3, log 19). -/
def Obligations.ResetRegisterValues : Prop :=
  State.reset.seq = .idle ∧ irq State.reset = false ∧
  readLocation State.reset .ctrl = 0#32 ∧ readLocation State.reset .status = 0#32 ∧
  readLocation State.reset .cmd = 0#32 ∧
  readLocation State.reset (.cfg .channels) = 1#32 ∧ readLocation State.reset (.cfg .norm) = 0#32 ∧
  readLocation State.reset (.cfg .sampleRate) = 0#32 ∧ readLocation State.reset (.cfg .periodMs) = 32#32 ∧
  readLocation State.reset (.cfg .len) = 0#32 ∧ readLocation State.reset (.cfg .gain) = 0x41200000#32 ∧
  readLocation State.reset (.cfg .floorHz) = 40#32 ∧ readLocation State.reset (.cfg .ceilHz) = 1252#32 ∧
  readLocation State.reset (.cfg .boundHz) = 626#32 ∧ readLocation State.reset (.cfg .resLoHz) = 160#32 ∧
  readLocation State.reset (.cfg .resHiHz) = 360#32 ∧ readLocation State.reset (.cfg .resCeil) = 0x3DCCCCCD#32 ∧
  readLocation State.reset (.cfg .loDefault) = 0x43200000#32 ∧
  readLocation State.reset (.cfg .hiDefault) = 0x43A00000#32 ∧
  (∀ c f, readLocation State.reset (.cand c f) = 0#32) ∧ (∀ c f, readLocation State.reset (.result c f) = 0#32) ∧
  readLocation State.reset .id = 0x4A434631#32 ∧ readLocation State.reset .nmax = 4096#32 ∧
  readLocation State.reset .wsize = 0#32 ∧ readLocation State.reset .floorBin = 1#32 ∧
  readLocation State.reset .ceilBin = 40#32

/-! ### Numbers -/

/-- R10: `round_he(p, q)` is the integer nearest to `p/q`, the even one of two equally near. -/
def Obligations.RoundHalfEven : Prop :=
  ∀ p q : Nat, 0 < q →
    ∀ m : Int, m ≠ roundHe p q →
      |(p : Int) - roundHe p q * q| < |(p : Int) - m * q| ∨
        (|(p : Int) - roundHe p q * q| = |(p : Int) - m * q| ∧ roundHe p q % 2 = 0)

/-- R45, R46, R47: the derived registers read the rounded products, saturated to 32 bits. -/
def Obligations.DerivedRegisters : Prop :=
  ∀ s : State,
    (readLocation s .wsize).toNat =
      min (roundHe (s.regs.sampleRate.toNat * s.regs.periodMs.toNat) 1000) 0xFFFFFFFF ∧
    (readLocation s .floorBin).toNat =
      min (roundHe (s.regs.floorHz.toNat * s.regs.periodMs.toNat) 1000) 0xFFFFFFFF ∧
    (readLocation s .ceilBin).toNat =
      min (roundHe (s.regs.ceilHz.toNat * s.regs.periodMs.toNat) 1000) 0xFFFFFFFF

/-- R9, R151: `RNE32(p/q)` is the binary32 nearest to `p/q`, ties to even. That it is +∞ from half way between the
largest finite value and `2^128` on is the model's reading (log 15), not a rule of the spec. -/
def Obligations.RationalsRoundToNearestEven : Prop :=
  ∀ p q : Nat, 0 < q → NearestEven (2 ^ 149 * (p : ℝ) / q) (rneRat p q).toNat

/-- R9, R172: `mul32` of two finite values is the exact product rounded to nearest even, with the sign of the product;
with a NaN, or an infinity times a zero, it is a NaN, and an infinity times anything else is an infinity with the sign
of the product. Overflow to +∞ is the model's reading (log 15). -/
def Obligations.ProductsRoundToNearestEven : Prop :=
  ∀ a b : Word,
    (isFinite a = true → isFinite b = true →
      signBit (mul32 a b) = (signBit a ^^ signBit b) ∧
      NearestEven ((encUnits (magBits a) : ℝ) * encUnits (magBits b) / 2 ^ 149) (magBits (mul32 a b))) ∧
    (isNaN a = true ∨ isNaN b = true → isNaN (mul32 a b) = true) ∧
    ((magBits a = infBits ∧ magBits b = 0) ∨ (magBits a = 0 ∧ magBits b = infBits) → isNaN (mul32 a b) = true) ∧
    ((magBits a = infBits ∧ 0 < magBits b ∧ magBits b ≤ infBits) ∨
        (magBits b = infBits ∧ 0 < magBits a ∧ magBits a ≤ infBits) →
      magBits (mul32 a b) = infBits ∧ signBit (mul32 a b) = (signBit a ^^ signBit b))

/-- R151, R153, R139: for a window of at least one frame `F(k)` is the binary32 nearest to `k·sr/n`, ties to even;
`F(0)` is +0; the band tests compare its exact value with `BOUND_HZ` and `FLOOR_HZ`; and it never decreases with `k`.
-/
def Obligations.BinFrequencyAndBands : Prop :=
  ∀ (s : State) (k : Nat), 0 < s.regs.len.toNat →
    NearestEven (2 ^ 149 * (k * s.regs.sampleRate.toNat : ℝ) / s.regs.len.toNat) (frequency s k).toNat ∧
    frequency s 0 = 0#32 ∧
    (inHighBand s k = true ↔ (s.regs.boundHz.toNat * 2 ^ 149 : Int) < unitsOf (frequency s k)) ∧
    (inLowBand s k = true ↔
      (s.regs.floorHz.toNat * 2 ^ 149 : Int) ≤ unitsOf (frequency s k) ∧
        unitsOf (frequency s k) ≤ (s.regs.boundHz.toNat * 2 ^ 149 : Int)) ∧
    ∀ j, j ≤ k → unitsOf (frequency s j) ≤ unitsOf (frequency s k)

/-! ### The commands -/

/-- R119: `NOP` completes in every state, writing only `SEQ` and `DONE`; issued to an idle engine it is accepted with
any configuration and leaves `ERR` and `ERRCODE` alone. That the `CMD` write is answered OKAY, with no data, is the
model's choice (log 14, log 22). -/
def Obligations.NopCompletes : Prop :=
  (∀ s : State, exec .nop s = .next { s with seq := .idle, status := { s.status with done := true } }) ∧
  ∀ (s : State) (rest : List Event), s.seq = .idle → s.pending = wr 0x00C 0x00000000#32 :: .engineTurn :: rest →
    Host.Core.run Sys2Proof.core 2 s = .next { s with
      pending := rest
      responses := { rdata := none, resp := .okay } :: s.responses
      status := { s.status with done := true } }

/-- R113, R117: the completion step of every command reaches a next state with `SEQ` idle and `DONE` 1, and leaves
`ERR`, `ERRCODE`, every configuration and control register and everything outside the engine as they were. -/
def Obligations.EveryCommandCompletes : Prop :=
  ∀ (i : Instr) (s : State), ∃ t, exec i s = .next t ∧
    t = { s with
      seq := .idle, status := { s.status with done := true }, mem := t.mem, cand := t.cand, result := t.result }

/-- R130, R131, R138: `SPECTRUM c` writes exactly `SPEC[c][0 .. floor(n/2)−1]`, bin `k` with the magnitude of the window
`raw[t] = sext16(PCM[t·C + c])`, and leaves every other byte and every register as it was. -/
def Obligations.SpectrumWritesItsBins : Prop :=
  ∀ (c : Channel) (s : State), ∃ t, exec (.spectrum c) s = .next t ∧
    (∀ k < s.regs.len.toNat / 2, specBin t c k =
      magnitude s.params.magMode
        ((List.range s.regs.len.toNat).map fun i =>
          (readHalf s (pcmAddr (i * s.regs.channels.toNat + c.index))).toInt)
        s.regs.norm.toNat k) ∧
    (∀ a, (a < specAddr c 0 ∨ specAddr c (s.regs.len.toNat / 2) ≤ a) → readByte t a = readByte s a) ∧
    t = { s with seq := .idle, status := { s.status with done := true }, mem := t.mem }

/-- R133, R137 (P3): a window that is silent, because `NORM = 0` or every sample is 0, gives +0 in every bin written, in
both modes. -/
def Obligations.SilentWindowGivesZeroBins : Prop :=
  ∀ (c : Channel) (s : State),
    (s.regs.norm = 0#32 ∨
      ∀ i < s.regs.len.toNat, readHalf s (pcmAddr (i * s.regs.channels.toNat + c.index)) = 0#16) →
    ∃ t, exec (.spectrum c) s = .next t ∧ ∀ k < s.regs.len.toNat / 2, specBin t c k = 0#32

/-- R137 (P2): every magnitude, in both modes, is +0 or a positive finite binary32, and in `exact_rounded` at most
65536 (R135). -/
def Obligations.MagnitudesAreFinite : Prop :=
  ∀ (mode : MagMode) (raw : List Int) (a k : Nat),
    (magnitude mode raw a k).toNat < 0x7F800000 ∧ (magnitude .exactRounded raw a k).toNat ≤ 0x47800000

/-- R137: for a window the engine can hold, a value conforms exactly when it is +0 or positive and finite (P2), is +0
on a silent window (P3), and differs from the exact `M[k]` by at most `tol / 2^150` (P4); with `A = 0`, exactly when
it is +0. In `bounded` mode the implementation's value is stored whenever it conforms, and the reference value
otherwise, also where the tolerance is so small that no value conforms; that form is the model's choice (log 6). -/
def Obligations.ConformingValuesExactly : Prop :=
  (∀ (tol : Nat) (raw : List Int) (a k : Nat) (v : Word), 1 ≤ a → a < 2 ^ 32 → raw.length ≤ 16384 →
    2 * (k + 1) ≤ raw.length → (∀ x ∈ raw, -32768 ≤ x ∧ x ≤ 32767) →
    (conforms tol raw a k v = true ↔
      v.toNat ≤ maxFiniteBits ∧ ((∀ x ∈ raw, x = 0) → v = 0#32) ∧
        |(encUnits v.toNat : ℝ) - idealMagnitude raw a k| ≤ (tol : ℝ) / 2)) ∧
  (∀ (tol : Nat) (raw : List Int) (k : Nat) (v : Word), conforms tol raw 0 k v = true ↔ v = 0#32) ∧
  ∀ (tol : Nat) (raw : List Int) (a k : Nat),
    (conforms tol raw a k (Config.magImpl raw a raw.length k) = true →
      magnitude (.bounded tol) raw a k = Config.magImpl raw a raw.length k) ∧
    (conforms tol raw a k (Config.magImpl raw a raw.length k) = false →
      magnitude (.bounded tol) raw a k = magnitude .exactRounded raw a k)

/-- R131, R137 (P1): the bins `SPECTRUM c` writes depend only on its own lane's samples, `CHANNELS`, `NORM`, `LEN` and
the implementation. -/
def Obligations.SpectrumReadsOnlyItsLane : Prop :=
  ∀ (c : Channel) (s u : State), s.params = u.params → s.regs.channels = u.regs.channels →
    s.regs.norm = u.regs.norm → s.regs.len = u.regs.len →
    (∀ i < s.regs.len.toNat, readHalf s (pcmAddr (i * s.regs.channels.toNat + c.index)) =
      readHalf u (pcmAddr (i * s.regs.channels.toNat + c.index))) →
    ∃ t v, exec (.spectrum c) s = .next t ∧ exec (.spectrum c) u = .next v ∧
      ∀ k < s.regs.len.toNat / 2, specBin t c k = specBin v c k

/-- R134 to R136: in `exact_rounded` mode the magnitude is the binary32 nearest to `2·|X[k]|/n`, ties to even, for every
window the engine can hold. -/
def Obligations.ExactMagnitudeIsNearest : Prop :=
  ∀ (raw : List Int) (a k : Nat), 1 ≤ a → a < 2 ^ 32 → raw.length ≤ 16384 → 2 * (k + 1) ≤ raw.length →
    (∀ x ∈ raw, -32768 ≤ x ∧ x ≤ 32767) →
    NearestEven (idealMagnitude raw a k) (magnitude .exactRounded raw a k).toNat

/-- R156: `SELECT c` writes the four registers of `CAND[c]` and nothing else. -/
def Obligations.SelectWritesItsCandidates : Prop :=
  ∀ (c : Channel) (s : State), ∃ d : Cand, exec (.select c) s = .next { s with
    seq := .idle, status := { s.status with done := true }, cand := s.cand.set c d }

/-- R157: the candidates `SELECT c` writes are those of the closed form: in each band the largest magnitude, the lowest
index among equals, and the sentinel when the band has no qualifying bin. -/
def Obligations.SelectPicksTheBandPeaks : Prop :=
  ∀ (c : Channel) (s : State), ∃ t, exec (.select c) s = .next t ∧
    ((∀ k, ¬ inBandList s c inHighBand k) → (t.cand.get c).hiF = 0#32 ∧ (t.cand.get c).hiA = 0#32) ∧
    (∀ k, isBandPeak s c inHighBand k →
      (t.cand.get c).hiF = frequency s k ∧ (t.cand.get c).hiA = specBin s c k) ∧
    ((∀ k, ¬ inBandList s c inLowBand k) → (t.cand.get c).loF = 0#32 ∧ (t.cand.get c).loA = 0#32) ∧
    (∀ k, isBandPeak s c inLowBand k →
      (t.cand.get c).loF = frequency s k ∧ (t.cand.get c).loA = specBin s c k) ∧
    (∀ k, inBandList s c inHighBand k → ∃ p, isBandPeak s c inHighBand p) ∧
    ∀ k, inBandList s c inLowBand k → ∃ p, isBandPeak s c inLowBand p

/-- R159: a spectrum with no positive bin, and a window too short for a selectable bin (`n ≤ 2·floorBin + 1`), give two
sentinels. -/
def Obligations.NoBinGivesSentinels : Prop :=
  ∀ (c : Channel) (s : State),
    ((∀ k < s.regs.len.toNat / 2, posF (specBin s c k) = false) ∨ s.regs.len.toNat ≤ 2 * floorBin s + 1) →
    ∃ t, exec (.select c) s = .next t ∧
      t.cand.get c = { hiF := 0#32, hiA := 0#32, loF := 0#32, loA := 0#32 }

/-- R175: `SHAPE c` writes the four registers of `RESULT[c]` and nothing else, each band's pair by `ShapeBand` from its
own candidate and default (R170). -/
def Obligations.ShapeWritesItsResult : Prop :=
  ∀ (c : Channel) (s : State), exec (.shape c) s = .next { s with
    seq := .idle
    status := { s.status with done := true }
    result := s.result.set c {
      freqHigh := (shapeBand s.regs (s.cand.get c).hiF (s.cand.get c).hiA s.regs.hiDefault).1
      ampHigh := (shapeBand s.regs (s.cand.get c).hiF (s.cand.get c).hiA s.regs.hiDefault).2
      freqLow := (shapeBand s.regs (s.cand.get c).loF (s.cand.get c).loA s.regs.loDefault).1
      ampLow := (shapeBand s.regs (s.cand.get c).loF (s.cand.get c).loA s.regs.loDefault).2 } }

/-- R171, R173, R174, R177: the sentinel, the gain, the ceiling with both ends inclusive, and the clamp. -/
def Obligations.ShapeBandRule : Prop :=
  ∀ (g : Regs) (f a d : Word),
    ((f = 0x00000000#32 ∨ f = 0x80000000#32) → shapeBand g f a d = (d, 0#32)) ∧
    (f ≠ 0x00000000#32 → f ≠ 0x80000000#32 →
      (shapeBand g f a d).1 = f ∧
      ∀ cap : Word,
        (isNaN f = false → (g.resLoHz.toNat * 2 ^ 149 : Int) ≤ unitsOf f →
          unitsOf f ≤ (g.resHiHz.toNat * 2 ^ 149 : Int) → cap = g.resCeil) →
        ((isNaN f = true ∨ unitsOf f < (g.resLoHz.toNat * 2 ^ 149 : Int) ∨
          (g.resHiHz.toNat * 2 ^ 149 : Int) < unitsOf f) → cap = 0x3F800000#32) →
        isNaN cap = false →
        (isNaN (mul32 a g.gain) = true → (shapeBand g f a d).2 = 0#32) ∧
        (isNaN (mul32 a g.gain) = false →
          (unitsOf (mul32 a g.gain) ≤ 0 → (shapeBand g f a d).2 = 0#32) ∧
          (0 < unitsOf (mul32 a g.gain) → unitsOf cap ≤ unitsOf (mul32 a g.gain) → (shapeBand g f a d).2 = cap) ∧
          (0 < unitsOf (mul32 a g.gain) → unitsOf (mul32 a g.gain) < unitsOf cap →
            (shapeBand g f a d).2 = mul32 a g.gain)))

/-- R176: with a legal configuration, every amplitude `SHAPE` writes is in `[+0, 1.0]` and no frequency it writes is 0,
whatever the candidates hold. -/
def Obligations.ShapedAmplitudesInRange : Prop :=
  ∀ (c : Channel) (s : State), configOk s = true → ∃ t, exec (.shape c) s = .next t ∧
    (t.result.get c).ampHigh.toNat ≤ 0x3F800000 ∧ (t.result.get c).ampLow.toNat ≤ 0x3F800000 ∧
    isZeroF (t.result.get c).freqHigh = false ∧ isZeroF (t.result.get c).freqLow = false

/-- R179: a frequency inside the resonance sub-range never carries an amplitude above `RES_CEIL`, regardless of gain and
candidate. -/
def Obligations.ResonanceNeverExceedsItsCeiling : Prop :=
  ∀ (c : Channel) (s : State), configOk s = true → ∃ t, exec (.shape c) s = .next t ∧
    (isNaN (s.cand.get c).loF = false → (s.regs.resLoHz.toNat * 2 ^ 149 : Int) ≤ unitsOf (s.cand.get c).loF →
      unitsOf (s.cand.get c).loF ≤ (s.regs.resHiHz.toNat * 2 ^ 149 : Int) →
      unitsOf (t.result.get c).ampLow ≤ unitsOf s.regs.resCeil) ∧
    (isNaN (s.cand.get c).hiF = false → (s.regs.resLoHz.toNat * 2 ^ 149 : Int) ≤ unitsOf (s.cand.get c).hiF →
      unitsOf (s.cand.get c).hiF ≤ (s.regs.resHiHz.toNat * 2 ^ 149 : Int) →
      unitsOf (t.result.get c).ampHigh ≤ unitsOf s.regs.resCeil)

/-- R176: after `SELECT c` and `SHAPE c` on an accepted configuration and length, both frequencies are positive and
finite and both amplitudes in `[+0, 1.0]`. -/
def Obligations.SelectedResultsAreParams : Prop :=
  ∀ (c : Channel) (s : State), s.params.wellFormed = true → configOk s = true → lengthOk s = true →
    ∃ t u, exec (.select c) s = .next t ∧ exec (.shape c) t = .next u ∧
      (0 < (u.result.get c).freqHigh.toNat ∧ (u.result.get c).freqHigh.toNat < 0x7F800000) ∧
      (0 < (u.result.get c).freqLow.toNat ∧ (u.result.get c).freqLow.toNat < 0x7F800000) ∧
      (u.result.get c).ampHigh.toNat ≤ 0x3F800000 ∧ (u.result.get c).ampLow.toNat ≤ 0x3F800000

/-- R185, R189: `ANALYZE` completes in every state, leaves every byte outside the bins of the declared channels and
every candidate and result of an undeclared channel as they were, and with `CHANNELS = 1` gives channel 0 what the
three stages give it. -/
def Obligations.AnalyzeWritesDeclaredChannels : Prop :=
  ∀ s : State, ∃ t, exec .analyze s = .next t ∧
    t = { s with
      seq := .idle, status := { s.status with done := true }, mem := t.mem, cand := t.cand, result := t.result } ∧
    (∀ c : Channel, s.regs.channels.toNat ≤ c.index → t.cand.get c = s.cand.get c ∧ t.result.get c = s.result.get c) ∧
    (∀ a, (∀ c : Channel, c.index < s.regs.channels.toNat →
        a < specAddr c 0 ∨ specAddr c (s.regs.len.toNat / 2) ≤ a) → readByte t a = readByte s a) ∧
    (s.regs.channels = 1#32 → t = complete (shapeStage .ch0 (selectStage .ch0 (spectrumStage .ch0 s))))

/-- R186: from an idle engine with a legal configuration and length, one `ANALYZE` leaves in the RAMs, candidates,
results and `STATUS` what `SPECTRUM`, `SELECT` and `SHAPE`, run in that order for each declared channel, leave. -/
def Obligations.AnalyzeEqualsTheStages : Prop :=
  ∀ s : State, s.seq = .idle → configOk s = true → lengthOk s = true →
    ∃ t u,
      Host.Core.run Sys2Proof.core 2 { s with pending := cmdProgram .analyze ++ [.engineTurn] } = .next t ∧
      Host.Core.run Sys2Proof.core (6 * s.regs.channels.toNat) { s with
        pending := (declaredChannels s).flatMap fun c =>
          cmdProgram (.spectrum c) ++ [.engineTurn] ++ cmdProgram (.select c) ++ [.engineTurn] ++
            cmdProgram (.shape c) ++ [.engineTurn] } = .next u ∧
      t.seq = .idle ∧ u.seq = .idle ∧ t.mem = u.mem ∧ t.cand = u.cand ∧ t.result = u.result ∧ t.regs = u.regs ∧
      t.status = u.status ∧ t.ctrl = u.ctrl

/-- R190: on a silent window (`NORM = 0`, or every sample of the declared lanes 0) and a legal configuration and length,
`ANALYZE` gives every declared channel the default frequencies with amplitude +0, in both modes. -/
def Obligations.SilentWindowGivesTheDefaults : Prop :=
  ∀ s : State, s.params.wellFormed = true → configOk s = true → lengthOk s = true →
    (s.regs.norm = 0#32 ∨ ∀ c : Channel, c.index < s.regs.channels.toNat →
      ∀ i < s.regs.len.toNat, readHalf s (pcmAddr (i * s.regs.channels.toNat + c.index)) = 0#16) →
    ∃ t, exec .analyze s = .next t ∧ ∀ c : Channel, c.index < s.regs.channels.toNat →
      t.result.get c = {
        freqHigh := s.regs.hiDefault, ampHigh := 0#32, freqLow := s.regs.loDefault, ampLow := 0#32 }

/-- R188: the order of the channels is not observable: both orders leave the same state, when the RAM is canonical and
the windows and bins lie inside the RAMs. -/
def Obligations.ChannelOrderIsNotObservable : Prop :=
  ∀ s : State, s.params.wellFormed = true → Memory.wf s.params.nMax s.mem = true → configOk s = true →
    lengthOk s = true →
    analyzeChannel (analyzeChannel s .ch0) .ch1 = analyzeChannel (analyzeChannel s .ch1) .ch0

/-! ### The machine -/

/-- R113: a step of the engine agent runs the decoded command in flight: it is `exec` of it, on the state without the
event that gave the agent its turn. That the step of an empty script is the agent's is the model's choice (log 13),
and so is what `withFetchWord` places (log 12). -/
def Obligations.StepRunsTheDecodedCommand : Prop :=
  ∀ (s : State) (w : Word) (i : Instr), s.seq = .busy w → decode w = .ok i →
    (s.pending = [] → step s = exec i s) ∧
    (∀ rest, s.pending = .engineTurn :: rest → step s = exec i { s with pending := rest }) ∧
    ∀ (u : State), step (u.withFetchWord 32 w.toNat) = exec i { u with seq := .busy w }

/-- The invariant holds right after reset. -/
def Obligations.ResetMeetsTheInvariant : Prop := State.reset.Inv

/-- Every step keeps the invariant: legal parameters, canonical RAM inside the RAMs, a `STATUS` that can occur, an
accepted command in flight or none, and result amplitudes in `[+0, 1.0]`. -/
def Obligations.StepKeepsTheInvariant : Prop :=
  ∀ s t : State, s.Inv → step s = .next t → t.Inv

/-- R117, R206: in a state that meets the invariant, no step stops. -/
def Obligations.NoStepStops : Prop := ∀ s : State, s.Inv → ∃ t, step s = .next t

/-- Whatever the parameters are, whatever the host does and however the agents interleave, no run from reset stops, and
every state on it meets the invariant. -/
def Obligations.EveryRunFromResetIsSafe : Prop :=
  ∀ (p : Params) (events : List Event) (k : Nat), p.wellFormed = true → ∃ t,
    Host.Core.run Sys2Proof.core k { State.reset with params := p, pending := events } = .next t ∧ t.Inv

/-- R67, R207: whatever the host does between acceptance and completion, short of a soft reset, the command in flight
reads the same inputs and leaves the same RAM, registers, candidates and results. -/
def Obligations.BusyTrafficCannotChangeTheCommand : Prop :=
  ∀ (s : State) (w : Word) (i : Instr) (traffic : List Txn), s.seq = .busy w → decode w = .ok i →
    (∀ x ∈ traffic, noSoftReset s.params x = true) →
    ∃ t u,
      Host.Core.run Sys2Proof.core (traffic.length + 1)
        { s with pending := traffic.map Event.host ++ [.engineTurn] } = .next t ∧
      Host.Core.run Sys2Proof.core 1 { s with pending := [.engineTurn] } = .next u ∧
      t.seq = u.seq ∧ t.mem = u.mem ∧ t.ramEpoch = u.ramEpoch ∧ t.regs = u.regs ∧ t.cand = u.cand ∧ t.result = u.result

/-- R43, R175: only the completion of `SHAPE` or `ANALYZE`, and a reset, change a result register; no host write does.
-/
def Obligations.OnlyShapeAndAnalyzeWriteResults : Prop :=
  ∀ s t : State, step s = .next t → t.result ≠ s.result →
    (∃ rest, s.pending = .hardReset :: rest) ∨
    (∃ a v rest, portOffset s.params a = 0x004 ∧ v.getLsbD 31 = true ∧ s.pending = wr a v :: rest) ∨
    ∃ w, s.seq = .busy w ∧ (s.pending = [] ∨ ∃ rest, s.pending = .engineTurn :: rest) ∧
      (decode w = .ok .analyze ∨ ∃ c, decode w = .ok (.shape c))

/-- R75, R191: for one or two channels and a window that fits the engine, the host's stream procedure is its
configuration followed by `ceil(L/W)` steps, one `ANALYZE` in each; step `m` has `n = W`, the last one the rest of the
frames; and from an idle engine the writes of step `m` leave `PCM[t·C + c]` with sample `c` of frame `m·W + t`, for
every `t < n` and `c < C`, and `LEN = n`. Where the engine finds the configuration illegal (`require` fails, or `W` is
0 or above `N_MAX` and the buffer holds a frame), the procedure ends in ConfigurationError; which transactions those
scripts hold is the model's choice (log 20), and so is the script of one interleaving for each number of polls (log
18). -/
def Obligations.StreamLoadsAndAnalyzesEachWindow : Prop :=
  ∀ (nMax : Nat) (buf : List Byte) (c sr p : Word) (polls : Nat → Nat), nMax ≤ 16384 →
    ((c = 1#32 ∨ c = 2#32) → 1 ≤ roundHe (sr.toNat * p.toNat) 1000 → roundHe (sr.toNat * p.toNat) 1000 ≤ nMax →
      ∀ (raw : List Half) (frames w steps : Nat), raw = samplesOfBytes buf → frames = raw.length / c.toNat →
        w = roundHe (sr.toNat * p.toNat) 1000 → steps = (frames + w - 1) / w →
        hostStream nMax buf c sr p polls =
          streamConfig raw c sr p ++
            (List.range steps).flatMap (fun m =>
              streamLoad nMax raw c.toNat w m ++ cmdProgram .analyze ++ waitProgram (polls m) ++
                emitProgram c.toNat) ∧
        ((hostStream nMax buf c sr p polls).filter (fun e => decide (e = wr 0x00C 0x00000001#32))).length = steps ∧
        ∀ m < steps,
          streamLen frames w m = (if m + 1 < steps then w else frames - (steps - 1) * w) ∧
          ∀ (s : State) (rest : List Event), s.seq = .idle → s.params.nMax = nMax →
            ∃ t, Host.Core.run Sys2Proof.core (streamLoad nMax raw c.toNat w m).length
                { s with pending := streamLoad nMax raw c.toNat w m ++ rest } = .next t ∧
              t.seq = .idle ∧ t.pending = rest ∧ t.regs.len.toNat = streamLen frames w m ∧
              ∀ (i : Nat) (ch : Channel), i < streamLen frames w m → ch.index < c.toNat →
                readHalf t (pcmAddr (i * c.toNat + ch.index)) = raw.getD ((m * w + i) * c.toNat + ch.index) 0#16) ∧
    ((c ≠ 1#32 ∧ c ≠ 2#32) ∨ sr = 0#32 ∨ p = 0#32 ∨
        ((roundHe (sr.toNat * p.toNat) 1000 = 0 ∨ nMax < roundHe (sr.toNat * p.toNat) 1000) ∧
          c.toNat ≤ (samplesOfBytes buf).length) →
      ∀ s : State, s.seq = .idle → s.params.nMax = nMax →
        ∃ t, Host.Core.run Sys2Proof.core (hostStream nMax buf c sr p polls).length
            { s with pending := hostStream nMax buf c sr p polls } = .next t ∧
          t.seq = .idle ∧ t.status = { done := true, err := true, errCode := 1#4 })
end

