-- ==== Sys2Proof/Laws/Binary32.lean ====
section
/-! SUPPORT. Encodings order as values do; what rounding, the product and the clamp can give. -/

namespace Sys2Proof.Machine

/-! ### Encodings -/

theorem encUnits_lt_succ (e : Nat) : encUnits e < encUnits (e + 1) := by
  unfold encUnits
  by_cases h : e % 2 ^ 23 + 1 < 2 ^ 23
  · have hd : (e + 1) / 2 ^ 23 = e / 2 ^ 23 := by omega
    have hm : (e + 1) % 2 ^ 23 = e % 2 ^ 23 + 1 := by omega
    rw [hd, hm]
    split
    · omega
    · exact Nat.mul_lt_mul_of_pos_right (by omega) (by positivity)
  · have hd : (e + 1) / 2 ^ 23 = e / 2 ^ 23 + 1 := by omega
    have hm : (e + 1) % 2 ^ 23 = 0 := by omega
    rw [hd, hm, if_neg (Nat.succ_ne_zero (e / 2 ^ 23))]
    split
    · next h0 => rw [h0]; omega
    · next h0 =>
      obtain ⟨x, hx⟩ := Nat.exists_eq_succ_of_ne_zero h0
      rw [hx, Nat.add_sub_cancel, Nat.succ_sub_one, Nat.pow_succ 2 x, Nat.mul_comm (2 ^ x) 2, ← Nat.mul_assoc]
      have : e % 2 ^ 23 < 2 ^ 23 := Nat.mod_lt _ (by positivity)
      exact Nat.mul_lt_mul_of_pos_right (by omega) (Nat.two_pow_pos x)

theorem encUnits_strictMono : StrictMono encUnits := strictMono_nat_of_lt_succ encUnits_lt_succ

@[simp] theorem encUnits_le_iff {a b : Nat} : encUnits a ≤ encUnits b ↔ a ≤ b := encUnits_strictMono.le_iff_le

@[simp] theorem encUnits_lt_iff {a b : Nat} : encUnits a < encUnits b ↔ a < b := encUnits_strictMono.lt_iff_lt

@[simp] theorem encUnits_zero : encUnits 0 = 0 := by decide

theorem encUnits_pos {e : Nat} : 0 < encUnits e ↔ 0 < e := by
  rw [← encUnits_lt_iff (a := 0) (b := e), encUnits_zero]

/-! ### Words -/

theorem signBit_eq (w : Word) : signBit w = decide (2 ^ 31 ≤ w.toNat) := by
  have h : signBit w = w.msb := rfl
  rw [h, BitVec.msb_eq_decide]

theorem magBits_eq_of_nonneg {w : Word} (h : signBit w = false) : magBits w = w.toNat := by
  rw [signBit_eq, decide_eq_false_iff_not] at h
  exact Nat.mod_eq_of_lt (by omega)

/-- A positive value has no sign, and its encoding is that of a non-NaN. -/
theorem posF_iff (w : Word) : posF w = true ↔ 0 < w.toNat ∧ w.toNat ≤ infBits := by
  have hlt := w.isLt
  cases hs : signBit w with
  | false =>
    have hm := magBits_eq_of_nonneg hs
    simp only [posF, isNaN, unitsOf, hs, hm, Bool.false_eq_true, if_false, Bool.and_eq_true, Bool.not_eq_true',
      decide_eq_false_iff_not, decide_eq_true_eq, Nat.cast_pos, encUnits_pos, Nat.not_lt]
    exact and_comm
  | true =>
    rw [signBit_eq, decide_eq_true_eq] at hs
    have hs' : signBit w = true := by rw [signBit_eq]; exact decide_eq_true hs
    simp only [posF, unitsOf, hs', if_true, Bool.and_eq_true, decide_eq_true_eq, infBits]
    omega

theorem isZeroF_iff (w : Word) : isZeroF w = true ↔ w = 0x00000000#32 ∨ w = 0x80000000#32 := by
  have hlt := w.isLt
  simp only [isZeroF, magBits, beq_iff_eq, ← BitVec.toNat_inj, BitVec.toNat_ofNat]
  omega

theorem unitsOf_nonneg_word {w : Word} (h : signBit w = false) : unitsOf w = encUnits w.toNat := by
  rw [unitsOf, h, magBits_eq_of_nonneg h]; rfl

/-! ### Rounding -/

theorem floorBits_le (cmp : Nat → Ordering) (i e : Nat) (h : e ≤ maxFiniteBits) : floorBits cmp i e ≤ maxFiniteBits := by
  induction i generalizing e with
  | zero => exact h
  | succ i ih =>
    rw [floorBits]
    split
    · next hc => exact ih _ hc.1
    · exact ih _ h

theorem rneBits_le (cmp : Nat → Ordering) : rneBits cmp ≤ infBits := by
  have h := floorBits_le cmp 31 0 (Nat.zero_le _)
  simp only [maxFiniteBits] at h
  unfold rneBits infBits
  split
  · omega
  · omega
  · split <;> omega

theorem rneRat_toNat (p q : Nat) : (rneRat p q).toNat = rneBits (fun u => compare (p * 2 ^ 150) (u * q)) := by
  have h := rneBits_le (fun u => compare (p * 2 ^ 150) (u * q))
  rw [rneRat, BitVec.toNat_ofNat, Nat.mod_eq_of_lt (by simp only [infBits] at h; omega)]

theorem rneRat_le (p q : Nat) : (rneRat p q).toNat ≤ infBits := by
  rw [rneRat_toNat]; exact rneBits_le _

/-! ### Shaping -/

/-- What the clamp can give: +0, the ceiling, or a value strictly between. -/
theorem clamp_cases (p cap : Word) :
    clamp p cap = 0#32 ∨ clamp p cap = cap ∨
      (clamp p cap = p ∧ isNaN p = false ∧ leF p 0#32 = false ∧ leF cap p = false) := by
  unfold clamp
  split
  · exact .inl rfl
  · next hn =>
    split
    · exact .inl rfl
    · next h0 =>
      split
      · exact .inr (.inl rfl)
      · next hc => exact .inr (.inr ⟨rfl, by simpa using hn, by simpa using h0, by simpa using hc⟩)

/-- A ceiling in `[+0, 1.0]` keeps the clamped value there. -/
theorem clamp_le {p cap : Word} (h : cap.toNat ≤ oneF.toNat) : (clamp p cap).toNat ≤ cap.toNat := by
  rcases clamp_cases p cap with e | e | ⟨e, hn, h0, hc⟩
  · rw [e]; exact Nat.zero_le _
  · rw [e]
  · rw [e]
    have h1 : oneF.toNat = 0x3F800000 := rfl
    have hcs : signBit cap = false := by rw [signBit_eq]; exact decide_eq_false (by omega)
    have hcn : isNaN cap = false := by
      rw [isNaN, magBits_eq_of_nonneg hcs]; exact decide_eq_false (by simp only [infBits]; omega)
    have hz : isNaN 0#32 = false := by decide
    have hu : unitsOf 0#32 = 0 := by decide
    simp only [leF, hn, hz, hu, Bool.not_false, Bool.true_and, decide_eq_false_iff_not, not_le] at h0
    simp only [leF, hn, hcn, Bool.not_false, Bool.true_and, decide_eq_false_iff_not, not_le] at hc
    have hps : signBit p = false := by
      cases hs : signBit p with
      | false => rfl
      | true => rw [unitsOf, hs, if_pos rfl] at h0; omega
    rw [unitsOf_nonneg_word hps, unitsOf_nonneg_word hcs, Nat.cast_lt, encUnits_lt_iff] at hc
    exact hc.le

end Sys2Proof.Machine
end

