-- ==== Sys2Proof/Laws/State.lean ====
section
/-! SUPPORT. What each named update of the state does to each field, and the accessors of lanes and register files. -/

namespace Sys2Proof.Machine

variable (s : State)

/-! `accept` -/

@[simp] theorem accept_params (w : Word) : (accept w s).params = s.params := rfl
@[simp] theorem accept_seq (w : Word) : (accept w s).seq = .busy w := rfl
@[simp] theorem accept_ctrl (w : Word) : (accept w s).ctrl = s.ctrl := rfl
@[simp] theorem accept_status (w : Word) : (accept w s).status = { s.status with done := false } := rfl
@[simp] theorem accept_regs (w : Word) : (accept w s).regs = s.regs := rfl
@[simp] theorem accept_cand (w : Word) : (accept w s).cand = s.cand := rfl
@[simp] theorem accept_result (w : Word) : (accept w s).result = s.result := rfl
@[simp] theorem accept_mem (w : Word) : (accept w s).mem = s.mem := rfl
@[simp] theorem accept_ramEpoch (w : Word) : (accept w s).ramEpoch = s.ramEpoch := rfl
@[simp] theorem accept_draws (w : Word) : (accept w s).draws = s.draws := rfl
@[simp] theorem accept_pending (w : Word) : (accept w s).pending = s.pending := rfl
@[simp] theorem accept_responses (w : Word) : (accept w s).responses = s.responses := rfl

/-! `complete` -/

@[simp] theorem complete_params : (complete s).params = s.params := rfl
@[simp] theorem complete_seq : (complete s).seq = .idle := rfl
@[simp] theorem complete_ctrl : (complete s).ctrl = s.ctrl := rfl
@[simp] theorem complete_status : (complete s).status = { s.status with done := true } := rfl
@[simp] theorem complete_regs : (complete s).regs = s.regs := rfl
@[simp] theorem complete_cand : (complete s).cand = s.cand := rfl
@[simp] theorem complete_result : (complete s).result = s.result := rfl
@[simp] theorem complete_mem : (complete s).mem = s.mem := rfl
@[simp] theorem complete_ramEpoch : (complete s).ramEpoch = s.ramEpoch := rfl
@[simp] theorem complete_draws : (complete s).draws = s.draws := rfl
@[simp] theorem complete_pending : (complete s).pending = s.pending := rfl
@[simp] theorem complete_responses : (complete s).responses = s.responses := rfl

/-! `reject` -/

@[simp] theorem reject_params (e : CmdError) : (reject e s).params = s.params := rfl
@[simp] theorem reject_seq (e : CmdError) : (reject e s).seq = s.seq := rfl
@[simp] theorem reject_ctrl (e : CmdError) : (reject e s).ctrl = s.ctrl := rfl
@[simp] theorem reject_status (e : CmdError) : (reject e s).status = { done := true, err := true, errCode := errorCode e } := rfl
@[simp] theorem reject_regs (e : CmdError) : (reject e s).regs = s.regs := rfl
@[simp] theorem reject_cand (e : CmdError) : (reject e s).cand = s.cand := rfl
@[simp] theorem reject_result (e : CmdError) : (reject e s).result = s.result := rfl
@[simp] theorem reject_mem (e : CmdError) : (reject e s).mem = s.mem := rfl
@[simp] theorem reject_ramEpoch (e : CmdError) : (reject e s).ramEpoch = s.ramEpoch := rfl
@[simp] theorem reject_draws (e : CmdError) : (reject e s).draws = s.draws := rfl
@[simp] theorem reject_pending (e : CmdError) : (reject e s).pending = s.pending := rfl
@[simp] theorem reject_responses (e : CmdError) : (reject e s).responses = s.responses := rfl

/-! `busyWrite` -/

@[simp] theorem busyWrite_params : (busyWrite s).params = s.params := rfl
@[simp] theorem busyWrite_seq : (busyWrite s).seq = s.seq := rfl
@[simp] theorem busyWrite_ctrl : (busyWrite s).ctrl = s.ctrl := rfl
@[simp] theorem busyWrite_status : (busyWrite s).status = { s.status with err := true, errCode := 5#4 } := rfl
@[simp] theorem busyWrite_regs : (busyWrite s).regs = s.regs := rfl
@[simp] theorem busyWrite_cand : (busyWrite s).cand = s.cand := rfl
@[simp] theorem busyWrite_result : (busyWrite s).result = s.result := rfl
@[simp] theorem busyWrite_mem : (busyWrite s).mem = s.mem := rfl
@[simp] theorem busyWrite_ramEpoch : (busyWrite s).ramEpoch = s.ramEpoch := rfl
@[simp] theorem busyWrite_draws : (busyWrite s).draws = s.draws := rfl
@[simp] theorem busyWrite_pending : (busyWrite s).pending = s.pending := rfl
@[simp] theorem busyWrite_responses : (busyWrite s).responses = s.responses := rfl

/-! `clearError` -/

@[simp] theorem clearError_params : (clearError s).params = s.params := rfl
@[simp] theorem clearError_seq : (clearError s).seq = s.seq := rfl
@[simp] theorem clearError_ctrl : (clearError s).ctrl = s.ctrl := rfl
@[simp] theorem clearError_status : (clearError s).status = { s.status with err := false, errCode := 0#4 } := rfl
@[simp] theorem clearError_regs : (clearError s).regs = s.regs := rfl
@[simp] theorem clearError_cand : (clearError s).cand = s.cand := rfl
@[simp] theorem clearError_result : (clearError s).result = s.result := rfl
@[simp] theorem clearError_mem : (clearError s).mem = s.mem := rfl
@[simp] theorem clearError_ramEpoch : (clearError s).ramEpoch = s.ramEpoch := rfl
@[simp] theorem clearError_draws : (clearError s).draws = s.draws := rfl
@[simp] theorem clearError_pending : (clearError s).pending = s.pending := rfl
@[simp] theorem clearError_responses : (clearError s).responses = s.responses := rfl

/-! `clearDone` -/

@[simp] theorem clearDone_params : (clearDone s).params = s.params := rfl
@[simp] theorem clearDone_seq : (clearDone s).seq = s.seq := rfl
@[simp] theorem clearDone_ctrl : (clearDone s).ctrl = s.ctrl := rfl
@[simp] theorem clearDone_status : (clearDone s).status = { s.status with done := false } := rfl
@[simp] theorem clearDone_regs : (clearDone s).regs = s.regs := rfl
@[simp] theorem clearDone_cand : (clearDone s).cand = s.cand := rfl
@[simp] theorem clearDone_result : (clearDone s).result = s.result := rfl
@[simp] theorem clearDone_mem : (clearDone s).mem = s.mem := rfl
@[simp] theorem clearDone_ramEpoch : (clearDone s).ramEpoch = s.ramEpoch := rfl
@[simp] theorem clearDone_draws : (clearDone s).draws = s.draws := rfl
@[simp] theorem clearDone_pending : (clearDone s).pending = s.pending := rfl
@[simp] theorem clearDone_responses : (clearDone s).responses = s.responses := rfl

/-! `softReset` -/

@[simp] theorem softReset_params : (softReset s).params = s.params := rfl
@[simp] theorem softReset_seq : (softReset s).seq = .idle := rfl
@[simp] theorem softReset_ctrl : (softReset s).ctrl = State.reset.ctrl := rfl
@[simp] theorem softReset_status : (softReset s).status = State.reset.status := rfl
@[simp] theorem softReset_regs : (softReset s).regs = Regs.reset := rfl
@[simp] theorem softReset_cand : (softReset s).cand = State.reset.cand := rfl
@[simp] theorem softReset_result : (softReset s).result = State.reset.result := rfl
@[simp] theorem softReset_mem : (softReset s).mem = s.mem := rfl
@[simp] theorem softReset_ramEpoch : (softReset s).ramEpoch = s.ramEpoch := rfl
@[simp] theorem softReset_draws : (softReset s).draws = s.draws := rfl
@[simp] theorem softReset_pending : (softReset s).pending = s.pending := rfl
@[simp] theorem softReset_responses : (softReset s).responses = s.responses := rfl

/-! `hardReset` -/

@[simp] theorem hardReset_params : (hardReset s).params = s.params := rfl
@[simp] theorem hardReset_seq : (hardReset s).seq = .idle := rfl
@[simp] theorem hardReset_ctrl : (hardReset s).ctrl = State.reset.ctrl := rfl
@[simp] theorem hardReset_status : (hardReset s).status = State.reset.status := rfl
@[simp] theorem hardReset_regs : (hardReset s).regs = Regs.reset := rfl
@[simp] theorem hardReset_cand : (hardReset s).cand = State.reset.cand := rfl
@[simp] theorem hardReset_result : (hardReset s).result = State.reset.result := rfl
@[simp] theorem hardReset_mem : (hardReset s).mem = [] := rfl
@[simp] theorem hardReset_ramEpoch : (hardReset s).ramEpoch = s.ramEpoch + 1 := rfl
@[simp] theorem hardReset_draws : (hardReset s).draws = s.draws := rfl
@[simp] theorem hardReset_pending : (hardReset s).pending = s.pending := rfl
@[simp] theorem hardReset_responses : (hardReset s).responses = s.responses := rfl

/-! `respond` -/

@[simp] theorem respond_params (r : Response) : (respond r s).params = s.params := rfl
@[simp] theorem respond_seq (r : Response) : (respond r s).seq = s.seq := rfl
@[simp] theorem respond_ctrl (r : Response) : (respond r s).ctrl = s.ctrl := rfl
@[simp] theorem respond_status (r : Response) : (respond r s).status = s.status := rfl
@[simp] theorem respond_regs (r : Response) : (respond r s).regs = s.regs := rfl
@[simp] theorem respond_cand (r : Response) : (respond r s).cand = s.cand := rfl
@[simp] theorem respond_result (r : Response) : (respond r s).result = s.result := rfl
@[simp] theorem respond_mem (r : Response) : (respond r s).mem = s.mem := rfl
@[simp] theorem respond_ramEpoch (r : Response) : (respond r s).ramEpoch = s.ramEpoch := rfl
@[simp] theorem respond_draws (r : Response) : (respond r s).draws = s.draws := rfl
@[simp] theorem respond_pending (r : Response) : (respond r s).pending = s.pending := rfl
@[simp] theorem respond_responses (r : Response) : (respond r s).responses = r :: s.responses := rfl

/-! `respondDraw` -/

@[simp] theorem respondDraw_params (r : Resp) : (respondDraw r s).params = s.params := rfl
@[simp] theorem respondDraw_seq (r : Resp) : (respondDraw r s).seq = s.seq := rfl
@[simp] theorem respondDraw_ctrl (r : Resp) : (respondDraw r s).ctrl = s.ctrl := rfl
@[simp] theorem respondDraw_status (r : Resp) : (respondDraw r s).status = s.status := rfl
@[simp] theorem respondDraw_regs (r : Resp) : (respondDraw r s).regs = s.regs := rfl
@[simp] theorem respondDraw_cand (r : Resp) : (respondDraw r s).cand = s.cand := rfl
@[simp] theorem respondDraw_result (r : Resp) : (respondDraw r s).result = s.result := rfl
@[simp] theorem respondDraw_mem (r : Resp) : (respondDraw r s).mem = s.mem := rfl
@[simp] theorem respondDraw_ramEpoch (r : Resp) : (respondDraw r s).ramEpoch = s.ramEpoch := rfl
@[simp] theorem respondDraw_draws (r : Resp) : (respondDraw r s).draws = s.draws + 1 := rfl
@[simp] theorem respondDraw_pending (r : Resp) : (respondDraw r s).pending = s.pending := rfl
@[simp] theorem respondDraw_responses (r : Resp) : (respondDraw r s).responses = { rdata := some (Config.freeRead s.draws), resp := r } :: s.responses := rfl

/-! `writeWord` -/

@[simp] theorem writeWord_params (a : Nat) (w : Word) : (writeWord s a w).params = s.params := rfl
@[simp] theorem writeWord_seq (a : Nat) (w : Word) : (writeWord s a w).seq = s.seq := rfl
@[simp] theorem writeWord_ctrl (a : Nat) (w : Word) : (writeWord s a w).ctrl = s.ctrl := rfl
@[simp] theorem writeWord_status (a : Nat) (w : Word) : (writeWord s a w).status = s.status := rfl
@[simp] theorem writeWord_regs (a : Nat) (w : Word) : (writeWord s a w).regs = s.regs := rfl
@[simp] theorem writeWord_cand (a : Nat) (w : Word) : (writeWord s a w).cand = s.cand := rfl
@[simp] theorem writeWord_result (a : Nat) (w : Word) : (writeWord s a w).result = s.result := rfl
@[simp] theorem writeWord_mem (a : Nat) (w : Word) : (writeWord s a w).mem = putWord s.mem a w := rfl
@[simp] theorem writeWord_ramEpoch (a : Nat) (w : Word) : (writeWord s a w).ramEpoch = s.ramEpoch := rfl
@[simp] theorem writeWord_draws (a : Nat) (w : Word) : (writeWord s a w).draws = s.draws := rfl
@[simp] theorem writeWord_pending (a : Nat) (w : Word) : (writeWord s a w).pending = s.pending := rfl
@[simp] theorem writeWord_responses (a : Nat) (w : Word) : (writeWord s a w).responses = s.responses := rfl

/-! `setCand` -/

@[simp] theorem setCand_params (c : Channel) (d : Cand) : (setCand s c d).params = s.params := rfl
@[simp] theorem setCand_seq (c : Channel) (d : Cand) : (setCand s c d).seq = s.seq := rfl
@[simp] theorem setCand_ctrl (c : Channel) (d : Cand) : (setCand s c d).ctrl = s.ctrl := rfl
@[simp] theorem setCand_status (c : Channel) (d : Cand) : (setCand s c d).status = s.status := rfl
@[simp] theorem setCand_regs (c : Channel) (d : Cand) : (setCand s c d).regs = s.regs := rfl
@[simp] theorem setCand_cand (c : Channel) (d : Cand) : (setCand s c d).cand = s.cand.set c d := rfl
@[simp] theorem setCand_result (c : Channel) (d : Cand) : (setCand s c d).result = s.result := rfl
@[simp] theorem setCand_mem (c : Channel) (d : Cand) : (setCand s c d).mem = s.mem := rfl
@[simp] theorem setCand_ramEpoch (c : Channel) (d : Cand) : (setCand s c d).ramEpoch = s.ramEpoch := rfl
@[simp] theorem setCand_draws (c : Channel) (d : Cand) : (setCand s c d).draws = s.draws := rfl
@[simp] theorem setCand_pending (c : Channel) (d : Cand) : (setCand s c d).pending = s.pending := rfl
@[simp] theorem setCand_responses (c : Channel) (d : Cand) : (setCand s c d).responses = s.responses := rfl

/-! `setResult` -/

@[simp] theorem setResult_params (c : Channel) (p : RumbleParams) : (setResult s c p).params = s.params := rfl
@[simp] theorem setResult_seq (c : Channel) (p : RumbleParams) : (setResult s c p).seq = s.seq := rfl
@[simp] theorem setResult_ctrl (c : Channel) (p : RumbleParams) : (setResult s c p).ctrl = s.ctrl := rfl
@[simp] theorem setResult_status (c : Channel) (p : RumbleParams) : (setResult s c p).status = s.status := rfl
@[simp] theorem setResult_regs (c : Channel) (p : RumbleParams) : (setResult s c p).regs = s.regs := rfl
@[simp] theorem setResult_cand (c : Channel) (p : RumbleParams) : (setResult s c p).cand = s.cand := rfl
@[simp] theorem setResult_result (c : Channel) (p : RumbleParams) : (setResult s c p).result = s.result.set c p := rfl
@[simp] theorem setResult_mem (c : Channel) (p : RumbleParams) : (setResult s c p).mem = s.mem := rfl
@[simp] theorem setResult_ramEpoch (c : Channel) (p : RumbleParams) : (setResult s c p).ramEpoch = s.ramEpoch := rfl
@[simp] theorem setResult_draws (c : Channel) (p : RumbleParams) : (setResult s c p).draws = s.draws := rfl
@[simp] theorem setResult_pending (c : Channel) (p : RumbleParams) : (setResult s c p).pending = s.pending := rfl
@[simp] theorem setResult_responses (c : Channel) (p : RumbleParams) : (setResult s c p).responses = s.responses := rfl

/-! `spectrumStage` -/

@[simp] theorem spectrumStage_params (c : Channel) : (spectrumStage c s).params = s.params := rfl
@[simp] theorem spectrumStage_seq (c : Channel) : (spectrumStage c s).seq = s.seq := rfl
@[simp] theorem spectrumStage_ctrl (c : Channel) : (spectrumStage c s).ctrl = s.ctrl := rfl
@[simp] theorem spectrumStage_status (c : Channel) : (spectrumStage c s).status = s.status := rfl
@[simp] theorem spectrumStage_regs (c : Channel) : (spectrumStage c s).regs = s.regs := rfl
@[simp] theorem spectrumStage_cand (c : Channel) : (spectrumStage c s).cand = s.cand := rfl
@[simp] theorem spectrumStage_result (c : Channel) : (spectrumStage c s).result = s.result := rfl
@[simp] theorem spectrumStage_mem (c : Channel) : (spectrumStage c s).mem = putBins c 0 (spectrumBins s c) s.mem := rfl
@[simp] theorem spectrumStage_ramEpoch (c : Channel) : (spectrumStage c s).ramEpoch = s.ramEpoch := rfl
@[simp] theorem spectrumStage_draws (c : Channel) : (spectrumStage c s).draws = s.draws := rfl
@[simp] theorem spectrumStage_pending (c : Channel) : (spectrumStage c s).pending = s.pending := rfl
@[simp] theorem spectrumStage_responses (c : Channel) : (spectrumStage c s).responses = s.responses := rfl

/-! `selectStage` -/

@[simp] theorem selectStage_params (c : Channel) : (selectStage c s).params = s.params := rfl
@[simp] theorem selectStage_seq (c : Channel) : (selectStage c s).seq = s.seq := rfl
@[simp] theorem selectStage_ctrl (c : Channel) : (selectStage c s).ctrl = s.ctrl := rfl
@[simp] theorem selectStage_status (c : Channel) : (selectStage c s).status = s.status := rfl
@[simp] theorem selectStage_regs (c : Channel) : (selectStage c s).regs = s.regs := rfl
@[simp] theorem selectStage_cand (c : Channel) : (selectStage c s).cand = s.cand.set c (selectBands s c) := rfl
@[simp] theorem selectStage_result (c : Channel) : (selectStage c s).result = s.result := rfl
@[simp] theorem selectStage_mem (c : Channel) : (selectStage c s).mem = s.mem := rfl
@[simp] theorem selectStage_ramEpoch (c : Channel) : (selectStage c s).ramEpoch = s.ramEpoch := rfl
@[simp] theorem selectStage_draws (c : Channel) : (selectStage c s).draws = s.draws := rfl
@[simp] theorem selectStage_pending (c : Channel) : (selectStage c s).pending = s.pending := rfl
@[simp] theorem selectStage_responses (c : Channel) : (selectStage c s).responses = s.responses := rfl

/-! `shapeStage` -/

@[simp] theorem shapeStage_params (c : Channel) : (shapeStage c s).params = s.params := rfl
@[simp] theorem shapeStage_seq (c : Channel) : (shapeStage c s).seq = s.seq := rfl
@[simp] theorem shapeStage_ctrl (c : Channel) : (shapeStage c s).ctrl = s.ctrl := rfl
@[simp] theorem shapeStage_status (c : Channel) : (shapeStage c s).status = s.status := rfl
@[simp] theorem shapeStage_regs (c : Channel) : (shapeStage c s).regs = s.regs := rfl
@[simp] theorem shapeStage_cand (c : Channel) : (shapeStage c s).cand = s.cand := rfl
@[simp] theorem shapeStage_result (c : Channel) : (shapeStage c s).result = s.result.set c (shapeBands s.regs (s.cand.get c)) := rfl
@[simp] theorem shapeStage_mem (c : Channel) : (shapeStage c s).mem = s.mem := rfl
@[simp] theorem shapeStage_ramEpoch (c : Channel) : (shapeStage c s).ramEpoch = s.ramEpoch := rfl
@[simp] theorem shapeStage_draws (c : Channel) : (shapeStage c s).draws = s.draws := rfl
@[simp] theorem shapeStage_pending (c : Channel) : (shapeStage c s).pending = s.pending := rfl
@[simp] theorem shapeStage_responses (c : Channel) : (shapeStage c s).responses = s.responses := rfl

/-! Lanes and register files -/

@[simp] theorem lanes_get_set_same {α : Type} (l : Lanes α) (c : Channel) (v : α) : (l.set c v).get c = v := by
  cases c <;> rfl

theorem lanes_get_set_other {α : Type} (l : Lanes α) {c d : Channel} (h : d ≠ c) (v : α) :
    (l.set c v).get d = l.get d := by
  cases c <;> cases d <;> first | rfl | exact absurd rfl h

@[simp] theorem regs_get_set_same (g : Regs) (r : CfgReg) (v : Word) : (g.set r v).get r = v := by
  cases r <;> rfl

theorem regs_get_set_other (g : Regs) {r q : CfgReg} (h : q ≠ r) (v : Word) : (g.set r v).get q = g.get q := by
  cases r <;> cases q <;> first | rfl | exact absurd rfl h

@[simp] theorem cand_get_set_same (d : Cand) (f : CandField) (v : Word) : (d.set f v).get f = v := by
  cases f <;> rfl

theorem cand_get_set_other (d : Cand) {f e : CandField} (h : e ≠ f) (v : Word) : (d.set f v).get e = d.get e := by
  cases f <;> cases e <;> first | rfl | exact absurd rfl h

/-- Two register files that agree on every register are equal. -/
theorem regs_ext {g h : Regs} (e : ∀ r, g.get r = h.get r) : g = h := by
  obtain ⟨⟩ := g
  obtain ⟨⟩ := h
  have := e .channels; have := e .norm; have := e .sampleRate; have := e .periodMs; have := e .len
  have := e .gain; have := e .floorHz; have := e .ceilHz; have := e .boundHz; have := e .resLoHz
  have := e .resHiHz; have := e .resCeil; have := e .loDefault; have := e .hiDefault
  simp_all [Regs.get]

end Sys2Proof.Machine
end

