-- ==== Sys2Proof/Laws/Memory.lean ====
section
/-! SUPPORT. The RAM: reading after writing, the canonical form, and equality of canonical RAMs. -/

namespace Sys2Proof.Machine

/-! ### One byte -/

theorem findByte_putByte_same (m : List Host.Cell) (a : Nat) (v : Byte) : findByte (putByte m a v) a = some v := by
  induction m with
  | nil => simp [putByte, findByte]
  | cons c rest ih =>
    obtain ⟨b, u⟩ := c
    simp only [putByte]
    split
    · simp [findByte]
    · split
      · simp [findByte]
      · simp [findByte, *]

theorem findByte_putByte_other (m : List Host.Cell) {a x : Nat} (h : x ≠ a) (v : Byte) :
    findByte (putByte m a v) x = findByte m x := by
  induction m with
  | nil => simp [putByte, findByte, h]
  | cons c rest ih =>
    obtain ⟨b, u⟩ := c
    simp only [putByte]
    split
    · simp [findByte, h]
    · split
      · next e => subst e; simp [findByte, h]
      · simp only [findByte, ih]

theorem findByte_putByte (m : List Host.Cell) (a x : Nat) (v : Byte) :
    findByte (putByte m a v) x = if x = a then some v else findByte m x := by
  split
  · next e => subst e; exact findByte_putByte_same m x v
  · next e => exact findByte_putByte_other m e v

/-! ### The canonical form -/

theorem rising_cons (c : Host.Cell) (m : List Host.Cell) :
    rising (c :: m) = true ↔ (∀ d ∈ m, c.1 < d.1) ∧ rising m = true := by
  induction m generalizing c with
  | nil => simp [rising]
  | cons d rest ih =>
    obtain ⟨a, v⟩ := c
    obtain ⟨b, u⟩ := d
    simp only [rising, Bool.and_eq_true, decide_eq_true_eq, List.mem_cons, forall_eq_or_imp]
    constructor
    · rintro ⟨hab, hr⟩
      have hb := ((ih (b, u)).1 hr).1
      exact ⟨⟨hab, fun x hx => lt_trans hab (hb x hx)⟩, hr⟩
    · rintro ⟨⟨hab, -⟩, hr⟩
      exact ⟨hab, hr⟩

theorem mem_putByte {m : List Host.Cell} {a : Nat} {v : Byte} {c : Host.Cell} (h : c ∈ putByte m a v) :
    c = (a, v) ∨ c ∈ m := by
  induction m with
  | nil => simpa [putByte] using h
  | cons d rest ih =>
    obtain ⟨b, u⟩ := d
    simp only [putByte] at h
    split at h
    · simpa using h
    · split at h
      · simp only [List.mem_cons] at h ⊢
        tauto
      · simp only [List.mem_cons] at h ⊢
        rcases h with h | h
        · exact .inr (.inl h)
        · rcases ih h with h | h
          · exact .inl h
          · exact .inr (.inr h)

theorem rising_putByte {m : List Host.Cell} (h : rising m = true) (a : Nat) (v : Byte) :
    rising (putByte m a v) = true := by
  induction m with
  | nil => rfl
  | cons d rest ih =>
    obtain ⟨b, u⟩ := d
    obtain ⟨hb, hr⟩ := (rising_cons _ _).1 h
    simp only [putByte]
    split
    · next hab =>
      refine (rising_cons _ _).2 ⟨?_, h⟩
      rintro c hc
      rcases List.mem_cons.1 hc with rfl | hc
      · exact hab
      · exact lt_trans hab (hb c hc)
    · split
      · next e => subst e; exact (rising_cons _ _).2 ⟨hb, hr⟩
      · next h1 h2 =>
        refine (rising_cons _ _).2 ⟨?_, ih hr⟩
        intro c hc
        rcases mem_putByte hc with rfl | hc
        · exact lt_of_le_of_ne (not_lt.1 h1) (Ne.symm h2)
        · exact hb c hc

theorem wf_putByte {n : Nat} {m : List Host.Cell} (h : Memory.wf n m = true) {a : Nat} (ha : inRam n a = true)
    (v : Byte) : Memory.wf n (putByte m a v) = true := by
  simp only [Memory.wf, Bool.and_eq_true, List.all_eq_true] at h ⊢
  refine ⟨rising_putByte h.1 a v, fun c hc => ?_⟩
  rcases mem_putByte hc with rfl | hc
  · exact ha
  · exact h.2 c hc

theorem findByte_none_of_lt {m : List Host.Cell} {a : Nat} (h : ∀ d ∈ m, a < d.1) : findByte m a = none := by
  induction m with
  | nil => rfl
  | cons d rest ih =>
    obtain ⟨b, u⟩ := d
    have hab : a < b := h (b, u) (by simp)
    simp only [findByte, if_neg (Nat.ne_of_lt hab)]
    exact ih fun d hd => h d (by simp [hd])

/-- Two canonical RAMs with the same bytes are the same list. -/
theorem rising_ext {m m' : List Host.Cell} (h : rising m = true) (h' : rising m' = true)
    (e : ∀ x, findByte m x = findByte m' x) : m = m' := by
  induction m generalizing m' with
  | nil =>
    cases m' with
    | nil => rfl
    | cons d rest => have := e d.1; simp [findByte] at this
  | cons c rest ih =>
    cases m' with
    | nil => have := e c.1; simp [findByte] at this
    | cons d rest' =>
      obtain ⟨a, v⟩ := c
      obtain ⟨b, u⟩ := d
      obtain ⟨ha, hr⟩ := (rising_cons _ _).1 h
      obtain ⟨hb, hr'⟩ := (rising_cons _ _).1 h'
      have hab : a = b := by
        rcases Nat.lt_trichotomy a b with hlt | heq | hlt
        · have := e a
          rw [findByte_none_of_lt (m := (b, u) :: rest')] at this
          · simp [findByte] at this
          · intro d hd
            rcases List.mem_cons.1 hd with rfl | hd
            · exact hlt
            · exact lt_trans hlt (hb d hd)
        · exact heq
        · have := e b
          rw [findByte_none_of_lt (m := (a, v) :: rest)] at this
          · simp [findByte] at this
          · intro d hd
            rcases List.mem_cons.1 hd with rfl | hd
            · exact hlt
            · exact lt_trans hlt (ha d hd)
      subst hab
      have hv : v = u := by simpa [findByte] using e a
      subst hv
      rw [ih hr hr' fun x => ?_]
      by_cases hx : x = a
      · subst hx
        rw [findByte_none_of_lt (fun d hd => ha d hd), findByte_none_of_lt (fun d hd => hb d hd)]
      · have := e x
        simpa [findByte, hx] using this

/-! ### Words -/

theorem findByte_putWord (m : List Host.Cell) (a x : Nat) (w : Word) :
    findByte (putWord m a w) x =
      if x = a + 3 then some (w.extractLsb' 24 8)
      else if x = a + 2 then some (w.extractLsb' 16 8)
      else if x = a + 1 then some (w.extractLsb' 8 8)
      else if x = a then some (w.extractLsb' 0 8)
      else findByte m x := by
  simp only [putWord, findByte_putByte]

theorem findByte_putWord_other (m : List Host.Cell) {a x : Nat} (h : x < a ∨ a + 4 ≤ x) (w : Word) :
    findByte (putWord m a w) x = findByte m x := by
  rw [findByte_putWord]
  simp only [show x ≠ a + 3 by omega, show x ≠ a + 2 by omega, show x ≠ a + 1 by omega, show x ≠ a by omega, if_false]

theorem rising_putWord {m : List Host.Cell} (h : rising m = true) (a : Nat) (w : Word) :
    rising (putWord m a w) = true :=
  rising_putByte (rising_putByte (rising_putByte (rising_putByte h _ _) _ _) _ _) _ _

theorem wf_putWord {n : Nat} {m : List Host.Cell} (h : Memory.wf n m = true) {a : Nat}
    (ha : ∀ i < 4, inRam n (a + i) = true) (w : Word) : Memory.wf n (putWord m a w) = true := by
  refine wf_putByte (wf_putByte (wf_putByte (wf_putByte h ?_ _) ?_ _) ?_ _) ?_ _
  · exact ha 0 (by decide)
  · exact ha 1 (by decide)
  · exact ha 2 (by decide)
  · exact ha 3 (by decide)

theorem readByte_eq_of_findByte {s t : State} {a : Nat} (e : t.ramEpoch = s.ramEpoch)
    (h : findByte t.mem a = findByte s.mem a) : readByte t a = readByte s a := by
  simp only [readByte, h, e]

theorem readHalf_eq_of_readByte {s t : State} {a : Nat} (h0 : readByte t a = readByte s a)
    (h1 : readByte t (a + 1) = readByte s (a + 1)) : readHalf t a = readHalf s a := by
  simp only [readHalf, h0, h1]

theorem readWord_eq_of_readByte {s t : State} {a : Nat} (h : ∀ i < 4, readByte t (a + i) = readByte s (a + i)) :
    readWord t a = readWord s a := by
  have h0 : readHalf t a = readHalf s a := readHalf_eq_of_readByte (h 0 (by decide)) (h 1 (by decide))
  have h2 : readHalf t (a + 2) = readHalf s (a + 2) := readHalf_eq_of_readByte (h 2 (by decide)) (h 3 (by decide))
  simp only [readWord, h0, h2]

theorem bytes_of_word (w : Word) :
    ((w.extractLsb' 24 8 ++ w.extractLsb' 16 8) ++ (w.extractLsb' 8 8 ++ w.extractLsb' 0 8) : Word) = w := by
  ext i hi
  simp only [BitVec.getElem_append, BitVec.getElem_extractLsb']
  split
  · split
    · simp [BitVec.getLsbD_eq_getElem hi]
    · rw [show 8 + (i - 8) = i by omega]; exact BitVec.getLsbD_eq_getElem hi
  · split
    · rw [show 16 + (i - 16) = i by omega]; exact BitVec.getLsbD_eq_getElem hi
    · rw [show 24 + (i - 16 - 8) = i by omega]; exact BitVec.getLsbD_eq_getElem hi

/-- A RAM word whose four bytes are those of `w` reads as `w`. -/
theorem readWord_of_bytes {s : State} {a : Nat} {w : Word} (h : ∀ x, a ≤ x → x < a + 4 →
    findByte s.mem x = findByte (putWord [] a w) x) : readWord s a = w := by
  have h0 := h a (by omega) (by omega)
  have h1 := h (a + 1) (by omega) (by omega)
  have h2 := h (a + 2) (by omega) (by omega)
  have h3 := h (a + 3) (by omega) (by omega)
  rw [findByte_putWord] at h0 h1 h2 h3
  simp at h0 h1 h2 h3
  simp only [readWord, readHalf, readByte, h0, h1, h2, h3, show a + 2 + 1 = a + 3 from rfl]
  exact bytes_of_word w

/-- Read after write (R66, R67). -/
theorem readWord_writeWord_same (s : State) (a : Nat) (w : Word) : readWord (writeWord s a w) a = w := by
  refine readWord_of_bytes fun x h1 h2 => ?_
  simp only [writeWord_mem, findByte_putWord]
  split
  · rfl
  · split
    · rfl
    · split
      · rfl
      · rw [if_pos (by omega), if_pos (by omega)]

theorem readByte_writeWord_other (s : State) {a x : Nat} (h : x < a ∨ a + 4 ≤ x) (w : Word) :
    readByte (writeWord s a w) x = readByte s x :=
  readByte_eq_of_findByte rfl (findByte_putWord_other s.mem h w)

theorem readWord_writeWord_other (s : State) {a x : Nat} (h : x + 4 ≤ a ∨ a + 4 ≤ x) (w : Word) :
    readWord (writeWord s a w) x = readWord s x :=
  readWord_eq_of_readByte fun i hi => readByte_writeWord_other s (by omega) w

/-! ### A run of spectrum bins -/

theorem specAddr_succ (c : Channel) (k j : Nat) : specAddr c (k + j) = specAddr c k + 4 * j := by
  simp only [specAddr]; omega

theorem findByte_putBins_other (c : Channel) (ws : List Word) (k : Nat) (m : List Host.Cell) {x : Nat}
    (h : x < specAddr c k ∨ specAddr c (k + ws.length) ≤ x) : findByte (putBins c k ws m) x = findByte m x := by
  induction ws generalizing k m with
  | nil => rfl
  | cons w ws ih =>
    rw [specAddr_succ] at h
    simp only [List.length_cons] at h
    have e : specAddr c (k + 1) = specAddr c k + 4 := specAddr_succ c k 1
    have e' : specAddr c (k + 1 + ws.length) = specAddr c k + 4 + 4 * ws.length := by rw [specAddr_succ, e]
    rw [putBins, ih (k + 1) _ (by omega), findByte_putWord_other _ (by omega)]

theorem rising_putBins (c : Channel) (ws : List Word) (k : Nat) {m : List Host.Cell} (h : rising m = true) :
    rising (putBins c k ws m) = true := by
  induction ws generalizing k m with
  | nil => exact h
  | cons w ws ih => exact ih (k + 1) (rising_putWord h _ w)

theorem wf_putBins {n : Nat} (c : Channel) (ws : List Word) (k : Nat) {m : List Host.Cell} (h : Memory.wf n m = true)
    (hk : 4 * (k + ws.length) ≤ 2 * n) : Memory.wf n (putBins c k ws m) = true := by
  induction ws generalizing k m with
  | nil => exact h
  | cons w ws ih =>
    simp only [List.length_cons] at hk
    refine ih (k + 1) (wf_putWord h (fun i hi => ?_) w) (by omega)
    cases c <;> simp [inRam, specAddr, Channel.index] <;> omega

/-- The bins written read back, whatever lay there. -/
theorem findByte_putBins_same (c : Channel) (ws : List Word) (k : Nat) (m : List Host.Cell) {j : Nat}
    (hj : j < ws.length) {x : Nat} (h1 : specAddr c (k + j) ≤ x) (h2 : x < specAddr c (k + j) + 4) :
    findByte (putBins c k ws m) x = findByte (putWord [] (specAddr c (k + j)) ws[j]) x := by
  induction ws generalizing k m j with
  | nil => simp at hj
  | cons w ws ih =>
    cases j with
    | zero =>
      simp only [Nat.add_zero, List.getElem_cons_zero] at h1 h2 ⊢
      rw [putBins, findByte_putBins_other c ws (k + 1) _ (by rw [specAddr_succ]; omega),
        findByte_putWord, findByte_putWord]
      split
      · rfl
      · split
        · rfl
        · split
          · rfl
          · rw [if_pos (by omega), if_pos (by omega)]
    | succ j =>
      rw [putBins]
      have := ih (k + 1) (putWord m (specAddr c k) w) (j := j) (by simpa using hj)
        (by rwa [show k + 1 + j = k + (j + 1) by omega]) (by rwa [show k + 1 + j = k + (j + 1) by omega])
      simpa [show k + 1 + j = k + (j + 1) by omega] using this

theorem readWord_putBins_same {s : State} (c : Channel) (ws : List Word) {m : List Host.Cell} (k : Nat)
    (hm : s.mem = putBins c k ws m) {j : Nat} (hj : j < ws.length) : readWord s (specAddr c (k + j)) = ws[j] :=
  readWord_of_bytes fun _ h1 h2 => by rw [hm]; exact findByte_putBins_same c ws k m hj h1 h2

end Sys2Proof.Machine
end

