-- ==== Sys2Proof/Laws/Select.lean ====
section
/-! SUPPORT. The stable sort and the scan of `SELECT`: what the sort gives, and which bin the scan gives a band. -/

namespace Sys2Proof.Machine

/-! ### The sort -/

/-- The order of R12: a larger key first, an equal key in the original, ascending, order. -/
def Before (key : Nat → Int) (j k : Nat) : Prop := key k < key j ∨ (key j = key k ∧ j < k)

theorem perm_insertDesc (key : Nat → Int) (k : Nat) (l : List Nat) : (insertDesc key k l).Perm (k :: l) := by
  induction l with
  | nil => exact .refl _
  | cons j rest ih =>
    rw [insertDesc]
    split
    · exact .refl _
    · exact (ih.cons j).trans (.swap k j rest)

theorem perm_stableSortDesc (key : Nat → Int) (l : List Nat) : (stableSortDesc key l).Perm l := by
  induction l with
  | nil => exact .refl _
  | cons k rest ih => exact (perm_insertDesc key k _).trans (ih.cons k)

theorem pairwise_insertDesc {key : Nat → Int} {k : Nat} {l : List Nat} (hk : ∀ j ∈ l, k < j)
    (h : l.Pairwise (Before key)) : (insertDesc key k l).Pairwise (Before key) := by
  induction l with
  | nil => exact List.pairwise_singleton _ _
  | cons j rest ih =>
    have hj := List.pairwise_cons.mp h
    rw [insertDesc]
    split
    · next hle =>
      refine List.pairwise_cons.mpr ⟨fun i hi => ?_, h⟩
      have hki := hk i hi
      rcases List.mem_cons.mp hi with rfl | hi'
      · unfold Before; omega
      · have := hj.1 i hi'
        unfold Before at *; omega
    · next hlt =>
      refine List.pairwise_cons.mpr ⟨fun i hi => ?_, ih (fun i hi => hk i (List.mem_cons_of_mem _ hi)) hj.2⟩
      rcases List.mem_cons.mp ((perm_insertDesc key k rest).mem_iff.mp hi) with rfl | hi'
      · unfold Before; omega
      · exact hj.1 i hi'

/-- The sort of an ascending list is in the order of R12. -/
theorem pairwise_stableSortDesc (key : Nat → Int) {l : List Nat} (h : l.Pairwise (· < ·)) :
    (stableSortDesc key l).Pairwise (Before key) := by
  induction l with
  | nil => exact .nil
  | cons k rest ih =>
    have hk := List.pairwise_cons.mp h
    exact pairwise_insertDesc (fun j hj => hk.1 j ((perm_stableSortDesc key rest).mem_iff.mp hj)) (ih hk.2)

theorem insertDesc_congr {f g : Nat → Int} {k : Nat} {l : List Nat} (hk : f k = g k) (h : ∀ j ∈ l, f j = g j) :
    insertDesc f k l = insertDesc g k l := by
  induction l with
  | nil => rfl
  | cons j rest ih =>
    rw [insertDesc, insertDesc, hk, h j List.mem_cons_self, ih fun i hi => h i (List.mem_cons_of_mem j hi)]

/-- The sort reads only the keys of the elements it sorts. -/
theorem stableSortDesc_congr {f g : Nat → Int} {l : List Nat} (h : ∀ k ∈ l, f k = g k) :
    stableSortDesc f l = stableSortDesc g l := by
  induction l with
  | nil => rfl
  | cons k rest ih =>
    have hr : ∀ i ∈ rest, f i = g i := fun i hi => h i (List.mem_cons_of_mem k hi)
    rw [stableSortDesc, stableSortDesc, ← ih hr]
    exact insertDesc_congr (h k List.mem_cons_self) fun j hj => hr j ((perm_stableSortDesc f rest).mem_iff.mp hj)

theorem pairwise_qualifying (s : State) (c : Channel) : (qualifying s c).Pairwise (· < ·) :=
  (List.pairwise_lt_range.filter _).filter _

theorem mem_qualifying {s : State} {c : Channel} {k : Nat} :
    k ∈ qualifying s c ↔ floorBin s ≤ k ∧ k ≤ ceilBin s ∧ k < binCount s ∧ posF (specBin s c k) = true := by
  simp only [qualifying, selectable, List.mem_filter, List.mem_range, Bool.and_eq_true, decide_eq_true_eq]
  tauto

/-! ### The scan -/

/-- A bin above the boundary is not in the low band (R153). -/
theorem not_low_of_high {s : State} {k : Nat} (h : inHighBand s k = true) : inLowBand s k = false := by
  simp only [inHighBand, fGtNat, Bool.and_eq_true, decide_eq_true_eq] at h
  simp only [inLowBand, natLeF, fLeNat, h.1, Bool.true_and, Bool.and_eq_false_iff, decide_eq_false_iff_not]
  omega

/-- The scan gives each band its first bin in the list, unless it had one before. -/
theorem scanBands_eq (s : State) (l : List Nat) (hi lo : Option Nat) :
    scanBands s l hi lo = (hi.or (l.find? (inHighBand s)), lo.or (l.find? (inLowBand s))) := by
  induction l generalizing hi lo with
  | nil => cases hi <;> cases lo <;> rfl
  | cons k rest ih =>
    rw [List.find?_cons, List.find?_cons]
    cases hi <;> cases lo <;> cases hh : inHighBand s k <;> cases hl : inLowBand s k <;>
      simp_all [scanBands, not_low_of_high]

theorem pickBands_eq (s : State) (c : Channel) :
    pickBands s c =
      ((stableSortDesc (fun k => unitsOf (specBin s c k)) (qualifying s c)).find? (inHighBand s),
        (stableSortDesc (fun k => unitsOf (specBin s c k)) (qualifying s c)).find? (inLowBand s)) := by
  rw [pickBands, scanBands_eq]; rfl

end Sys2Proof.Machine
end

