-- ==== Sys2Proof/Laws/Commands.lean ====
section
/-! SUPPORT. What each completion step is, what the operands read, and what each stage leaves alone. -/

namespace Sys2Proof.Machine

/-! ### The completion steps -/

theorem exec_nop (s : State) : exec .nop s = .next (complete s) := rfl

theorem exec_analyze (s : State) : exec .analyze s = .next (complete ((declaredChannels s).foldl analyzeChannel s)) := rfl

theorem exec_spectrum (c : Channel) (s : State) : exec (.spectrum c) s = .next (complete (spectrumStage c s)) := rfl

theorem exec_select (c : Channel) (s : State) : exec (.select c) s = .next (complete (selectStage c s)) := rfl

theorem exec_shape (c : Channel) (s : State) : exec (.shape c) s = .next (complete (shapeStage c s)) := rfl

/-! ### Operands -/

/-- The derived values, the window's length, the channel count, the bin frequencies and the declared channels read only the
configuration registers. -/
theorem operands_congr {s t : State} (h : s.regs = t.regs) :
    windowSize s = windowSize t ∧ floorBin s = floorBin t ∧ ceilBin s = ceilBin t ∧ windowLen s = windowLen t ∧
      channelCount s = channelCount t ∧ binCount s = binCount t ∧ frequency s = frequency t ∧
      declaredChannels s = declaredChannels t ∧ inHighBand s = inHighBand t ∧ inLowBand s = inLowBand t := by
  have hf : frequency s = frequency t := by funext k; unfold frequency windowLen; rw [h]
  refine ⟨?_, ?_, ?_, ?_, ?_, ?_, hf, ?_, ?_, ?_⟩
  · unfold windowSize; rw [h]
  · unfold floorBin; rw [h]
  · unfold ceilBin; rw [h]
  · unfold windowLen; rw [h]
  · unfold channelCount; rw [h]
  · unfold binCount windowLen; rw [h]
  · unfold declaredChannels channelCount; rw [h]
  · funext k; unfold inHighBand; rw [hf, h]
  · funext k; unfold inLowBand; rw [hf, h]

/-- A channel's window reads only `CHANNELS`, `LEN` and its own sample slots (R131). -/
theorem window_congr {s t : State} {c : Channel} (hc : s.regs.channels = t.regs.channels) (hl : s.regs.len = t.regs.len)
    (h : ∀ i < s.regs.len.toNat, readHalf s (pcmAddr (i * s.regs.channels.toNat + c.index)) =
      readHalf t (pcmAddr (i * s.regs.channels.toNat + c.index))) : window s c = window t c := by
  unfold window windowLen
  rw [← hl]
  refine List.map_congr_left fun i hi => ?_
  rw [sample, sample, channelCount, channelCount, ← hc, h i (List.mem_range.mp hi)]

theorem specBin_congr {s t : State} (hm : s.mem = t.mem) (he : s.ramEpoch = t.ramEpoch) (c : Channel) (k : Nat) :
    specBin s c k = specBin t c k :=
  readWord_eq_of_readByte fun _ _ => readByte_eq_of_findByte he (by rw [hm])

/-- The candidates read only the configuration registers and the bins below `floor(n/2)` (R150). -/
theorem selectBands_congr {s t : State} {c : Channel} (hr : s.regs = t.regs)
    (h : ∀ k < binCount s, specBin s c k = specBin t c k) : selectBands s c = selectBands t c := by
  obtain ⟨-, hfl, hce, -, -, hb, hf, -, hh, hl⟩ := operands_congr hr
  have hsel : selectable s = selectable t := by unfold selectable; rw [hb, hfl, hce]
  have hbin : ∀ k ∈ selectable s, specBin s c k = specBin t c k := fun k hk =>
    h k (List.mem_range.mp (List.mem_filter.mp hk).1)
  have hq : qualifying s c = qualifying t c := by
    unfold qualifying
    rw [← hsel]
    exact List.filter_congr fun k hk => by rw [hbin k hk]
  have hsort := stableSortDesc_congr (f := fun k => unitsOf (specBin s c k)) (g := fun k => unitsOf (specBin t c k))
    (l := qualifying s c) fun k hk => congrArg unitsOf (hbin k (List.mem_filter.mp hk).1)
  have hp : pickBands s c = pickBands t c := by
    rw [pickBands_eq, pickBands_eq, ← hq, hh, hl, hsort]
  have hcand : ∀ o : Option Nat, (∀ k, o = some k → k ∈ qualifying s c) → candidate s c o = candidate t c o := by
    intro o ho
    cases o with
    | none => rfl
    | some k => rw [candidate, candidate, hf, hbin k (List.mem_filter.mp (ho k rfl)).1]
  have hmem : ∀ k, (pickBands s c).1 = some k ∨ (pickBands s c).2 = some k → k ∈ qualifying s c := by
    intro k hk
    rw [pickBands_eq] at hk
    rcases hk with hk | hk <;>
      exact (perm_stableSortDesc _ _).mem_iff.mp (List.mem_of_find?_eq_some hk)
  unfold selectBands
  rw [← hp, hcand _ fun k hk => hmem k (.inl hk), hcand _ fun k hk => hmem k (.inr hk)]

/-! ### The stages -/

@[simp] theorem length_spectrumBins (s : State) (c : Channel) : (spectrumBins s c).length = s.regs.len.toNat / 2 := by
  simp only [spectrumBins, spectrumOfWindow, List.length_map, List.length_range, window, windowLen]

theorem getElem_spectrumBins (s : State) (c : Channel) {k : Nat} (h : k < (spectrumBins s c).length) :
    (spectrumBins s c)[k] = spectrumOf s c k := by
  simp only [spectrumBins, spectrumOfWindow, List.getElem_map, List.getElem_range, spectrumOf]

/-- The bins `SPECTRUM c` computes read only `MAG_MODE`, `NORM` and the channel's window. -/
theorem spectrumBins_congr {s t : State} {c : Channel} (hp : s.params = t.params) (hn : s.regs.norm = t.regs.norm)
    (hw : window s c = window t c) : spectrumBins s c = spectrumBins t c := by
  unfold spectrumBins; rw [hp, hn, hw]

/-- A byte outside the bins `SPECTRUM c` writes reads as before (R138). -/
theorem readByte_spectrumStage_other {s : State} {c : Channel} {a : Nat}
    (h : a < specAddr c 0 ∨ specAddr c (s.regs.len.toNat / 2) ≤ a) :
    readByte (spectrumStage c s) a = readByte s a :=
  readByte_eq_of_findByte rfl (findByte_putBins_other c _ 0 s.mem (by simpa using h))

/-- The bins `SPECTRUM c` writes read as its magnitudes (R130). -/
theorem specBin_spectrumStage {s : State} {c : Channel} {k : Nat} (h : k < s.regs.len.toNat / 2) :
    specBin (spectrumStage c s) c k = spectrumOf s c k := by
  have hk : k < (spectrumBins s c).length := by rwa [length_spectrumBins]
  have := readWord_putBins_same (s := spectrumStage c s) c (spectrumBins s c) 0 (m := s.mem) rfl hk
  rw [Nat.zero_add] at this
  rw [specBin, this, getElem_spectrumBins]

theorem wf_spectrumStage {s : State} {c : Channel} (h : Memory.wf s.params.nMax s.mem = true)
    (hn : s.regs.len.toNat ≤ s.params.nMax) : Memory.wf s.params.nMax (spectrumStage c s).mem = true :=
  wf_putBins c _ 0 h (by rw [length_spectrumBins]; omega)

end Sys2Proof.Machine
end

