-- ==== Sys2Proof/Laws/PerInstr.lean ====
section
/-! SUPPORT. One family of statements for each command: what its word looks like (30_encoding.md R90, R91). -/

namespace Sys2Proof.Laws

/-- The word of a well-formed command has its reserved fields zero, an `OP` of the opcode map, and a `CH` that is 0 for
`NOP` and `ANALYZE` and the channel's index for the others (R90 to R92). -/
def Encoding.Statement (i : Instr) : Prop :=
  i.wellFormed = true ∧ lowReserved (encode i) = 0#4 ∧ highReserved (encode i) = 0#23 ∧
    match i with
    | .nop => opField (encode i) = 0x0#4 ∧ chField (encode i) = 0#1
    | .analyze => opField (encode i) = 0x1#4 ∧ chField (encode i) = 0#1
    | .spectrum c => opField (encode i) = 0x2#4 ∧ (chField (encode i)).toNat = c.index
    | .select c => opField (encode i) = 0x3#4 ∧ (chField (encode i)).toNat = c.index
    | .shape c => opField (encode i) = 0x4#4 ∧ (chField (encode i)).toNat = c.index

theorem Encoding.nop : Encoding.Statement .nop := by unfold Encoding.Statement; decide

theorem Encoding.analyze : Encoding.Statement .analyze := by unfold Encoding.Statement; decide

theorem Encoding.spectrum (c : Channel) : Encoding.Statement (.spectrum c) := by
  unfold Encoding.Statement; cases c <;> decide

theorem Encoding.select (c : Channel) : Encoding.Statement (.select c) := by
  unfold Encoding.Statement; cases c <;> decide

theorem Encoding.shape (c : Channel) : Encoding.Statement (.shape c) := by
  unfold Encoding.Statement; cases c <;> decide

end Sys2Proof.Laws
end

