-- ==== Sys2Proof/Laws/Port.lean ====
section
/-! SUPPORT. What a step is, event by event; what the register map sends where; what a host write and a check can do. -/

namespace Sys2Proof.Machine

/-! ### Steps -/

theorem step_host {s : State} {x : Txn} {rest : List Event} (h : s.pending = .host x :: rest) :
    step s = .next (hostStep x { s with pending := rest }) := by
  simp only [step, advance, h, happen]

theorem step_hardReset {s : State} {rest : List Event} (h : s.pending = .hardReset :: rest) :
    step s = .next (hardReset { s with pending := rest }) := by
  simp only [step, advance, h, happen]

theorem step_engineTurn {s : State} {rest : List Event} (h : s.pending = .engineTurn :: rest) :
    step s = engineStep { s with pending := rest } := by
  simp only [step, advance, h, happen]

theorem step_nothing {s : State} (h : s.pending = []) : step s = engineStep s := by
  simp only [step, advance, h]

theorem engineStep_busy {s : State} {w : Word} {i : Instr} (h : s.seq = .busy w) (d : decode w = .ok i) :
    engineStep s = exec i s := by
  simp only [engineStep, h, d]

theorem engineStep_idle {s : State} (h : s.seq = .idle) : engineStep s = .next s := by
  simp only [engineStep, h]

/-- A run of one step more. -/
theorem run_next {s t : State} (k : Nat) (h : step s = .next t) :
    Host.Core.run Sys2Proof.core (k + 1) s = Host.Core.run Sys2Proof.core k t := by
  simp only [Host.Core.run, Sys2Proof.core, h]

theorem run_zero (s : State) : Host.Core.run Sys2Proof.core 0 s = .next s := rfl

/-- Everything a step that goes on can be. -/
theorem step_cases {s t : State} (h : step s = .next t) :
    (∃ x rest, s.pending = .host x :: rest ∧ t = hostStep x { s with pending := rest }) ∨
    (∃ rest, s.pending = .hardReset :: rest ∧ t = hardReset { s with pending := rest }) ∨
    ∃ rest, (s.pending = .engineTurn :: rest ∨ (s.pending = [] ∧ rest = [])) ∧
      ((s.seq = .idle ∧ t = { s with pending := rest }) ∨
        ∃ w i, s.seq = .busy w ∧ decode w = .ok i ∧ exec i { s with pending := rest } = .next t) := by
  have engine : ∀ rest, engineStep { s with pending := rest } = .next t →
      (s.seq = .idle ∧ t = { s with pending := rest }) ∨
        ∃ w i, s.seq = .busy w ∧ decode w = .ok i ∧ exec i { s with pending := rest } = .next t := by
    intro rest h
    simp only [engineStep] at h
    split at h
    · next e => cases h; exact .inl ⟨e, rfl⟩
    · next w e =>
      split at h
      · next i d => exact .inr ⟨w, i, e, d, h⟩
      · cases h
  cases e : s.pending with
  | nil =>
    rw [step_nothing e] at h
    have hs : ({ s with pending := [] } : State) = s := by rw [← e]
    exact .inr (.inr ⟨[], .inr ⟨rfl, rfl⟩, engine [] (by rw [hs]; exact h)⟩)
  | cons x rest =>
    cases x with
    | host x => rw [step_host e] at h; cases h; exact .inl ⟨x, rest, rfl, rfl⟩
    | hardReset => rw [step_hardReset e] at h; cases h; exact .inr (.inl ⟨rest, rfl, rfl⟩)
    | engineTurn => rw [step_engineTurn e] at h; exact .inr (.inr ⟨rest, .inl rfl, engine rest h⟩)

/-- An address the port can carry is its own offset. -/
theorem portOffset_of_lt {p : Params} {a : Nat} (h : a < 2 ^ p.addrBits) : portOffset p a = a := Nat.mod_eq_of_lt h

/-- An address below `2^18` is its own offset, whatever `ADDR_BITS` is. -/
theorem portOffset_eq (p : Params) {a : Nat} (h : a < 2 ^ 18) : portOffset p a = a := by
  refine portOffset_of_lt (lt_of_lt_of_le h ?_)
  rw [Params.addrBits, Nat.pow_add]
  exact Nat.le_mul_of_pos_right _ (Nat.two_pow_pos _)

/-- The port's width keeps the alignment of an address. -/
theorem portOffset_mod_four (p : Params) (a : Nat) : portOffset p a % 4 = a % 4 := by
  rw [portOffset, Params.addrBits, show 18 + p.addrExtra = 2 + (16 + p.addrExtra) by omega, Nat.pow_add]
  exact Nat.mod_mul_right_mod a (2 ^ 2) (2 ^ (16 + p.addrExtra))

theorem hostStep_write (s : State) {a : Nat} (h4 : a % 4 = 0) (v : Word) :
    hostStep (.write .word a v) s = hostWrite (locate s.params.nMax (portOffset s.params a)) v s := by
  simp [hostStep, Txn.wellFormed, Txn.width, Txn.addr, h4]

theorem hostStep_read (s : State) {a : Nat} (h4 : a % 4 = 0) :
    hostStep (.read .word a) s = hostRead (locate s.params.nMax (portOffset s.params a)) s := by
  simp [hostStep, Txn.wellFormed, Txn.width, Txn.addr, h4]

/-- A step that performs `WR` at any aligned address. -/
theorem step_wr_port {s : State} {a : Nat} {v : Word} {rest : List Event} (h4 : a % 4 = 0)
    (h : s.pending = wr a v :: rest) :
    step s = .next (hostWrite (locate s.params.nMax (portOffset s.params a)) v { s with pending := rest }) := by
  rw [step_host h, hostStep_write _ h4]

/-- A step that performs `RD` at any aligned address. -/
theorem step_rd_port {s : State} {a : Nat} {rest : List Event} (h4 : a % 4 = 0) (h : s.pending = rd a :: rest) :
    step s = .next (hostRead (locate s.params.nMax (portOffset s.params a)) { s with pending := rest }) := by
  rw [step_host h, hostStep_read _ h4]

/-- A step that performs `WR`. -/
theorem step_wr {s : State} {a : Nat} {v : Word} {rest : List Event} (ha : a < 2 ^ 18) (h4 : a % 4 = 0)
    (h : s.pending = wr a v :: rest) :
    step s = .next (hostWrite (locate s.params.nMax a) v { s with pending := rest }) := by
  rw [step_wr_port h4 h, portOffset_eq _ ha]

/-- A step that performs `RD`. -/
theorem step_rd {s : State} {a : Nat} {rest : List Event} (ha : a < 2 ^ 18) (h4 : a % 4 = 0)
    (h : s.pending = rd a :: rest) :
    step s = .next (hostRead (locate s.params.nMax a) { s with pending := rest }) := by
  rw [step_rd_port h4 h, portOffset_eq _ ha]

/-- A command word written to an idle engine is issued. -/
theorem step_cmd {s : State} {w : Word} {rest : List Event} (h : s.pending = wr 0x00C w :: rest) (hi : s.seq = .idle) :
    step s = .next (respond { rdata := none, resp := .okay } (issue w { s with pending := rest })) := by
  have hl : locate s.params.nMax 0x00C = .cmd := rfl
  rw [step_wr (by decide) (by decide) h, hl]
  simp only [hostWrite, writeEffect, isBusy, hi, writeIdle, if_false, reduceCtorEq, Bool.false_eq_true]

/-! ### The register map -/

theorem mem_of_lookup {m : List (Nat × Location)} {a : Nat} {l : Location} (h : m.lookup a = some l) : (a, l) ∈ m := by
  induction m with
  | nil => cases h
  | cons p m ih =>
    obtain ⟨b, q⟩ := p
    rw [List.lookup_cons] at h
    split at h
    · next e => cases h; rw [beq_iff_eq.mp e]; exact List.mem_cons_self
    · exact List.mem_cons_of_mem _ (ih h)

/-- A location of the register part of the map has one of its rows. -/
theorem locate_register {n a : Nat} {l : Location} (h : locate n a = l)
    (hl : ∀ m b, locateRam m b ≠ l) : (a, l) ∈ registerMap := by
  unfold locate at h
  split at h
  · next l' e => subst h; exact mem_of_lookup e
  · exact absurd h (hl n a)

theorem locateRam_cases (n a : Nat) :
    (∃ j, locateRam n a = .pcm j ∧ a = 0x10000 + 4 * j + a % 4 ∧ 0x10000 ≤ a ∧ a < 0x10000 + 4 * n) ∨
    (∃ c k, locateRam n a = .spec c k ∧ specAddr c 0 ≤ a ∧ a < specAddr c 0 + 2 * n ∧ k = (a - specAddr c 0) / 4) ∨
    locateRam n a = .unmapped := by
  unfold locateRam
  split
  · next h => exact .inl ⟨_, rfl, by omega, h.1, h.2⟩
  · split
    · next h => exact .inr (.inl ⟨.ch0, _, rfl, h.1, h.2, rfl⟩)
    · split
      · next h => exact .inr (.inl ⟨.ch1, _, rfl, h.1, h.2, rfl⟩)
      · exact .inr (.inr rfl)

theorem locate_ctrl_iff (n a : Nat) : locate n a = .ctrl ↔ a = 0x004 := by
  constructor
  · intro h
    have := locate_register h fun m b e => by
      rcases locateRam_cases m b with ⟨_, r, _⟩ | ⟨_, _, r, _⟩ | r <;> rw [r] at e <;> cases e
    simpa [registerMap, controlMap, configMap, candMap, resultMap] using this
  · rintro rfl; rfl

theorem locate_status_iff (n a : Nat) : locate n a = .status ↔ a = 0x008 := by
  constructor
  · intro h
    have := locate_register h fun m b e => by
      rcases locateRam_cases m b with ⟨_, r, _⟩ | ⟨_, _, r, _⟩ | r <;> rw [r] at e <;> cases e
    simpa [registerMap, controlMap, configMap, candMap, resultMap] using this
  · rintro rfl; rfl

/-- No register sits at an offset from `0x0E0` on. -/
theorem lookup_registerMap_none {a : Nat}
    (h : (0x058 ≤ a ∧ a ≤ 0x07C) ∨ (0x0A0 ≤ a ∧ a ≤ 0x0BC) ∨ 0x0E0 ≤ a) : registerMap.lookup a = none := by
  rw [List.lookup_eq_none_iff]
  intro p hp
  simp only [registerMap, controlMap, configMap, candMap, resultMap, List.cons_append, List.nil_append, List.mem_cons,
    List.not_mem_nil, or_false] at hp
  rcases hp with rfl | rfl | rfl | rfl | rfl | rfl | rfl | rfl | rfl | rfl | rfl | rfl | rfl | rfl | rfl | rfl | rfl |
    rfl | rfl | rfl | rfl | rfl | rfl | rfl | rfl | rfl | rfl | rfl | rfl | rfl | rfl | rfl | rfl | rfl | rfl | rfl |
    rfl | rfl <;> simp <;> omega

theorem locate_ram {a : Nat} (n : Nat) (h : 0x0E0 ≤ a) : locate n a = locateRam n a := by
  simp only [locate, lookup_registerMap_none (.inr (.inr h))]

/-! ### Writes -/

theorem writeEffect_busy {s : State} {w : Word} (h : s.seq = .busy w) {l : Location} (h1 : l ≠ .ctrl)
    (h2 : l ≠ .status) (v : Word) : writeEffect l v s = busyWrite s := by
  simp [writeEffect, h1, h2, isBusy, h]

theorem writeEffect_idle {s : State} (h : s.seq = .idle) {l : Location} (h1 : l ≠ .ctrl) (h2 : l ≠ .status)
    (v : Word) : writeEffect l v s = writeIdle l v s := by
  simp [writeEffect, h1, h2, isBusy, h]

@[simp] theorem writeEffect_ctrl (s : State) (v : Word) : writeEffect .ctrl v s = writeCtrl v s := rfl

@[simp] theorem writeEffect_status (s : State) (v : Word) : writeEffect .status v s = writeStatus v s := rfl

/-- A write touches neither the parameters nor the script nor the RAM's epoch. -/
theorem writeEffect_outside (l : Location) (v : Word) (s : State) :
    (writeEffect l v s).params = s.params ∧ (writeEffect l v s).pending = s.pending ∧
      (writeEffect l v s).ramEpoch = s.ramEpoch := by
  have hc : ∀ u : State, (writeCtrl v u).params = u.params ∧ (writeCtrl v u).pending = u.pending ∧
      (writeCtrl v u).ramEpoch = u.ramEpoch := by
    intro u; unfold writeCtrl; split <;> exact ⟨rfl, rfl, rfl⟩
  have hs : ∀ u : State, (writeStatus v u).params = u.params ∧ (writeStatus v u).pending = u.pending ∧
      (writeStatus v u).ramEpoch = u.ramEpoch := by
    intro u; simp only [writeStatus]; split <;> split <;> exact ⟨rfl, rfl, rfl⟩
  unfold writeEffect
  split
  · exact hc s
  · split
    · exact hs s
    · split
      · exact ⟨rfl, rfl, rfl⟩
      · cases l with
        | ctrl => exact hc s
        | status => exact hs s
        | cmd => simp only [writeIdle, issue]; split <;> exact ⟨rfl, rfl, rfl⟩
        | _ => exact ⟨rfl, rfl, rfl⟩

/-- So does a transaction. -/
theorem hostStep_outside (x : Txn) (s : State) :
    (hostStep x s).params = s.params ∧ (hostStep x s).pending = s.pending ∧ (hostStep x s).ramEpoch = s.ramEpoch := by
  cases x with
  | read w a =>
    simp only [hostStep, hostRead]
    split
    · split <;> exact ⟨rfl, rfl, rfl⟩
    · exact ⟨rfl, rfl, rfl⟩
  | write w a v =>
    simp only [hostStep]
    split
    · exact writeEffect_outside _ v s
    · exact ⟨rfl, rfl, rfl⟩

/-! ### Checks -/

/-- The checks read only the parameters and the configuration registers (R111, R117). -/
theorem check_congr {s t : State} (hp : s.params = t.params) (hr : s.regs = t.regs) (w : Word) :
    check s w = check t w := by
  have hc : configOk s = configOk t := by unfold configOk channelCount windowSize; rw [hp, hr]
  have hq : ∀ i, requestBad s i = requestBad t i := fun i => by unfold requestBad channelCount; rw [hr]
  have hl : lengthOk s = lengthOk t := by unfold lengthOk windowLen windowSize; rw [hr]
  simp only [check, hc, hq, hl]

theorem issue_ok {s : State} {w : Word} (h : check s w = none) : issue w s = accept w s := by
  simp only [issue, h]

theorem issue_error {s : State} {w : Word} {e : CmdError} (h : check s w = some e) : issue w s = reject e s := by
  simp only [issue, h]

/-- A word passes the checks exactly when it is a command, and, unless it is `NOP`, the configuration is legal, its
channel is declared, and its window, if it reads one, has a legal length. -/
theorem check_none_iff (s : State) (w : Word) :
    check s w = none ↔ ∃ i, decode w = .ok i ∧
      (i = .nop ∨ (configOk s = true ∧ requestBad s i = false ∧ (readsWindow i = true → lengthOk s = true))) := by
  unfold check
  split
  · next e d => simp [d]
  · next i d =>
    rw [d]
    simp only [Except.ok.injEq, exists_eq_left']
    by_cases hn : i = .nop
    · simp [hn]
    · simp only [hn, if_false, false_or]
      cases configOk s <;> cases requestBad s i <;> cases readsWindow i <;> cases lengthOk s <;> simp

/-- A legal window lies inside the RAMs (R111, R116). -/
theorem len_le_nMax {s : State} (hc : configOk s = true) (hl : lengthOk s = true) :
    s.regs.len.toNat ≤ s.params.nMax := by
  simp only [lengthOk, windowLen, Bool.and_eq_true] at hl
  simp only [configOk, Bool.and_eq_true] at hc
  have h1 := of_decide_eq_true hl.2
  have h2 := of_decide_eq_true hc.1.1.1.1.2.2
  omega

/-- A legal `RES_CEIL` is +0 or in `(0, 1.0]` (R116). -/
theorem resCeil_le_one {s : State} (hc : configOk s = true) : s.regs.resCeil.toNat ≤ oneF.toNat := by
  simp only [configOk, Bool.and_eq_true, Bool.not_eq_true', leF, decide_eq_true_eq] at hc
  obtain ⟨⟨⟨-, ⟨-, hs⟩, ⟨-, h1⟩⟩, -⟩, -⟩ := hc
  rw [unitsOf_nonneg_word hs, unitsOf_nonneg_word (by decide), Nat.cast_le, encUnits_le_iff] at h1
  exact h1

/-! ### Shaping under a legal ceiling -/

theorem shapeBand_le_one {g : Regs} (h : g.resCeil.toNat ≤ oneF.toNat) (f a d : Word) :
    (shapeBand g f a d).2.toNat ≤ oneF.toNat := by
  unfold shapeBand
  split
  · exact Nat.zero_le _
  · refine (clamp_le ?_).trans ?_ <;> unfold ceilingOf <;> split <;> first | exact h | exact le_rfl

theorem shapeBands_bounded {g : Regs} (h : g.resCeil.toNat ≤ oneF.toNat) (d : Cand) :
    (shapeBands g d).bounded = true := by
  simp only [RumbleParams.bounded, unitAmplitude, shapeBands, shapeBand_le_one h, decide_true, Bool.and_self]

end Sys2Proof.Machine
end

