-- ==== Sys2Proof/Tests/Slice0.lean ====
section
/-! SUPPORT. Tests, each one step or one function on a small state, with the expected value from spec/95_test_vectors.md
or from a rule's own example; and a witness for the hypotheses of each obligation. -/

namespace Sys2Proof.Tests

open Sys2Proof Sys2Proof.Machine

/-! ### What is ill formed is refused -/

theorem test_wellFormed_refuses_misaligned : (Txn.read .word 0x00A).wellFormed = false := by decide

theorem test_wellFormed_refuses_misaligned_write : (Txn.write .word 0x001 0#32).wellFormed = false := by decide

theorem test_wellFormed_refuses_byte : (Txn.read .byte 0x008).wellFormed = false := by decide

theorem test_wellFormed_refuses_half : (Txn.write .half 0x010 1#32).wellFormed = false := by decide

/-- The reference parameters with another capacity. -/
def withCapacity (n : Nat) : Params := { Config.reference with nMax := n }

theorem test_wellFormed_refuses_odd_nMax : (withCapacity 4095).wellFormed = false := by decide

theorem test_wellFormed_refuses_zero_nMax : (withCapacity 0).wellFormed = false := by decide

theorem test_wellFormed_refuses_large_nMax : (withCapacity 16386).wellFormed = false := by decide

theorem test_wellFormed_reference : Config.reference.wellFormed = true := by decide

/-- The field `CH` holds nothing a channel could not be, so every command is well formed. -/
theorem test_wellFormed_commands :
    ([Instr.nop, .analyze, .spectrum .ch1, .select .ch1, .shape .ch1].all Instr.wellFormed) = true := by decide

/-! ### Decoding: each word bit by bit from R90 and R92, or from a line of V-ENC -/

theorem test_decode_nop : decode 0b00000000000000000000000000000000#32 = .ok .nop := by decide

theorem test_decode_analyze : decode 0b00000000000000000000000000000001#32 = .ok .analyze := by decide

theorem test_decode_spectrum : decode 0b00000000000000000000000100000010#32 = .ok (.spectrum .ch1) := by decide

theorem test_decode_select : decode 0b00000000000000000000000000000011#32 = .ok (.select .ch0) := by decide

theorem test_decode_shape : decode 0b00000000000000000000000100000100#32 = .ok (.shape .ch1) := by decide

theorem test_decode_high_reserved : decode 0x00000200#32 = .error .reservedBits := by decide

theorem test_decode_low_reserved : decode 0x00000012#32 = .error .reservedBits := by decide

theorem test_decode_top_bit : decode 0x80000001#32 = .error .reservedBits := by decide

theorem test_decode_op5 : decode 0x00000005#32 = .error .reservedOp := by decide

theorem test_decode_op15 : decode 0x0000010F#32 = .error .reservedOp := by decide

theorem test_decode_nop_ch1 : decode 0x00000100#32 = .error .channelOperand := by decide

theorem test_decode_analyze_ch1 : decode 0x00000101#32 = .error .channelOperand := by decide

theorem test_table_word_longer : decodeTableWord 40 (2 ^ 32) = none := by decide

/-! ### States -/

/-- After reset, with the given events to come. -/
def fresh (events : List Event) : State := { State.reset with pending := events }

/-- The setting of 95_test_vectors.md for `SELECT` and `SHAPE`: `SAMPLE_RATE = 2000`, so `W = 64`, and `LEN = 64`. -/
def regs64 : Regs := { Regs.reset with sampleRate := 2000#32, norm := 32767#32, len := 64#32 }

/-- An idle engine with that configuration. -/
def ready (events : List Event) : State := { fresh events with regs := regs64 }

/-- An idle engine with the configuration given. -/
def withRegs (g : Regs) : State := { fresh [] with regs := g }

/-- The same with two channels. -/
def stereo (events : List Event) : State := { fresh events with regs := { regs64 with channels := 2#32 } }

/-- The same with one channel and a window longer than `W`. -/
def long (events : List Event) : State := { fresh events with regs := { regs64 with len := 65#32 } }

/-- After reset, with the smallest legal `N_MAX` and one more address bit than the map needs. -/
def small (events : List Event) : State :=
  { fresh events with params := { withCapacity 2 with idValue := 7#32, addrExtra := 1 } }

/-- An engine with `ANALYZE` in flight. -/
def busy (events : List Event) : State := { ready events with seq := .busy 0x00000001#32 }

/-- An engine with a bad configuration (`SAMPLE_RATE = 0`) and an error recorded. -/
def erred (events : List Event) : State :=
  { fresh events with status := { done := true, err := true, errCode := 2#4 } }

/-- A state after a step, or the state before it where the step stops. -/
def after (o : Host.Outcome State Fault Refusal) (s : State) : State :=
  match o with
  | .next t => t
  | .fault _ => s
  | .refused _ => s

/-- A one-channel window of the given PCM words, `n` frames long. -/
def window (n : Nat) (words : List Word) : State :=
  { fresh [] with
    regs := { regs64 with len := BitVec.ofNat 32 n }
    mem := (words.zipIdx).foldl (fun m p => putWord m (pcmWordAddr p.2) p.1) [] }

/-- A state with the given bins of `SPEC[0]` stored, and the window length that ends after them. -/
def bins (ws : List Word) : State :=
  { fresh [] with
    regs := { regs64 with sampleRate := 1000#32, periodMs := 20#32, floorHz := 0#32, len := BitVec.ofNat 32 (2 * ws.length) }
    mem := putBins .ch0 0 ws [] }

/-- A state with the candidates given. -/
def cands (d : Cand) : State := { ready [] with cand := { ch0 := d, ch1 := Cand.reset } }

/-- Six bins at 50 Hz steps: NaN, −1.0, −0, 0.25, 0.5, 0.5. -/
def sixBins : State :=
  bins [0x7FC00000#32, 0xBF800000#32, 0x80000000#32, 0x3E800000#32, 0x3F000000#32, 0x3F000000#32]

/-- Two channels of two frames, lane 1 as given. -/
def twoLanes (r0 r1 : Half) : State :=
  { window 2 [r0 ++ 2#16, r1 ++ 4#16] with regs := { regs64 with channels := 2#32, len := 2#32 } }

/-! ### The commands -/

/-- R119: from reset, `NOP` leaves `STATUS` at 0x00000002. -/
theorem test_nop : statusWord (after (step (State.reset.withFetchWord 32 0x00000000)) State.reset) = 0x00000002#32 := by
  decide

/-- V-ERR-1: `NOP` is accepted with `SAMPLE_RATE = 0`. -/
theorem test_nop_accepted : check State.reset 0x00000000#32 = none := by decide

/-- A constant window of two full-scale samples: `M[0] = 2·|1 + 1| / 2 = 2.0`. -/
theorem test_spectrum_constant :
    specBin (after (exec (.spectrum .ch0) (window 2 [0x7FFF7FFF#32])) State.reset) .ch0 0 = 0x40000000#32 := by
  decide +kernel

/-- The window `1, 0, −1, 0`: `X[1] = 2`, so `M[1] = 1.0`. -/
theorem test_spectrum_tone :
    specBin (after (exec (.spectrum .ch0) (window 4 [0x00007FFF#32, 0x00008001#32])) State.reset) .ch0 1 =
      0x3F800000#32 := by
  decide +kernel

/-- V-SEL-7 and V-SEL-3 in small: with `F(k) = 50·k` all ten bins are low band; NaN, −1.0 and −0 do not qualify, and the
first of two equal bins wins. -/
theorem test_select_low :
    (selectBands (bins [0x7FC00000#32, 0xBF800000#32, 0x80000000#32, 0x3E800000#32, 0x3F000000#32, 0x3F000000#32,
      0#32, 0#32, 0#32, 0#32]) .ch0) =
      { hiF := 0#32, hiA := 0#32, loF := 0x43480000#32, loA := 0x3F000000#32 } := by
  decide +kernel

/-- V-SEL-17: with `FLOOR_HZ = 0`, bin 0 alone gives a low-band candidate of frequency 0. -/
theorem test_select_dc :
    (selectBands (bins [0x40A00000#32, 0#32, 0#32, 0#32, 0#32, 0#32, 0#32, 0#32, 0#32, 0#32]) .ch0) =
      { hiF := 0#32, hiA := 0#32, loF := 0#32, loA := 0x40A00000#32 } := by
  decide +kernel

/-- V-SHP-23: 781.25 Hz clamps to 1.0, 187.5 Hz to the tight ceiling. -/
theorem test_shape_ceilings :
    (after (exec (.shape .ch0) (cands (Cand.mk 0x44435000#32 0x3F000000#32 0x433B8000#32 0x3F000000#32)))
      State.reset).result.ch0 =
      { freqHigh := 0x44435000#32, ampHigh := 0x3F800000#32, freqLow := 0x433B8000#32, ampLow := 0x3DCCCCCD#32 } := by
  decide +kernel

/-- V-SHP-19 and V-SHP-3: a subnormal product is kept; −0 is a sentinel. -/
theorem test_shape_subnormal_and_sentinel :
    (after (exec (.shape .ch0) (cands (Cand.mk 0x447A0000#32 0x00000001#32 0x80000000#32 0x3F333333#32)))
      State.reset).result.ch0 =
      { freqHigh := 0x447A0000#32, ampHigh := 0x0000000A#32, freqLow := 0x43200000#32, ampLow := 0#32 } := by
  decide +kernel

/-- The tone above is bin 1 of four at 2000 Hz: 500 Hz, low band, `10·1.0` clamps to 1.0 (R185, R159). -/
theorem test_analyze_tone :
    (after (exec .analyze (window 4 [0x00007FFF#32, 0x00008001#32])) State.reset).result.ch0 =
      { freqHigh := 0x43A00000#32, ampHigh := 0#32, freqLow := 0x43FA0000#32, ampLow := 0x3F800000#32 } := by
  decide +kernel

/-- R190: a window of two frames has no selectable bin, and gives the defaults. -/
theorem test_analyze_short :
    (after (exec .analyze (window 2 [0x7FFF7FFF#32])) State.reset).result.ch0 =
      { freqHigh := 0x43A00000#32, ampHigh := 0#32, freqLow := 0x43200000#32, ampLow := 0#32 } := by
  decide +kernel

/-! ### The port -/

/-- V-ERR-9 to V-ERR-12: codes 2, 3, 4 and 4. -/
theorem test_checks :
    check (ready []) 0x00000102#32 = some .request ∧ check (ready []) 0x00000007#32 = some .illegal ∧
      check (long []) 0x00000001#32 = some .length ∧
      check (withRegs { regs64 with len := 0#32 }) 0x00000003#32 = some .length := by
  decide +kernel

/-- V-ERR-6, V-ERR-7, V-ERR-5: `RES_CEIL` just above 1.0, `RES_CEIL = −0`, `GAIN = +∞`. -/
theorem test_configOk_refuses :
    configOk (withRegs { regs64 with resCeil := 0x3F800001#32 }) = false ∧
      configOk (withRegs { regs64 with resCeil := 0x80000000#32 }) = false ∧
      configOk (withRegs { regs64 with gain := 0x7F800000#32 }) = false ∧ configOk (ready []) = true := by
  decide +kernel

/-- V-ERR-2: the rejection reads 0x00000016. -/
theorem test_rejection : statusWord (after (step (fresh [wr 0x00C 0x00000001#32])) State.reset) = 0x00000016#32 := by
  decide +kernel

/-- V-ERR-20: from `STATUS = 0x00000002`, acceptance reads 0x00000001. -/
theorem test_acceptance :
    statusWord (after (step { ready [wr 0x00C 0x00000004#32] with
      status := { done := true, err := false, errCode := 0#4 } }) State.reset) = 0x00000001#32 := by
  decide +kernel

/-- V-ERR-19: after a BusyWrite and the completion, `STATUS` reads 0x00000056. -/
theorem test_busyWrite :
    statusWord (complete (after (step (busy [wr 0x020 0x00000020#32])) State.reset)) = 0x00000056#32 := by
  decide +kernel

/-- R45, R46, R47: 44100 Hz at 32 ms gives `W = 1411`; at reset `FLOOR_BIN = 1`, `CEIL_BIN = 40`. -/
theorem test_derived :
    windowSize { State.reset with regs := { Regs.reset with sampleRate := 44100#32 } } = 1411 ∧
      floorBin State.reset = 1 ∧ ceilBin State.reset = 40 := by
  decide +kernel

/-- R6, R24: `ID` reads the parameter `ID_VALUE`. -/
theorem test_id : readLocation (small []) .id = 7#32 ∧ readLocation State.reset .id = 0x4A434631#32 := by decide

/-- R6, R53: with `ADDR_BITS = 19` the address 0x40004 is its own offset, with 18 it is that of `CTRL`. -/
theorem test_portOffset : portOffset (small []).params 0x40004 = 0x40004 ∧ portOffset Config.reference 0x40004 = 0x004 := by
  decide

/-! ### The window stream -/

/-- R75 at 15 Hz and 32 ms: `require` holds, `W = round_he(480, 1000) = 0`, and the `ANALYZE` of the first round is
rejected with ConfigurationError (code 1). -/
theorem test_stream_no_window :
    statusWord (after (Host.Core.run Sys2Proof.core 7 (fresh (hostStream 4096 [1#8, 0#8] 1#32 15#32 32#32 fun _ => 0)))
      State.reset) = 0x00000016#32 := by
  decide +kernel

/-- R75 with `C = 3`: `require` fails and the engine reports ConfigurationError. -/
theorem test_stream_no_channel :
    statusWord (after (Host.Core.run Sys2Proof.core 6 (fresh (hostStream 4096 [1#8, 0#8] 3#32 2000#32 32#32 fun _ => 0)))
      State.reset) = 0x00000016#32 := by
  decide +kernel

/-- R75, R191: three one-channel frames at `W = 2` are two steps, the second one frame long, from `raw[2]`. -/
theorem test_stream_last_window :
    streamLoad 4096 [1#16, 2#16, 3#16] 1 2 1 = [wr 0x10000 0x00000003#32, wr 0x020 1#32] := by decide

/-! ### Witnesses: states and operands that meet the hypotheses of each obligation, clause by clause -/

theorem witness_EncodeThenDecode : (Instr.shape .ch1).wellFormed = true ∧ Instr.nop.wellFormed = true := by decide

theorem witness_IllegalWordsExactly :
    (∀ w : Word, (fresh [wr 0x00C w]).seq = .idle ∧ (fresh [wr 0x00C w]).pending = wr 0x00C w :: []) ∧
      decode 0x00000200#32 = .error .reservedBits ∧ decode 0xFFFFFFFF#32 = .error .reservedBits ∧
      decode 0x00000010#32 = .error .reservedBits ∧ decode 0x00000005#32 = .error .reservedOp ∧
      decode 0x0000000F#32 = .error .reservedOp ∧ decode 0x00000100#32 = .error .channelOperand ∧
      decode 0x00000101#32 = .error .channelOperand :=
  ⟨fun _ => ⟨rfl, rfl⟩, by decide⟩

theorem witness_CmdWriteAcceptsOrRejects :
    (∀ w : Word, (busy [wr 0x00C w]).pending = wr 0x00C w :: [] ∧ (busy [wr 0x00C w]).seq = .busy 1#32) ∧
      (∀ w : Word, (ready [wr 0x00C w]).pending = wr 0x00C w :: [] ∧ (ready [wr 0x00C w]).seq = .idle) ∧
      check (ready [wr 0x00C 0x00000001#32]) 0x00000001#32 = none ∧
      check (ready [wr 0x00C 0x00000103#32]) 0x00000103#32 = some .request ∧
      check (ready [wr 0x00C 0x00000009#32]) 0x00000009#32 = some .illegal ∧
      (fresh [wr 0x00C 4#32]).seq = .idle ∧ (fresh [wr 0x00C 4#32]).pending = wr 0x00C 4#32 :: [] ∧
      check (fresh [wr 0x00C 4#32]) 4#32 = some .configuration ∧
      (long [wr 0x00C 2#32]).seq = .idle ∧ (long [wr 0x00C 2#32]).pending = wr 0x00C 2#32 :: [] ∧
      check (long [wr 0x00C 2#32]) 2#32 = some .length :=
  ⟨fun _ => ⟨rfl, rfl⟩, fun _ => ⟨rfl, rfl⟩, by decide +kernel⟩

theorem witness_ChecksInPriorityOrder :
    decode 0x00000007#32 = .error .reservedOp ∧ decode 0#32 = .ok .nop ∧
      (decode 0x00000102#32 = .ok (.spectrum .ch1) ∧ Instr.spectrum .ch1 ≠ .nop ∧ configOk (fresh []) = false) ∧
      (configOk (ready []) = true ∧ (ready []).regs.channels.toNat ≤ Channel.ch1.index) ∧
      (decode 0x00000002#32 = .ok (.spectrum .ch0) ∧ configOk (long []) = true ∧
        Channel.ch0.index < (long []).regs.channels.toNat ∧
        ¬ (1 ≤ (long []).regs.len.toNat ∧ (long []).regs.len.toNat ≤ windowSize (long []))) ∧
      (Channel.ch0.index < (ready []).regs.channels.toNat ∧ 1 ≤ (ready []).regs.len.toNat ∧
        (ready []).regs.len.toNat ≤ windowSize (ready [])) ∧
      (decode 0x00000104#32 = .ok (.shape .ch1) ∧ configOk (stereo []) = true ∧
        Channel.ch1.index < (stereo []).regs.channels.toNat) := by
  decide +kernel

theorem witness_OnlyNopRunsWithoutSampleRate :
    decode 0#32 = .ok .nop ∧ decode 0x00000104#32 = .ok (.shape .ch1) ∧ Instr.shape .ch1 ≠ .nop ∧
      (fresh []).regs.sampleRate = 0#32 := by
  decide

theorem witness_WritesWhileBusy :
    (∀ (w : Width) (a : Nat) (v : Word), (busy [.host (.write w a v)]).seq = .busy 1#32 ∧
        (busy [.host (.write w a v)]).pending = .host (.write w a v) :: []) ∧
      ([0x000, 0x00C, 0x010, 0x0DC, 0x10000, 0x3FFFC].all fun a =>
        a % 4 == 0 && portOffset Config.reference a != 0x004 && portOffset Config.reference a != 0x008) = true ∧
      portOffset Config.reference 0x004 = 0x004 ∧ portOffset Config.reference 0x40008 = 0x008 ∧
      Width.byte ≠ .word ∧ Width.half ≠ .word ∧ 0x003 % 4 ≠ 0 ∧ 0x3FFFF % 4 ≠ 0 :=
  ⟨fun _ _ _ => ⟨rfl, rfl⟩, by decide⟩

theorem witness_ReturnFromError :
    (erred [wr 0x008 4#32]).pending = wr 0x008 0x00000004#32 :: [] ∧
      (erred clearProgram).pending = clearProgram ++ [] ∧ (erred [wr 0x00C 0#32]).seq = .idle ∧
      check (erred [wr 0x00C 0#32]) 0#32 = none ∧ (erred [wr 0x00C 0#32]).pending = wr 0x00C 0#32 :: [] := by
  decide

theorem witness_NestedErrorsKeepTheNewest :
    ((erred [wr 0x00C 1#32]).status.err = true ∧ (erred [wr 0x00C 1#32]).seq = .idle ∧
        check (erred [wr 0x00C 1#32]) 1#32 = some .configuration ∧
        (erred [wr 0x00C 1#32]).pending = wr 0x00C 1#32 :: []) ∧
      (busy [wr 0x3FFFC 0#32, .engineTurn]).seq = .busy 1#32 ∧ decode 1#32 = .ok .analyze ∧ 0x3FFFC < 2 ^ 18 ∧
      0x3FFFC % 4 = 0 ∧ 0x3FFFC ≠ 0x004 ∧ 0x3FFFC ≠ 0x008 ∧
      (busy [wr 0x3FFFC 0#32, .engineTurn]).pending = wr 0x3FFFC 0#32 :: .engineTurn :: [] := by
  decide

/-- A rejection, an acceptance, a BusyWrite, a `CTRL` write and a `STATUS` write. -/
theorem witness_IrqFollowsItsSources :
    ((fresh [wr 0x00C 1#32]).seq = .idle ∧ check (fresh [wr 0x00C 1#32]) 1#32 = some .configuration ∧
        (fresh [wr 0x00C 1#32]).pending = wr 0x00C 1#32 :: []) ∧
      ((erred [wr 0x00C 0#32]).seq = .idle ∧ check (erred [wr 0x00C 0#32]) 0#32 = none ∧
        (erred [wr 0x00C 0#32]).pending = wr 0x00C 0#32 :: []) ∧
      ((busy [wr 0x00C 0#32]).seq = .busy 1#32 ∧ 0x00C % 4 = 0 ∧ portOffset (busy [wr 0x00C 0#32]).params 0x00C ≠ 0x004 ∧
        portOffset (busy [wr 0x00C 0#32]).params 0x00C ≠ 0x008 ∧ (busy [wr 0x00C 0#32]).pending = wr 0x00C 0#32 :: []) ∧
      (erred [wr 0x004 3#32]).pending = wr 0x004 3#32 :: [] ∧ (erred [wr 0x008 6#32]).pending = wr 0x008 6#32 :: [] := by
  decide

theorem witness_BadAccessChangesNothing :
    (∀ x : Txn, (busy [.host x]).pending = .host x :: []) ∧ (Txn.read .half 0x00C).width ≠ .word ∧
      (Txn.write .word 0x001 1#32).addr % 4 ≠ 0 ∧ (Txn.read .word 0x3FFFF).addr % 4 ≠ 0 :=
  ⟨fun _ => rfl, by decide⟩

/-- Both ends of every range, for the smallest and the reference `N_MAX`. -/
theorem witness_UnmappedOffsets :
    (∀ (a : Nat) (v : Word), (small [rd a]).pending = rd a :: [] ∧ (small [wr a v]).pending = wr a v :: [] ∧
        (small [wr a v]).seq = .idle ∧ (small [rd a]).params.nMax = 2 ∧ (small [rd a]).params.addrBits = 19 ∧
        (busy [wr a v]).pending = wr a v :: [] ∧ (busy [wr a v]).seq = .busy 1#32 ∧
        (busy [wr a v]).params = Config.reference) ∧
      (small []).params.wellFormed = true ∧ Config.reference.wellFormed = true ∧
      (∀ a ∈ [0x058, 0x07C, 0x0A0, 0x0BC, 0x0E0, 0xFFFC, 0x10008, 0x1FFFC, 0x20004, 0x27FFC, 0x28004, 0x2FFFC, 0x30000,
        0x3FFFC, 0x40000, 0x7FFFC], a % 4 = 0 ∧ a < 2 ^ 19 ∧ locate 2 a = .unmapped) ∧
      ∀ a ∈ [0x14000, 0x1FFFC, 0x22000, 0x27FFC, 0x2A000, 0x2FFFC], locate 4096 a = .unmapped :=
  ⟨fun _ _ => ⟨rfl, rfl, rfl, rfl, rfl, rfl, rfl, rfl⟩, by decide +kernel⟩

theorem witness_MapNamesEveryLocation :
    (withCapacity 16384).wellFormed = true ∧ offsetOf (.pcm 16383) = some 0x1FFFC ∧
      offsetOf (.spec .ch1 8191) = some 0x2FFFC ∧ offsetOf (.spec .ch0 0) = some 0x20000 ∧
      offsetOf (.cand .ch1 .loA) = some 0x09C ∧ offsetOf (.result .ch1 .ampLow) = some 0x0DC ∧ 8191 < 16384 / 2 := by
  decide

theorem witness_ConfigRegistersReadBack :
    (∀ (r : CfgReg) (v : Word), (ready [wr (cfgOffset r) v, rd (cfgOffset r)]).seq = .idle ∧
        (ready [wr (cfgOffset r) v, rd (cfgOffset r)]).pending = wr (cfgOffset r) v :: rd (cfgOffset r) :: []) ∧
      CfgReg.hiDefault ≠ .channels :=
  ⟨fun _ _ => ⟨rfl, rfl⟩, by decide⟩

theorem witness_CandidateRegistersReadBack :
    (∀ (o : Nat) (v : Word), (ready [wr o v]).seq = .idle ∧ (ready [wr o v]).pending = wr o v :: [] ∧
        (ready [wr o v, rd o]).seq = .idle ∧ (ready [wr o v, rd o]).pending = wr o v :: rd o :: []) ∧
      offsetOf (.cand .ch0 .hiF) = some 0x080 ∧ offsetOf (.cand .ch1 .loA) = some 0x09C :=
  ⟨fun _ _ => ⟨rfl, rfl, rfl, rfl⟩, rfl, rfl⟩

theorem witness_PcmWordPacking :
    (∀ (j : Nat) (v : Word), (ready [wr (pcmWordAddr j) v]).seq = .idle ∧
        (ready [wr (pcmWordAddr j) v]).pending = wr (pcmWordAddr j) v :: [] ∧
        (ready [wr (pcmWordAddr j) v]).params = Config.reference) ∧
      Config.reference.wellFormed = true ∧ 0 < Config.reference.nMax ∧ 4095 < Config.reference.nMax :=
  ⟨fun _ _ => ⟨rfl, rfl, rfl⟩, by decide⟩

theorem witness_SpectrumRamReadBack :
    (∀ (c : Channel) (k : Nat) (v : Word), (ready [wr (specAddr c k) v]).seq = .idle ∧
        (ready [wr (specAddr c k) v]).pending = wr (specAddr c k) v :: [] ∧
        (ready [wr (specAddr c k) v]).params = Config.reference) ∧
      Config.reference.wellFormed = true ∧ 0 < Config.reference.nMax / 2 ∧ 2047 < Config.reference.nMax / 2 :=
  ⟨fun _ _ _ => ⟨rfl, rfl, rfl⟩, by decide⟩

theorem witness_ReadOnlyRegistersIgnoreWrites :
    (∀ (o : Nat) (v : Word), (ready [wr o v]).seq = .idle ∧ (ready [wr o v]).pending = wr o v :: []) ∧
      offsetOf .id = some 0x000 ∧ offsetOf .wsize = some 0x048 ∧ offsetOf .floorBin = some 0x04C ∧
      offsetOf .ceilBin = some 0x050 ∧ offsetOf .nmax = some 0x054 ∧ offsetOf (.result .ch0 .freqHigh) = some 0x0C0 ∧
      offsetOf (.result .ch1 .ampLow) = some 0x0DC :=
  ⟨fun _ _ => ⟨rfl, rfl⟩, rfl, rfl, rfl, rfl, rfl, rfl, rfl⟩

/-- A read while busy, a sub-word one among them; aligned reads while idle, at both ends of the map and past it; and a
legal write. -/
theorem witness_ReadsHaveNoSideEffects :
    (∀ (w : Width) (a : Nat), (busy [.host (.read w a)]).pending = .host (.read w a) :: []) ∧
      (∀ a : Nat, (ready [rd a]).seq = .idle ∧ (ready [rd a]).pending = rd a :: []) ∧
      ([0x000, 0x054, 0x080, 0x0DC, 0x10000, 0x13FFC, 0x20000, 0x29FFC, 0x3FFFC, 0x40000].all fun a => a % 4 == 0) = true ∧
      (Txn.write .word 0x00C 9#32).wellFormed = true ∧
      (busy [.host (.write .word 0x00C 9#32)]).pending = .host (.write .word 0x00C 9#32) :: [] :=
  ⟨fun _ _ => rfl, fun _ => ⟨rfl, rfl⟩, by decide⟩

theorem witness_ReadsWhileBusy :
    (∀ a : Nat, (busy [rd a]).seq = .busy 1#32 ∧ (busy [rd a]).pending = rd a :: [] ∧ (busy [rd a]).params.nMax = 4096) ∧
      (∀ a ∈ [0x13FFC, 0x21FFC, 0x080, 0x0DC, 0x014, 0x07C], a % 4 = 0 ∧ a < 2 ^ 18) ∧
      locate 4096 0x13FFC = .pcm 4095 ∧ locate 4096 0x21FFC = .spec .ch0 2047 ∧ locate 4096 0x080 = .cand .ch0 .hiF ∧
      locate 4096 0x0DC = .result .ch1 .ampLow ∧ locate 4096 0x014 = .cfg .norm ∧ locate 4096 0x07C = .unmapped :=
  ⟨fun _ => ⟨rfl, rfl, rfl⟩, by decide⟩

theorem witness_StatusReadAndWrite :
    (erred [wr 0x008 2#32]).pending = wr 0x008 2#32 :: [] ∧ (busy [wr 0x008 4#32]).pending = wr 0x008 4#32 :: [] := by
  decide

theorem witness_CtrlStoresTheEnables :
    (0x7FFFFFFF#32).getLsbD 31 = false ∧ (busy [wr 0x004 0x7FFFFFFF#32]).pending = wr 0x004 0x7FFFFFFF#32 :: [] := by
  decide

theorem witness_SoftResetKeepsTheRams :
    (0x80000003#32).getLsbD 31 = true ∧ (busy [wr 0x004 0x80000003#32]).pending = wr 0x004 0x80000003#32 :: [] := by
  decide

theorem witness_HardwareReset : (busy [.hardReset]).pending = .hardReset :: [] := by decide

theorem witness_RoundHalfEven : 0 < 2 ∧ (3 : Int) ≠ roundHe 5 2 := by decide

theorem witness_RationalsRoundToNearestEven : 0 < 1 ∧ (rneRat 1 1).toNat = 0x3F800000 := by decide +kernel

/-- The largest finite value and the least negative one; a NaN; infinity and a zero; an infinity and a finite value, and
two infinities. -/
theorem witness_ProductsRoundToNearestEven :
    (isFinite 0x7F7FFFFF#32 = true ∧ isFinite 0x80000001#32 = true ∧ isFinite 0x80000000#32 = true) ∧
      isNaN 0x7FC00000#32 = true ∧ (magBits 0xFF800000#32 = infBits ∧ magBits 0x80000000#32 = 0) ∧
      (0 < magBits 0x00000001#32 ∧ magBits 0x00000001#32 ≤ infBits) ∧
      (0 < magBits 0x7F800000#32 ∧ magBits 0x7F800000#32 ≤ infBits) := by
  decide

theorem witness_BinFrequencyAndBands :
    0 < (ready []).regs.len.toNat ∧ 0 ≤ 31 ∧ inHighBand (ready []) 31 = true ∧ inLowBand (ready []) 2 = true := by
  decide +kernel

theorem witness_NopCompletes :
    (fresh [wr 0x00C 0x00000000#32, .engineTurn]).seq = .idle ∧
      (fresh [wr 0x00C 0x00000000#32, .engineTurn]).pending = wr 0x00C 0x00000000#32 :: .engineTurn :: [] := by
  decide

theorem witness_SilentWindowGivesZeroBins :
    (fresh []).regs.norm = 0#32 ∧
      ∀ i < (window 4 [0#32, 0#32]).regs.len.toNat,
        readHalf (window 4 [0#32, 0#32]) (pcmAddr (i * (window 4 [0#32, 0#32]).regs.channels.toNat + 0)) = 0#16 := by
  decide +kernel

theorem witness_SpectrumReadsOnlyItsLane :
    (twoLanes 1#16 3#16).mem ≠ (twoLanes 9#16 8#16).mem ∧ (twoLanes 1#16 3#16).regs = (twoLanes 9#16 8#16).regs ∧
      (twoLanes 1#16 3#16).params = (twoLanes 9#16 8#16).params ∧
      ∀ i < 2, readHalf (twoLanes 1#16 3#16) (pcmAddr (i * 2 + Channel.ch0.index)) =
        readHalf (twoLanes 9#16 8#16) (pcmAddr (i * 2 + Channel.ch0.index)) := by
  decide +kernel

/-- A window, with one value that conforms to the tolerance `2^130` and one that does not. -/
theorem witness_ConformingValuesExactly :
    (1 ≤ 32767 ∧ 32767 < 2 ^ 32 ∧ [(32767 : Int), 32767].length ≤ 16384 ∧
        2 * (0 + 1) ≤ [(32767 : Int), 32767].length ∧ [(32767 : Int), 32767].all (fun x => -32768 ≤ x ∧ x ≤ 32767)) ∧
      conforms (2 ^ 130) [32767, 32767] 32767 0 0x40000000#32 = true ∧
      conforms (2 ^ 130) [32767, 32767] 32767 0 0x3F800000#32 = false := by
  decide +kernel

theorem witness_ExactMagnitudeIsNearest :
    1 ≤ 1 ∧ 1 < 2 ^ 32 ∧ [(32767 : Int), -32768].length ≤ 16384 ∧ 2 * (0 + 1) ≤ [(32767 : Int), -32768].length ∧
      ∀ x ∈ [(32767 : Int), -32768], -32768 ≤ x ∧ x ≤ 32767 := by
  decide

/-- Bin 4 is the low band's peak; no bin is high band. -/
theorem witness_SelectPicksTheBandPeaks :
    isBandPeak sixBins .ch0 inLowBand 4 ∧ (∃ k, inBandList sixBins .ch0 inLowBand k) ∧
      ∀ k, ¬ inBandList sixBins .ch0 inHighBand k := by
  have six : binCount sixBins = 6 := by decide
  have low : ∀ j < 6, posF (specBin sixBins .ch0 j) = true →
      unitsOf (specBin sixBins .ch0 j) < unitsOf (specBin sixBins .ch0 4) ∨
        (unitsOf (specBin sixBins .ch0 j) = unitsOf (specBin sixBins .ch0 4) ∧ 4 ≤ j) := by decide +kernel
  have high : ∀ j < 6, inHighBand sixBins j = false := by decide +kernel
  have mem4 : inBandList sixBins .ch0 inLowBand 4 := by unfold inBandList; decide +kernel
  refine ⟨⟨mem4, fun j hj => low j (six ▸ hj.2.2.1) hj.2.2.2.1⟩, ⟨4, mem4⟩, fun k hk => ?_⟩
  have h := high k (six ▸ hk.2.2.1)
  rw [hk.2.2.2.2] at h
  cases h

theorem witness_NoBinGivesSentinels :
    (∀ k < (bins [0#32, 0#32, 0#32]).regs.len.toNat / 2, posF (specBin (bins [0#32, 0#32, 0#32]) .ch0 k) = false) ∧
      (withRegs { regs64 with len := 3#32 }).regs.len.toNat ≤
        2 * floorBin (withRegs { regs64 with len := 3#32 }) + 1 := by
  decide +kernel

/-- The two sentinels; both ends of the sub-range and just above it; a NaN frequency; a NaN product, a product of 0, one
at the ceiling and one below it. -/
theorem witness_ShapeBandRule :
    (0x80000000#32 ≠ 0x00000000#32) ∧
      (0x43200000#32 ≠ 0x00000000#32 ∧ isNaN 0x43200000#32 = false ∧
        ((160 : Nat) * 2 ^ 149 : Int) ≤ unitsOf 0x43200000#32 ∧ unitsOf 0x43B40000#32 ≤ ((360 : Nat) * 2 ^ 149 : Int)) ∧
      ((360 : Nat) * 2 ^ 149 : Int) < unitsOf 0x43B44000#32 ∧ unitsOf 0x431C4000#32 < ((160 : Nat) * 2 ^ 149 : Int) ∧
      isNaN 0x7FC00000#32 = true ∧ isNaN 0x3DCCCCCD#32 = false ∧
      isNaN (mul32 0x7FC00000#32 0x41200000#32) = true ∧
      unitsOf (mul32 0x80000000#32 0x41200000#32) ≤ 0 ∧
      unitsOf 0x3F800000#32 ≤ unitsOf (mul32 0x3F800000#32 0x3F800000#32) ∧
      (0 < unitsOf (mul32 0x3D000000#32 0x41200000#32) ∧
        unitsOf (mul32 0x3D000000#32 0x41200000#32) < unitsOf 0x3F800000#32) := by
  decide +kernel

theorem witness_ShapedAmplitudesInRange : configOk (ready []) = true := by decide +kernel

theorem witness_ResonanceNeverExceedsItsCeiling :
    ∀ s : State, s = cands (Cand.mk 0x43B40000#32 0x3F800000#32 0x43200000#32 0x7F800000#32) →
      configOk s = true ∧ isNaN s.cand.ch0.loF = false ∧ isNaN s.cand.ch0.hiF = false ∧
        (s.regs.resLoHz.toNat * 2 ^ 149 : Int) ≤ unitsOf s.cand.ch0.loF ∧
        unitsOf s.cand.ch0.loF ≤ (s.regs.resHiHz.toNat * 2 ^ 149 : Int) ∧
        (s.regs.resLoHz.toNat * 2 ^ 149 : Int) ≤ unitsOf s.cand.ch0.hiF ∧
        unitsOf s.cand.ch0.hiF ≤ (s.regs.resHiHz.toNat * 2 ^ 149 : Int) := by
  rintro s rfl
  decide +kernel

theorem witness_SelectedResultsAreParams :
    (ready []).params.wellFormed = true ∧ configOk (ready []) = true ∧ lengthOk (ready []) = true := by
  decide +kernel

theorem witness_AnalyzeWritesDeclaredChannels :
    (ready []).regs.channels.toNat ≤ Channel.ch1.index ∧ Channel.ch0.index < (ready []).regs.channels.toNat ∧
      (ready []).regs.channels = 1#32 ∧ specAddr .ch0 ((ready []).regs.len.toNat / 2) ≤ 0x20080 := by
  decide

theorem witness_AnalyzeEqualsTheStages :
    (ready []).seq = .idle ∧ configOk (ready []) = true ∧ lengthOk (ready []) = true ∧
      configOk (stereo []) = true ∧ lengthOk (stereo []) = true := by
  decide +kernel

theorem witness_SilentWindowGivesTheDefaults :
    (window 4 [0#32, 0#32]).params.wellFormed = true ∧ configOk (window 4 [0#32, 0#32]) = true ∧
      lengthOk (window 4 [0#32, 0#32]) = true ∧
      (∀ i < (window 4 [0#32, 0#32]).regs.len.toNat,
        readHalf (window 4 [0#32, 0#32]) (pcmAddr (i * (window 4 [0#32, 0#32]).regs.channels.toNat + 0)) = 0#16) ∧
      (withRegs { regs64 with norm := 0#32 }).params.wellFormed = true ∧
      configOk (withRegs { regs64 with norm := 0#32 }) = true ∧ lengthOk (withRegs { regs64 with norm := 0#32 }) = true ∧
      (withRegs { regs64 with norm := 0#32 }).regs.norm = 0#32 := by
  decide +kernel

theorem witness_ChannelOrderIsNotObservable :
    (window 4 [0x00007FFF#32, 0x00008001#32]).params.wellFormed = true ∧
      Memory.wf 4096 (window 4 [0x00007FFF#32, 0x00008001#32]).mem = true ∧
      configOk (window 4 [0x00007FFF#32, 0x00008001#32]) = true ∧
      lengthOk (window 4 [0x00007FFF#32, 0x00008001#32]) = true := by
  decide +kernel

theorem witness_StepRunsTheDecodedCommand :
    ((busy []).seq = .busy 1#32 ∧ decode 1#32 = .ok .analyze ∧ (busy []).pending = []) ∧
      (busy [.engineTurn]).seq = .busy 1#32 ∧ (busy [.engineTurn]).pending = .engineTurn :: [] := by
  decide

/-- The invariant holds with a command in flight, and that command completes. -/
theorem witness_StepKeepsTheInvariant :
    State.Inv { busy [.engineTurn] with seq := .busy 0x00000004#32 } ∧
      ∃ t, step { busy [.engineTurn] with seq := .busy 0x00000004#32 } = .next t :=
  ⟨⟨rfl, rfl, rfl, by decide +kernel, ⟨rfl, rfl⟩⟩, ⟨_, rfl⟩⟩

theorem witness_NoStepStops : State.Inv (busy []) := ⟨rfl, rfl, rfl, by decide +kernel, ⟨rfl, rfl⟩⟩

/-- Parameters other than the reference ones. -/
theorem witness_EveryRunFromResetIsSafe :
    (withCapacity 2).wellFormed = true ∧ (Params.mk 16384 (.bounded 5) 0#32 14).wellFormed = true := by decide

theorem witness_BusyTrafficCannotChangeTheCommand :
    (busy []).seq = .busy 1#32 ∧ decode 1#32 = .ok .analyze ∧
      ∀ x ∈ [Txn.write .word 0x004 0x7FFFFFFF#32, .write .word 0x020 1#32, .write .half 0x004 0x80000000#32,
        .read .word 0x20000], noSoftReset (busy []).params x = true := by
  decide

/-- Each of the three: a completion of `SHAPE`, a soft reset and a hardware reset change a result register. -/
theorem witness_OnlyShapeAndAnalyzeWriteResults :
    ∀ s : State, s = { ready [] with result := { ch0 := RumbleParams.mk 1#32 2#32 3#32 4#32, ch1 := RumbleParams.reset } } →
      (∃ t, step { s with seq := .busy 0x00000004#32 } = .next t ∧ t.result ≠ s.result) ∧
        (∃ t, step { s with pending := [wr 0x004 0x80000000#32] } = .next t ∧ t.result ≠ s.result) ∧
        ∃ t, step { s with pending := [.hardReset] } = .next t ∧ t.result ≠ s.result := by
  rintro s rfl
  exact ⟨⟨_, rfl, by decide +kernel⟩, ⟨_, rfl, by decide +kernel⟩, ⟨_, rfl, by decide +kernel⟩⟩

/-- A window of one frame and one of the whole capacity, with the first, a whole and a short last step; and each way for
the configuration to be illegal, with a buffer of one frame. -/
theorem witness_StreamLoadsAndAnalyzesEachWindow :
    ((ready []).seq = .idle ∧ (ready []).params.nMax = 4096 ∧ 4096 ≤ 16384) ∧
      (1 ≤ roundHe ((1000#32).toNat * (1#32).toNat) 1000 ∧ roundHe ((1000#32).toNat * (1#32).toNat) 1000 = 1) ∧
      roundHe ((4096#32).toNat * (1000#32).toNat) 1000 = 4096 ∧
      (∀ m < 3, m < (5 + 2 - 1) / 2) ∧
      (3#32 ≠ 1#32 ∧ 3#32 ≠ 2#32) ∧ (0#32 ≠ 1#32 ∧ 0#32 ≠ 2#32) ∧
      roundHe ((15#32).toNat * (32#32).toNat) 1000 = 0 ∧ 4096 < roundHe ((4097#32).toNat * (1000#32).toNat) 1000 ∧
      (1#32).toNat ≤ (samplesOfBytes [1#8, 0#8]).length := by
  decide +kernel

end Sys2Proof.Tests
end

section
/-! Rounding: `round_he` (00_scope.md R10), `RNE32` and `mul32` (R9). -/

namespace Sys2Proof.Machine

/-! ### `round_he` -/

/-- What R10's rule amounts to: the error is less than half a unit, or exactly half of one and the result even. -/
theorem two_mul_abs_sub_roundHe (p : Nat) {q : Nat} (hq : 0 < q) :
    2 * |(p : Int) - roundHe p q * q| < q ∨ (2 * |(p : Int) - roundHe p q * q| = q ∧ roundHe p q % 2 = 0) := by
  have hp : (q * (p / q : Nat) + (p % q : Nat) : Int) = p := by exact_mod_cast Nat.div_add_mod p q
  have hr : p % q < q := Nat.mod_lt p hq
  have down : (p : Int) - (p / q : Nat) * q = (p % q : Nat) := by linarith
  have up : (p : Int) - (p / q + 1 : Nat) * q = -((q : Int) - (p % q : Nat)) := by push_cast at hp ⊢; linarith
  have downAbs : |(p : Int) - (p / q : Nat) * q| = (p % q : Nat) := by rw [down]; exact abs_of_nonneg (by omega)
  have upAbs : |(p : Int) - (p / q + 1 : Nat) * q| = q - (p % q : Nat) := by
    rw [up, abs_neg]; exact abs_of_nonneg (by omega)
  unfold roundHe
  split
  · rw [upAbs]; omega
  · split
    · rw [downAbs]; omega
    · split
      · rw [downAbs]; omega
      · rw [upAbs]; omega

/-- Settles O28: two different multiples of `q` are at least `q` apart, and the result's is at most `q/2` from `p`. -/
theorem roundHalfEven : Obligations.RoundHalfEven := by
  unfold Obligations.RoundHalfEven
  intro p q hq m hm
  have apart : (q : Int) ≤ |(p : Int) - roundHe p q * q| + |(p : Int) - m * q| := by
    have hone : 1 ≤ |m - roundHe p q| := Int.one_le_abs (sub_ne_zero.mpr hm)
    calc (q : Int) ≤ |m - roundHe p q| * q := le_mul_of_one_le_left (by positivity) hone
      _ = |((p : Int) - roundHe p q * q) - (p - m * q)| := by
        rw [← Nat.abs_cast q, ← abs_mul, Nat.abs_cast]; ring_nf
      _ ≤ _ := abs_sub _ _
  rcases two_mul_abs_sub_roundHe p hq with h | ⟨h, heven⟩ <;> omega

/-! ### Nearest values -/

theorem encUnits_cast_lt {a b : Nat} (h : a < b) : (encUnits a : ℝ) < encUnits b :=
  Nat.cast_lt.mpr (encUnits_lt_iff.mpr h)

theorem encUnits_cast_le {a b : Nat} (h : a ≤ b) : (encUnits a : ℝ) ≤ encUnits b :=
  Nat.cast_le.mpr (encUnits_le_iff.mpr h)

/-- Between two neighbouring values and not past their midpoint, the lower one is nearest; on the midpoint it is so
when it is even. -/
theorem lower_neighbour_nearest {r : ℝ} {f : Nat} (hf : (encUnits f : ℝ) ≤ r)
    (hmid : 2 * r < encUnits f + encUnits (f + 1) ∨ (2 * r = encUnits f + encUnits (f + 1) ∧ f % 2 = 0)) :
    ∀ e ≠ f, |r - encUnits f| < |r - encUnits e| ∨ (|r - encUnits f| = |r - encUnits e| ∧ f % 2 = 0) := by
  intro e he
  rw [abs_of_nonneg (sub_nonneg.mpr hf)]
  rcases Nat.lt_or_gt_of_ne he with h | h
  · have hlt := encUnits_cast_lt h
    rw [abs_of_pos (by linarith)]
    exact .inl (by linarith)
  · have hle := encUnits_cast_le (Nat.succ_le_of_lt h)
    have hfar : (encUnits e : ℝ) - r ≤ |r - encUnits e| := by rw [abs_sub_comm]; exact le_abs_self _
    rcases hmid with hlt | ⟨heq, heven⟩
    · exact .inl (by linarith)
    · have hnear : r - encUnits f ≤ |r - encUnits e| := by linarith
      exact hnear.lt_or_eq.imp_right fun h => ⟨h, heven⟩

/-- The mirror image: past the midpoint the upper neighbour is nearest, and on it when it is even. -/
theorem upper_neighbour_nearest {r : ℝ} {f : Nat} (hf : r < encUnits (f + 1))
    (hmid : encUnits f + encUnits (f + 1) < 2 * r ∨ (encUnits f + encUnits (f + 1) = 2 * r ∧ (f + 1) % 2 = 0)) :
    ∀ e ≠ f + 1, |r - encUnits (f + 1)| < |r - encUnits e| ∨
      (|r - encUnits (f + 1)| = |r - encUnits e| ∧ (f + 1) % 2 = 0) := by
  intro e he
  rw [abs_sub_comm r (encUnits (f + 1)), abs_of_pos (sub_pos.mpr hf)]
  rcases Nat.lt_or_gt_of_ne he with h | h
  · have hle := encUnits_cast_le (Nat.le_of_lt_succ h)
    have hfar : r - encUnits e ≤ |r - encUnits e| := le_abs_self _
    rcases hmid with hlt | ⟨heq, heven⟩
    · exact .inl (by linarith)
    · have hnear : encUnits (f + 1) - r ≤ |r - encUnits e| := by linarith
      exact hnear.lt_or_eq.imp_right fun h => ⟨h, heven⟩
  · have hlt := encUnits_cast_lt h
    rw [abs_sub_comm, abs_of_pos (by linarith)]
    exact .inl (by linarith)

/-! ### `RNE32` -/

/-- `cmp` compares the real `r / 2^149` with `u / 2^150`, as `rneBits` asks of it. -/
def ComparesWith (cmp : Nat → Ordering) (r : ℝ) : Prop := ∀ u : Nat, cmp u = compare (2 * r) (u : ℝ)

/-- A comparison of naturals is that of the reals they are, on any scale. -/
theorem compare_nat_eq_of_scale {a b : Nat} {x y c : ℝ} (hc : 0 < c) (ha : (a : ℝ) = x * c) (hb : (b : ℝ) = y * c) :
    compare a b = compare x y := by
  rcases lt_trichotomy x y with h | h | h
  · have hab : (a : ℝ) < b := by rw [ha, hb]; exact mul_lt_mul_of_pos_right h hc
    rw [compare_lt_iff_lt.mpr h, compare_lt_iff_lt.mpr (Nat.cast_lt.mp hab)]
  · have hab : (a : ℝ) = b := by rw [ha, hb, h]
    rw [compare_eq_iff_eq.mpr h, compare_eq_iff_eq.mpr (Nat.cast_injective hab)]
  · have hab : (b : ℝ) < a := by rw [ha, hb]; exact mul_lt_mul_of_pos_right h hc
    rw [compare_gt_iff_gt.mpr h, compare_gt_iff_gt.mpr (Nat.cast_lt.mp hab)]

/-- The search test of `floorBits`: is this value at most `r`? -/
theorem ComparesWith.ne_lt_iff {cmp : Nat → Ordering} {r : ℝ} (h : ComparesWith cmp r) (e : Nat) :
    cmp (2 * encUnits e) ≠ .lt ↔ (encUnits e : ℝ) ≤ r := by
  rw [h, Ne, compare_lt_iff_lt, not_lt, Nat.cast_mul, Nat.cast_ofNat]
  exact mul_le_mul_iff_of_pos_left two_pos

/-- The bitwise search keeps `r` between the value found so far and the one `2^i` encodings above it, and so ends at
the largest finite value that is at most `r`. -/
theorem floorBits_brackets {cmp : Nat → Ordering} {r : ℝ} (h : ComparesWith cmp r) (i e : Nat)
    (low : (encUnits e : ℝ) ≤ r) (high : e + 2 ^ i ≤ maxFiniteBits → r < encUnits (e + 2 ^ i)) :
    (encUnits (floorBits cmp i e) : ℝ) ≤ r ∧
      (floorBits cmp i e + 1 ≤ maxFiniteBits → r < encUnits (floorBits cmp i e + 1)) := by
  induction i generalizing e with
  | zero => exact ⟨low, high⟩
  | succ i ih =>
    have hsplit : e + 2 ^ i + 2 ^ i = e + 2 ^ (i + 1) := by rw [pow_succ]; omega
    simp only [floorBits, h.ne_lt_iff]
    split
    · next hc => exact ih _ hc.2 (by rwa [hsplit])
    · next hc => exact ih _ low fun hle => lt_of_not_ge fun hge => hc ⟨hle, hge⟩

/-- `rneBits` gives the value below `r` when `r` is not past the midpoint, the one above when it is, the even one on
it. -/
theorem rneBits_cases {cmp : Nat → Ordering} {r : ℝ} (h : ComparesWith cmp r) {f : Nat} (hf : floorBits cmp 31 0 = f) :
    (rneBits cmp = f ∧
      (2 * r < encUnits f + encUnits (f + 1) ∨ (2 * r = encUnits f + encUnits (f + 1) ∧ f % 2 = 0))) ∨
    (rneBits cmp = f + 1 ∧
      (encUnits f + encUnits (f + 1) < 2 * r ∨ (encUnits f + encUnits (f + 1) = 2 * r ∧ (f + 1) % 2 = 0))) := by
  have hmid := h (encUnits f + encUnits (f + 1))
  rw [Nat.cast_add] at hmid
  simp only [rneBits, hf]
  split
  · next hc => exact .inl ⟨rfl, .inl (compare_lt_iff_lt.mp (hmid.symm.trans hc))⟩
  · next hc => exact .inr ⟨rfl, .inl (compare_gt_iff_gt.mp (hmid.symm.trans hc))⟩
  · next hc =>
    have heq := compare_eq_iff_eq.mp (hmid.symm.trans hc)
    split
    · next heven => exact .inl ⟨rfl, .inr ⟨heq, heven⟩⟩
    · exact .inr ⟨rfl, .inr ⟨heq.symm, by omega⟩⟩

/-- `rneBits` rounds to nearest even every real that its comparison compares. -/
theorem nearestEven_rneBits {cmp : Nat → Ordering} {r : ℝ} (h : ComparesWith cmp r) (hr : 0 ≤ r) :
    NearestEven r (rneBits cmp) := by
  obtain ⟨f, hf⟩ : ∃ f, floorBits cmp 31 0 = f := ⟨_, rfl⟩
  have hmax : f ≤ maxFiniteBits := hf ▸ floorBits_le cmp 31 0 (Nat.zero_le _)
  obtain ⟨low, high⟩ := floorBits_brackets h 31 0 (by simpa using hr) (fun hle => absurd hle (by decide))
  rw [hf] at low high
  have hinf : infBits = maxFiniteBits + 1 := rfl
  have hcases := rneBits_cases h hf
  rw [NearestEven, hinf]
  rcases Nat.lt_or_eq_of_le hmax with hlt | rfl
  · -- the upper neighbour is finite, so `r` is below the overflow threshold
    have hupper := high hlt
    have hle := encUnits_cast_le hlt
    have htop := encUnits_cast_lt (Nat.lt_succ_self maxFiniteBits)
    rw [if_neg (by linarith)]
    rcases hcases with ⟨hb, hmid⟩ | ⟨hb, hmid⟩ <;> rw [hb]
    · exact ⟨hmax, fun e _ => lower_neighbour_nearest low hmid e⟩
    · exact ⟨hlt, fun e _ => upper_neighbour_nearest hupper hmid e⟩
  · -- the upper neighbour is +∞, and the largest finite encoding is odd, so a tie goes up
    have hodd : maxFiniteBits % 2 ≠ 0 := by decide
    rcases hcases with ⟨hb, hmid⟩ | ⟨hb, hmid⟩ <;> rw [hb]
    · have hlt := hmid.resolve_right fun h => hodd h.2
      rw [if_neg (by linarith)]
      exact ⟨hmax, fun e _ => lower_neighbour_nearest low hmid e⟩
    · have hle : (encUnits maxFiniteBits + encUnits (maxFiniteBits + 1) : ℝ) ≤ 2 * r :=
        hmid.elim le_of_lt fun h => h.1.le
      rw [if_pos (by linarith)]

theorem comparesWith_rational (p : Nat) {q : Nat} (hq : 0 < q) :
    ComparesWith (fun u => compare (p * 2 ^ 150) (u * q)) (2 ^ 149 * (p : ℝ) / q) := by
  intro u
  have hq' : (0 : ℝ) < q := Nat.cast_pos.mpr hq
  refine compare_nat_eq_of_scale hq' ?_ (Nat.cast_mul u q)
  push_cast
  field_simp
  ring

/-- Settles O30: the model's comparison is that of `p/q` itself. -/
theorem rationalsRoundToNearestEven : Obligations.RationalsRoundToNearestEven := by
  unfold Obligations.RationalsRoundToNearestEven
  intro p q hq
  rw [rneRat_toNat]
  exact nearestEven_rneBits (comparesWith_rational p hq) (by positivity)

/-! ### `mul32` -/

theorem comparesWith_product (x y : Nat) :
    ComparesWith (fun u => compare (x * y) (u * 2 ^ 148)) ((x : ℝ) * y / 2 ^ 149) := by
  intro u
  refine compare_nat_eq_of_scale (c := 2 ^ 148) (by positivity) ?_ (by push_cast; ring)
  push_cast
  ring

theorem magBits_withSign (s : Bool) {e : Nat} (h : e < 2 ^ 31) : magBits (withSign s e) = e := by
  cases s <;> simp only [magBits, withSign, BitVec.toNat_ofNat, if_true, if_false, Bool.false_eq_true] <;> omega

theorem signBit_withSign (s : Bool) {e : Nat} (h : e < 2 ^ 31) : signBit (withSign s e) = s := by
  rw [signBit_eq]
  cases s <;> simp only [withSign, BitVec.toNat_ofNat, if_true, if_false, Bool.false_eq_true, decide_eq_true_eq,
    decide_eq_false_iff_not] <;> omega

theorem isNaN_eq_false_of_le {w : Word} (h : magBits w ≤ infBits) : isNaN w = false :=
  decide_eq_false (not_lt.mpr h)

/-- The NaN arm of `mul32`. -/
theorem mul32_of_isNaN {a b : Word} (h : isNaN a = true ∨ isNaN b = true) : mul32 a b = defaultNaN := by
  rw [mul32, if_pos (by simpa using h)]

/-- The finite arm of `mul32`. -/
theorem mul32_of_isFinite {a b : Word} (ha : isFinite a = true) (hb : isFinite b = true) :
    mul32 a b = withSign (signBit a ^^ signBit b)
      (rneBits (fun u => compare (encUnits (magBits a) * encUnits (magBits b)) (u * 2 ^ 148))) := by
  have hna := isNaN_eq_false_of_le (of_decide_eq_true ha).le
  have hnb := isNaN_eq_false_of_le (of_decide_eq_true hb).le
  simp only [mul32, hna, hnb, ha, hb, Bool.or_self, Bool.and_self, Bool.false_eq_true, if_false, if_true]

/-- The infinite arms of `mul32`. -/
theorem mul32_of_inf {a b : Word} (ha : magBits a ≤ infBits) (hb : magBits b ≤ infBits)
    (h : magBits a = infBits ∨ magBits b = infBits) :
    mul32 a b =
      if magBits a = 0 ∨ magBits b = 0 then defaultNaN else withSign (signBit a ^^ signBit b) infBits := by
  have hfin : (isFinite a && isFinite b) = false := by
    simp only [isFinite, Bool.and_eq_false_iff, decide_eq_false_iff_not]
    omega
  simp only [mul32, isNaN_eq_false_of_le ha, isNaN_eq_false_of_le hb, hfin, isZeroF, Bool.or_self, Bool.false_eq_true,
    if_false, Bool.or_eq_true, beq_iff_eq]

/-- Settles O31: each clause is one arm of `mul32`. -/
theorem productsRoundToNearestEven : Obligations.ProductsRoundToNearestEven := by
  unfold Obligations.ProductsRoundToNearestEven
  intro a b
  have hinf : 0 < infBits ∧ infBits < 2 ^ 31 := by decide
  refine ⟨fun ha hb => ?finite, fun h => ?nan, fun h => ?infTimesZero, fun h => ?infTimesOther⟩
  case finite =>
    have hlt : rneBits (fun u => compare (encUnits (magBits a) * encUnits (magBits b)) (u * 2 ^ 148)) < 2 ^ 31 :=
      (rneBits_le _).trans_lt hinf.2
    rw [mul32_of_isFinite ha hb, signBit_withSign _ hlt, magBits_withSign _ hlt]
    exact ⟨rfl, nearestEven_rneBits (comparesWith_product _ _) (by positivity)⟩
  case nan => rw [mul32_of_isNaN h]; decide
  case infTimesZero =>
    rw [mul32_of_inf (by omega) (by omega) (by omega), if_pos (by omega)]; decide
  case infTimesOther =>
    rw [mul32_of_inf (by omega) (by omega) (by omega), if_neg (by omega), magBits_withSign _ hinf.2,
      signBit_withSign _ hinf.2]
    exact ⟨rfl, rfl⟩

end Sys2Proof.Machine
end

section
/-! The invariant of the machine: every event keeps it and none stops the machine (40_command.md R117; 20_memory.md
R67; 60_exceptions.md R206). -/

namespace Sys2Proof.Machine

/-! ### The invariant without the command in flight -/

/-- The part of `State.Inv` that speaks of no command in flight: what the stages of a command keep, and what the
completion step turns into the invariant again. -/
structure State.Sound (s : State) : Prop where
  params : s.params.wellFormed = true
  mem : Memory.wf s.params.nMax s.mem = true
  status : s.status.wellFormed = true
  results : s.result.ch0.bounded = true ∧ s.result.ch1.bounded = true

theorem State.Inv.sound {s : State} (h : s.Inv) : s.Sound := ⟨h.params, h.mem, h.status, h.results⟩

theorem State.Sound.inv {s : State} (h : s.Sound) (hf : inFlightSound s = true) : s.Inv :=
  ⟨h.params, h.mem, h.status, hf, h.results⟩

theorem inFlightSound_of_idle {s : State} (h : s.seq = .idle) : inFlightSound s = true := by
  simp only [inFlightSound, h]

theorem inFlightSound_busy_iff {s : State} {w : Word} (h : s.seq = .busy w) :
    inFlightSound s = true ↔ check s w = none ∧ s.status.done = false := by
  simp only [inFlightSound, h, Bool.and_eq_true, Option.isNone_iff_eq_none, Bool.not_eq_true']

theorem State.Sound.inv_of_idle {s : State} (h : s.Sound) (hi : s.seq = .idle) : s.Inv :=
  h.inv (inFlightSound_of_idle hi)

/-- Soundness reads only the parameters, the RAM, `STATUS` and the results. -/
theorem State.Sound.congr {s t : State} (h : s.Sound) (hp : t.params = s.params) (hm : t.mem = s.mem)
    (hs : t.status = s.status) (hr : t.result = s.result) : t.Sound :=
  ⟨hp ▸ h.params, by rw [hp, hm]; exact h.mem, hs ▸ h.status, hr ▸ h.results⟩

/-- Whether the command in flight is sound depends on `SEQ`, the parameters, the configuration and `DONE`, which stays 0
if it was. -/
theorem inFlightSound_congr {s t : State} (h : inFlightSound s = true) (hq : t.seq = s.seq) (hp : t.params = s.params)
    (hr : t.regs = s.regs) (hd : s.status.done = false → t.status.done = false) : inFlightSound t = true := by
  cases hs : s.seq with
  | idle => exact inFlightSound_of_idle (hq.trans hs)
  | busy w =>
    obtain ⟨hc, hdone⟩ := (inFlightSound_busy_iff hs).mp h
    exact (inFlightSound_busy_iff (hq.trans hs)).mpr ⟨(check_congr hp hr w).trans hc, hd hdone⟩

/-- A change of `CTRL`, the candidates, the script or the responses keeps the invariant. -/
theorem State.Inv.congr {s t : State} (h : s.Inv) (hp : t.params = s.params) (hq : t.seq = s.seq)
    (hs : t.status = s.status) (hg : t.regs = s.regs) (hm : t.mem = s.mem) (hr : t.result = s.result) : t.Inv :=
  (h.sound.congr hp hm hs hr).inv (inFlightSound_congr h.inFlight hq hp hg fun hd => by rw [hs]; exact hd)

/-! ### Reset -/

/-- The invariant holds right after reset, whatever the parameters and the script. -/
theorem inv_reset {p : Params} (hp : p.wellFormed = true) (events : List Event) :
    State.Inv { State.reset with params := p, pending := events } :=
  State.Sound.inv_of_idle ⟨hp, rfl, rfl, ⟨rfl, rfl⟩⟩ rfl

theorem State.Sound.softReset {s : State} (h : s.Sound) : (softReset s).Inv :=
  State.Sound.inv_of_idle ⟨h.params, h.mem, rfl, ⟨rfl, rfl⟩⟩ rfl

theorem State.Sound.hardReset {s : State} (h : s.Sound) : (hardReset s).Inv :=
  State.Sound.inv_of_idle ⟨h.params, rfl, rfl, ⟨rfl, rfl⟩⟩ rfl

/-! ### The stages of a command -/

theorem State.Sound.complete {s : State} (h : s.Sound) : (complete s).Inv :=
  State.Sound.inv_of_idle ⟨h.params, h.mem, h.status, h.results⟩ rfl

theorem State.Sound.spectrumStage {s : State} (h : s.Sound) (hn : s.regs.len.toNat ≤ s.params.nMax) (c : Channel) :
    (spectrumStage c s).Sound :=
  ⟨h.params, wf_spectrumStage h.mem hn, h.status, h.results⟩

theorem State.Sound.selectStage {s : State} (h : s.Sound) (c : Channel) : (selectStage c s).Sound :=
  h.congr rfl rfl rfl rfl

theorem State.Sound.shapeStage {s : State} (h : s.Sound) (hc : s.regs.resCeil.toNat ≤ oneF.toNat) (c : Channel) :
    (shapeStage c s).Sound := by
  have hb := shapeBands_bounded hc (s.cand.get c)
  refine ⟨h.params, h.mem, h.status, ?_⟩
  rw [shapeStage_result]
  cases c with
  | ch0 => exact ⟨hb, h.results.2⟩
  | ch1 => exact ⟨h.results.1, hb⟩

theorem State.Sound.analyzeChannel {s : State} (h : s.Sound) (hn : s.regs.len.toNat ≤ s.params.nMax)
    (hc : s.regs.resCeil.toNat ≤ oneF.toNat) (c : Channel) : (analyzeChannel s c).Sound :=
  ((h.spectrumStage hn c).selectStage c).shapeStage hc c

theorem State.Sound.analyzeChannels {s : State} (h : s.Sound) (hn : s.regs.len.toNat ≤ s.params.nMax)
    (hc : s.regs.resCeil.toNat ≤ oneF.toNat) (cs : List Channel) : (cs.foldl Machine.analyzeChannel s).Sound := by
  induction cs generalizing s with
  | nil => exact h
  | cons c cs ih => exact ih (h.analyzeChannel hn hc c) hn hc

/-- The completion of a command whose checks pass. -/
theorem State.Sound.exec {s : State} (h : s.Sound) {w : Word} (hc : check s w = none) {i : Instr}
    (hi : decode w = .ok i) : ∃ t, exec i s = .next t ∧ t.Inv := by
  obtain ⟨j, hj, hcheck⟩ := (check_none_iff s w).mp hc
  obtain rfl : i = j := Except.ok.inj (hi.symm.trans hj)
  rcases hcheck with rfl | ⟨hconf, -, hlen⟩
  · exact ⟨_, exec_nop s, h.complete⟩
  · have hceil := resCeil_le_one hconf
    cases i with
    | nop => exact ⟨_, exec_nop s, h.complete⟩
    | analyze =>
      exact ⟨_, exec_analyze s, (h.analyzeChannels (len_le_nMax hconf (hlen rfl)) hceil _).complete⟩
    | spectrum c => exact ⟨_, exec_spectrum c s, (h.spectrumStage (len_le_nMax hconf (hlen rfl)) c).complete⟩
    | select c => exact ⟨_, exec_select c s, (h.selectStage c).complete⟩
    | shape c => exact ⟨_, exec_shape c s, (h.shapeStage hceil c).complete⟩

/-- The engine agent's step never faults from a state that meets the invariant. -/
theorem State.Inv.engineStep {s : State} (h : s.Inv) : ∃ t, engineStep s = .next t ∧ t.Inv := by
  cases hs : s.seq with
  | idle => exact ⟨s, engineStep_idle hs, h⟩
  | busy w =>
    have hc := ((inFlightSound_busy_iff hs).mp h.inFlight).1
    obtain ⟨i, hi, -⟩ := (check_none_iff s w).mp hc
    rw [engineStep_busy hs hi]
    exact h.sound.exec hc hi

/-! ### Where a RAM write lands -/

theorem inRam_iff (n a : Nat) : inRam n a = true ↔
    (0x10000 ≤ a ∧ a < 0x10000 + 4 * n) ∨ (0x20000 ≤ a ∧ a < 0x20000 + 2 * n) ∨
      (0x28000 ≤ a ∧ a < 0x28000 + 2 * n) := by
  simp only [inRam, Bool.or_eq_true, Bool.and_eq_true, decide_eq_true_eq, or_assoc]

theorem pcm_notMem_registerMap (a j : Nat) : (a, Location.pcm j) ∉ registerMap := by
  simp [registerMap, controlMap, configMap, candMap, resultMap]

theorem spec_notMem_registerMap (a : Nat) (c : Channel) (k : Nat) : (a, Location.spec c k) ∉ registerMap := by
  simp [registerMap, controlMap, configMap, candMap, resultMap]

/-- An offset that names no register is in the RAM part of the map. -/
theorem locateRam_of_locate {n a : Nat} {l : Location} (h : locate n a = l) (hl : (a, l) ∉ registerMap) :
    locateRam n a = l := by
  unfold locate at h
  split at h
  · next l' e => exact absurd (h ▸ mem_of_lookup e) hl
  · exact h

/-- A PCM word of the map lies in the PCM RAM. -/
theorem inRam_pcm {n a j : Nat} (h : locate n a = .pcm j) : ∀ i < 4, inRam n (pcmAddr (2 * j) + i) = true := by
  intro i hi
  have hram := locateRam_of_locate h (pcm_notMem_registerMap a j)
  rcases locateRam_cases n a with ⟨j', e, ha, -, hlt⟩ | ⟨_, _, e, -⟩ | e <;> rw [hram] at e <;> cases e
  rw [inRam_iff, pcmAddr]
  omega

/-- A spectrum bin of the map lies in its channel's SPEC RAM, whose size is a whole number of words. -/
theorem inRam_spec {n a k : Nat} {c : Channel} (hn : n % 2 = 0) (h : locate n a = .spec c k) :
    ∀ i < 4, inRam n (specAddr c k + i) = true := by
  intro i hi
  have hram := locateRam_of_locate h (spec_notMem_registerMap a c k)
  rcases locateRam_cases n a with ⟨_, e, -⟩ | ⟨c', k', e, hlo, hhi, hk⟩ | e <;> rw [hram] at e <;> cases e
  rw [inRam_iff]
  cases c <;> simp only [specAddr, Channel.index] at * <;> omega

theorem nMax_even {p : Params} (h : p.wellFormed = true) : p.nMax % 2 = 0 := by
  simp only [Params.wellFormed, Bool.and_eq_true, beq_iff_eq] at h
  exact h.1.1

/-! ### The host -/

theorem State.Inv.respond {s : State} (h : s.Inv) (r : Response) : (respond r s).Inv :=
  h.congr rfl rfl rfl rfl rfl rfl

theorem State.Inv.respondDraw {s : State} (h : s.Inv) (r : Resp) : (respondDraw r s).Inv :=
  h.congr rfl rfl rfl rfl rfl rfl

theorem State.Inv.hostRead {s : State} (h : s.Inv) (l : Location) : (hostRead l s).Inv := by
  unfold Machine.hostRead
  split
  · exact h.respondDraw _
  · exact h.respond _

theorem State.Inv.clearDone {s : State} (h : s.Inv) : (clearDone s).Inv :=
  State.Sound.inv ⟨h.params, h.mem, h.status, h.results⟩
    (inFlightSound_congr h.inFlight rfl rfl rfl fun _ => rfl)

theorem State.Inv.clearError {s : State} (h : s.Inv) : (clearError s).Inv :=
  State.Sound.inv ⟨h.params, h.mem, rfl, h.results⟩ (inFlightSound_congr h.inFlight rfl rfl rfl id)

theorem State.Inv.busyWrite {s : State} (h : s.Inv) : (busyWrite s).Inv :=
  State.Sound.inv ⟨h.params, h.mem, rfl, h.results⟩ (inFlightSound_congr h.inFlight rfl rfl rfl id)

theorem State.Inv.writeStatus {s : State} (h : s.Inv) (v : Word) : (writeStatus v s).Inv := by
  have hdone : (if v.getLsbD 1 then Machine.clearDone s else s).Inv := by
    split
    · exact h.clearDone
    · exact h
  simp only [Machine.writeStatus]
  split
  · exact hdone.clearError
  · exact hdone

theorem State.Inv.writeCtrl {s : State} (h : s.Inv) (v : Word) : (writeCtrl v s).Inv := by
  unfold Machine.writeCtrl
  split
  · exact h.sound.softReset
  · exact h.congr rfl rfl rfl rfl rfl rfl

theorem State.Inv.reject {s : State} (h : s.Inv) (hi : s.seq = .idle) (e : CmdError) : (reject e s).Inv :=
  State.Sound.inv_of_idle ⟨h.params, h.mem, by cases e <;> rfl, h.results⟩ hi

/-- An accepted command is in flight with its checks passed and `DONE` 0. -/
theorem State.Inv.accept {s : State} (h : s.Inv) {w : Word} (hc : check s w = none) : (accept w s).Inv :=
  State.Sound.inv ⟨h.params, h.mem, h.status, h.results⟩
    ((inFlightSound_busy_iff (accept_seq s w)).mpr ⟨(check_congr rfl rfl w).trans hc, rfl⟩)

theorem State.Inv.issue {s : State} (h : s.Inv) (hi : s.seq = .idle) (w : Word) : (issue w s).Inv := by
  cases hc : check s w with
  | none => rw [issue_ok hc]; exact h.accept hc
  | some e => rw [issue_error hc]; exact h.reject hi e

theorem State.Inv.writeWord {s : State} (h : s.Inv) {a : Nat} (ha : ∀ i < 4, inRam s.params.nMax (a + i) = true)
    (w : Word) : (writeWord s a w).Inv :=
  State.Sound.inv ⟨h.params, wf_putWord h.mem ha w, h.status, h.results⟩
    (inFlightSound_congr h.inFlight rfl rfl rfl id)

/-- A write to a location of the map, while idle. -/
theorem State.Inv.writeIdle {s : State} (h : s.Inv) (hi : s.seq = .idle) {a : Nat} {l : Location}
    (hl : locate s.params.nMax a = l) (v : Word) : (writeIdle l v s).Inv := by
  cases l with
  | cmd => exact h.issue hi v
  | cfg r => exact State.Sound.inv_of_idle (h.sound.congr rfl rfl rfl rfl) hi
  | cand c f => exact h.congr rfl rfl rfl rfl rfl rfl
  | pcm j => exact h.writeWord (inRam_pcm hl) v
  | spec c k => exact h.writeWord (inRam_spec (nMax_even h.params) hl) v
  | ctrl => exact h.writeCtrl v
  | status => exact h.writeStatus v
  | id | wsize | floorBin | ceilBin | nmax | result | unmapped => exact h

theorem State.Inv.writeEffect {s : State} (h : s.Inv) {a : Nat} {l : Location} (hl : locate s.params.nMax a = l)
    (v : Word) : (writeEffect l v s).Inv := by
  by_cases hc : l = .ctrl
  · rw [hc]; exact h.writeCtrl v
  by_cases hs : l = .status
  · rw [hs]; exact h.writeStatus v
  cases hq : s.seq with
  | idle => rw [writeEffect_idle hq hc hs]; exact h.writeIdle hq hl v
  | busy w => rw [writeEffect_busy hq hc hs]; exact h.busyWrite

theorem State.Inv.hostStep {s : State} (h : s.Inv) (x : Txn) : (hostStep x s).Inv := by
  cases x with
  | read w a =>
    simp only [Machine.hostStep]
    split
    · exact h.hostRead _
    · exact h.respondDraw _
  | write w a v =>
    simp only [Machine.hostStep]
    split
    · exact (h.writeEffect rfl v).respond _
    · exact h.respond _

/-! ### Every event -/

/-- A step from a state that meets the invariant reaches one that does (R117, R206). -/
theorem State.Inv.step {s : State} (h : s.Inv) : ∃ t, step s = .next t ∧ t.Inv := by
  cases hp : s.pending with
  | nil => rw [step_nothing hp]; exact h.engineStep
  | cons e rest =>
    have hrest : State.Inv { s with pending := rest } := h.congr rfl rfl rfl rfl rfl rfl
    cases e with
    | host x => exact ⟨_, step_host hp, hrest.hostStep x⟩
    | engineTurn => rw [step_engineTurn hp]; exact hrest.engineStep
    | hardReset => exact ⟨_, step_hardReset hp, hrest.sound.hardReset⟩

/-- So does a run of any length. -/
theorem State.Inv.run {s : State} (h : s.Inv) (k : Nat) :
    ∃ t, Host.Core.run Sys2Proof.core k s = .next t ∧ t.Inv := by
  induction k generalizing s with
  | zero => exact ⟨s, run_zero s, h⟩
  | succ k ih =>
    obtain ⟨u, hu, hinv⟩ := h.step
    rw [run_next k hu]
    exact ih hinv

/-- Settles O57: the reset state meets the invariant whatever its parameters and script, and every step keeps it. -/
theorem everyRunFromResetIsSafe : Obligations.EveryRunFromResetIsSafe := by
  unfold Obligations.EveryRunFromResetIsSafe
  intro p events k hp
  exact (inv_reset hp events).run k

end Sys2Proof.Machine
end

section
/-! The state through the host port: the map and its offsets (10_state.md R23), the registers and the spectrum RAM written
and read back (R25 to R47, R66, R67), `irq` (R48), and which steps write a result (R43). -/

namespace Sys2Proof.Machine

/-! ### The invariant -/

/-- Settles O55: the next state a step answers is the one that `State.Inv.step` gives. -/
theorem stepKeepsTheInvariant : Obligations.StepKeepsTheInvariant := by
  unfold Obligations.StepKeepsTheInvariant
  intro s t h hstep
  obtain ⟨u, hu, hinv⟩ := h.step
  obtain rfl : u = t := Host.Outcome.next.inj (hu.symm.trans hstep)
  exact hinv

/-! ### The map -/

/-- Every row of the register map is the one its offset looks up, and its offset is an aligned one of the port. -/
theorem registerMap_sound :
    ∀ p ∈ registerMap, registerMap.lookup p.1 = some p.2 ∧ p.1 < 2 ^ 18 ∧ p.1 % 4 = 0 := by decide

theorem locate_of_mem_registerMap {a : Nat} {l : Location} (h : (a, l) ∈ registerMap) (n : Nat) : locate n a = l := by
  simp only [locate, (registerMap_sound _ h).1]

theorem cfg_mem_registerMap (r : CfgReg) : (cfgOffset r, .cfg r) ∈ registerMap := by cases r <;> decide

/-- A location with an offset has a row of the register map, or is a RAM word. -/
theorem offsetOf_cases {l : Location} {o : Nat} (h : offsetOf l = some o) :
    (o, l) ∈ registerMap ∨ (∃ j, l = .pcm j ∧ o = pcmWordAddr j) ∨ ∃ c k, l = .spec c k ∧ o = specAddr c k := by
  cases l with
  | pcm j => cases h; exact .inr (.inl ⟨j, rfl, rfl⟩)
  | spec c k => cases h; exact .inr (.inr ⟨c, k, rfl, rfl⟩)
  | unmapped => cases h
  | cfg r => cases h; exact .inl (cfg_mem_registerMap r)
  | cand c f => cases h; left; cases c <;> cases f <;> decide
  | result c f => cases h; left; cases c <;> cases f <;> decide
  | id | ctrl | status | cmd | wsize | floorBin | ceilBin | nmax => cases h; left; decide

theorem nMax_le {p : Params} (h : p.wellFormed = true) : p.nMax ≤ 16384 := by
  simp only [Params.wellFormed, Bool.and_eq_true, decide_eq_true_eq] at h
  exact h.2

theorem locate_pcmWordAddr {n j : Nat} (h : j < n) : locate n (pcmWordAddr j) = .pcm j := by
  have hj : (0x10000 + 4 * j - 0x10000) / 4 = j := by omega
  rw [pcmWordAddr, locate_ram n (by omega), locateRam, if_pos (by omega), hj]

theorem locate_specAddr {n k : Nat} (hn : n ≤ 16384) (c : Channel) (h : k < n / 2) :
    locate n (specAddr c k) = .spec c k := by
  cases c with
  | ch0 =>
    have hk : (0x20000 + 0x8000 * 0 + 4 * k - 0x20000) / 4 = k := by omega
    rw [specAddr, Channel.index, locate_ram n (by omega), locateRam, if_neg (by omega), if_pos (by omega), hk]
  | ch1 =>
    have hk : (0x20000 + 0x8000 * 1 + 4 * k - 0x28000) / 4 = k := by omega
    rw [specAddr, Channel.index, locate_ram n (by omega), locateRam, if_neg (by omega), if_neg (by omega),
      if_pos (by omega), hk]

theorem specAddr_lt {n k : Nat} (hn : n ≤ 16384) (c : Channel) (h : k < n / 2) : specAddr c k < 2 ^ 18 := by
  cases c <;> simp only [specAddr, Channel.index] <;> omega

theorem specAddr_mod_four (c : Channel) (k : Nat) : specAddr c k % 4 = 0 := by
  simp only [specAddr]; omega

/-- Settles O15: a register's offset is a row of the map, and each RAM's words lie below the next region. -/
theorem mapNamesEveryLocation : Obligations.MapNamesEveryLocation := by
  unfold Obligations.MapNamesEveryLocation
  intro p l o hp ho hpcm hspec
  rcases offsetOf_cases ho with h | ⟨j, rfl, rfl⟩ | ⟨c, k, rfl, rfl⟩
  · exact locate_of_mem_registerMap h _
  · exact locate_pcmWordAddr (hpcm j rfl)
  · exact locate_specAddr (nMax_le hp) c (hspec c k rfl)

/-! ### Writes and reads of registers -/

theorem step_wr_register {s : State} {a : Nat} {l : Location} {v : Word} {rest : List Event}
    (hl : (a, l) ∈ registerMap) (h : s.pending = wr a v :: rest) :
    step s = .next (hostWrite l v { s with pending := rest }) := by
  obtain ⟨-, ha, h4⟩ := registerMap_sound _ hl
  rw [step_wr ha h4 h, locate_of_mem_registerMap hl]

theorem step_rd_register {s : State} {a : Nat} {l : Location} {rest : List Event} (hl : (a, l) ∈ registerMap)
    (h : s.pending = rd a :: rest) : step s = .next (hostRead l { s with pending := rest }) := by
  obtain ⟨-, ha, h4⟩ := registerMap_sound _ hl
  rw [step_rd ha h4 h, locate_of_mem_registerMap hl]

/-- While idle, a write to any location is the one `writeIdle` describes. -/
theorem hostWrite_idle {s : State} (h : s.seq = .idle) (l : Location) (v : Word) :
    hostWrite l v s = respond { rdata := none, resp := .okay } (writeIdle l v s) := by
  by_cases hc : l = .ctrl
  · rw [hc]; rfl
  by_cases hs : l = .status
  · rw [hs]; rfl
  rw [hostWrite, writeEffect_idle h hc hs]

theorem hostRead_idle {s : State} (h : s.seq = .idle) (l : Location) :
    hostRead l s = respond { rdata := some (readLocation s l), resp := .okay } s := by
  simp only [hostRead, isBusy, h, Bool.false_and, Bool.false_eq_true, if_false]

/-- A register written and then read while idle: the read finds what the write left. -/
theorem run_wr_rd {s t : State} {a : Nat} {l : Location} {v : Word} {rest : List Event} (hl : (a, l) ∈ registerMap)
    (hp : s.pending = wr a v :: rd a :: rest) (hi : s.seq = .idle)
    (ht : respond { rdata := none, resp := .okay } (writeIdle l v { s with pending := rd a :: rest }) = t)
    (hti : t.seq = .idle) (htp : t.pending = rd a :: rest) :
    Host.Core.run Sys2Proof.core 2 s = .next (respond
      { rdata := some (readLocation { t with pending := rest } l), resp := .okay } { t with pending := rest }) := by
  have hwrite : step s = .next t := by rw [step_wr_register hl hp, hostWrite_idle (by exact hi), ht]
  rw [run_next 1 hwrite, run_next 0 (step_rd_register hl htp), run_zero, hostRead_idle (by exact hti)]

/-- Settles O16: the run of the write and the read, and the register file's laws. -/
theorem configRegistersReadBack : Obligations.ConfigRegistersReadBack := by
  unfold Obligations.ConfigRegistersReadBack
  intro s r v rest hi hp
  refine ⟨?_, regs_get_set_same s.regs r v, fun q hq => regs_get_set_other s.regs hq v⟩
  rw [run_wr_rd (cfg_mem_registerMap r) hp hi rfl hi rfl]
  simp only [respond, writeIdle, readLocation, regs_get_set_same]

/-- Of the eight candidate registers, one written leaves the other seven. -/
theorem cand_get_set_frame (l : Lanes Cand) {c d : Channel} {f e : CandField} (h : d ≠ c ∨ e ≠ f) (v : Word) :
    ((l.set c ((l.get c).set f v)).get d).get e = (l.get d).get e := by
  by_cases hd : d = c
  · subst hd
    rw [lanes_get_set_same, cand_get_set_other _ (h.resolve_left (not_not_intro rfl))]
  · rw [lanes_get_set_other l hd]

/-- Settles O17: the write replaces one field of one lane, and the read finds it. -/
theorem candidateRegistersReadBack : Obligations.CandidateRegistersReadBack := by
  unfold Obligations.CandidateRegistersReadBack
  intro s c f o v rest hi ho
  have hl : (o, .cand c f) ∈ registerMap := by
    rcases offsetOf_cases ho with h | ⟨_, e, -⟩ | ⟨_, _, e, -⟩
    · exact h
    · cases e
    · cases e
  have hget : ((s.cand.set c ((s.cand.get c).set f v)).get c).get f = v := by
    rw [lanes_get_set_same, cand_get_set_same]
  constructor
  · intro hp
    refine ⟨_, step_wr_register hl hp, ?_⟩
    rw [hostWrite_idle (by exact hi)]
    exact ⟨hget, hget, fun d e h => cand_get_set_frame s.cand h v, rfl⟩
  · intro hp
    refine ⟨_, run_wr_rd hl hp hi rfl hi rfl, ?_⟩
    simp only [respond, writeIdle, setCand, readLocation, hget]

/-- Settles O19: the write is `writeWord` at the bin's offset. -/
theorem spectrumRamReadBack : Obligations.SpectrumRamReadBack := by
  unfold Obligations.SpectrumRamReadBack
  intro s c k w rest hp hk hi hpend
  have hn := nMax_le hp
  have hstep := step_wr (specAddr_lt hn c hk) (specAddr_mod_four c k) hpend
  rw [locate_specAddr hn c hk, hostWrite_idle (by exact hi)] at hstep
  have hread := readWord_writeWord_same s (specAddr c k) w
  exact ⟨_, hstep, hread, hread, fun a ha => readByte_writeWord_other s ha w, rfl⟩

/-- Settles O20: a read-only location has a row of the register map, and `writeIdle` leaves the state there. -/
theorem readOnlyRegistersIgnoreWrites : Obligations.ReadOnlyRegistersIgnoreWrites := by
  unfold Obligations.ReadOnlyRegistersIgnoreWrites
  intro s l o v rest hro ho hi hp
  have hl : (o, l) ∈ registerMap := by
    rcases offsetOf_cases ho with h | ⟨_, rfl, -⟩ | ⟨_, _, rfl, -⟩
    · exact h
    · simp at hro
    · simp at hro
  have hkeep : ∀ u, writeIdle l v u = u := by
    rcases hro with rfl | rfl | rfl | rfl | rfl | ⟨c, f, rfl⟩ <;> exact fun _ => rfl
  rw [step_wr_register hl hp, hostWrite_idle (by exact hi), hkeep]
  rfl

/-! ### `STATUS` and `CTRL` -/

theorem step_wr_ctrl {s : State} {v : Word} {rest : List Event} (h : s.pending = wr 0x004 v :: rest) :
    step s = .next (respond { rdata := none, resp := .okay } (writeCtrl v { s with pending := rest })) :=
  step_wr_register (l := .ctrl) (by decide) h

theorem step_wr_status {s : State} {v : Word} {rest : List Event} (h : s.pending = wr 0x008 v :: rest) :
    step s = .next (respond { rdata := none, resp := .okay } (writeStatus v { s with pending := rest })) :=
  step_wr_register (l := .status) (by decide) h

/-- What a write of `STATUS` leaves in its fields (R26). -/
theorem writeStatus_eq (v : Word) (s : State) : writeStatus v s = { s with status := {
    done := if v.getLsbD 1 then false else s.status.done
    err := if v.getLsbD 2 then false else s.status.err
    errCode := if v.getLsbD 2 then 0#4 else s.status.errCode } } := by
  unfold writeStatus
  cases v.getLsbD 1 <;> cases v.getLsbD 2 <;> rfl

theorem writeCtrl_of_reset {v : Word} (h : v.getLsbD 31 = true) (s : State) : writeCtrl v s = softReset s := by
  simp only [writeCtrl, h, if_true]

theorem writeCtrl_of_clear {v : Word} (h : v.getLsbD 31 = false) (s : State) :
    writeCtrl v s = { s with ctrl := { ieDone := v.getLsbD 0, ieErr := v.getLsbD 1 } } := by
  simp only [writeCtrl, h, Bool.false_eq_true, if_false]

theorem isBusy_iff (s : State) : isBusy s = true ↔ ∃ w, s.seq = .busy w := by
  cases h : s.seq <;> simp [isBusy, h]

@[simp] theorem getLsbD_bit (b : Bool) (i : Nat) : (bit b).getLsbD i = (decide (i = 0) && b) := by
  cases b <;> simp [bit]

/-- The bits of `STATUS` (R26). -/
theorem getLsbD_statusWord (s : State) (i : Nat) : (statusWord s).getLsbD i =
    if i = 0 then isBusy s else if i = 1 then s.status.done else if i = 2 then s.status.err
    else if i = 3 then false else s.status.errCode.getLsbD (i - 4) := by
  -- The width as the sum of the parts', the form `getLsbD_append` needs.
  have h : (statusWord s).getLsbD i = (0#24 ++ s.status.errCode ++ 0#1 ++ bit s.status.err ++ bit s.status.done ++
    bit (isBusy s)).getLsbD i := rfl
  rw [h]
  simp only [BitVec.getLsbD_append, getLsbD_bit, BitVec.getLsbD_zero]
  match i with
  | 0 | 1 | 2 | 3 => rfl
  | i + 4 => simpa using BitVec.lt_of_getLsbD

theorem getLsbD_statusWord_add_four (s : State) (i : Nat) :
    (statusWord s).getLsbD (4 + i) = s.status.errCode.getLsbD i := by
  rw [getLsbD_statusWord, if_neg (by omega), if_neg (by omega), if_neg (by omega), if_neg (by omega),
    Nat.add_sub_cancel_left]

/-- The bits of `CTRL` (R25). -/
theorem getLsbD_ctrlWord (s : State) (i : Nat) : (ctrlWord s).getLsbD i =
    if i = 0 then s.ctrl.ieDone else if i = 1 then s.ctrl.ieErr else false := by
  have h : (ctrlWord s).getLsbD i = (0#30 ++ bit s.ctrl.ieErr ++ bit s.ctrl.ieDone).getLsbD i := rfl
  rw [h]
  simp only [BitVec.getLsbD_append, getLsbD_bit, BitVec.getLsbD_zero]
  match i with
  | 0 | 1 => rfl
  | i + 2 => simp

/-- Settles O23: each bit of the word `STATUS` reads is one of its parts, and a write is `writeStatus_eq`. -/
theorem statusReadAndWrite : Obligations.StatusReadAndWrite := by
  unfold Obligations.StatusReadAndWrite
  refine ⟨fun s => ⟨?_, ?_, ?_, ?_, ?_, ?_⟩, fun s v rest hp => ?_⟩
  · rw [← isBusy_iff, getLsbD_statusWord]; rfl
  · rw [getLsbD_statusWord]; rfl
  · rw [getLsbD_statusWord]; rfl
  · ext i hi
    rw [BitVec.getElem_extractLsb', getLsbD_statusWord_add_four, BitVec.getLsbD_eq_getElem hi]
  · rw [getLsbD_statusWord]; rfl
  · ext i hi
    rw [BitVec.getElem_extractLsb', show 8 + i = 4 + (4 + i) by omega, getLsbD_statusWord_add_four,
      BitVec.getLsbD_of_ge _ _ (by omega), BitVec.getElem_zero]
  · rw [step_wr_status hp, writeStatus_eq]; rfl

/-- Settles O24: each bit of the word `CTRL` reads is one of its parts, and a write without bit 31 stores the two. -/
theorem ctrlStoresTheEnables : Obligations.CtrlStoresTheEnables := by
  unfold Obligations.CtrlStoresTheEnables
  refine ⟨fun s => ⟨?_, ?_, ?_⟩, fun s v rest hv hp => ?_⟩
  · rw [getLsbD_ctrlWord]; rfl
  · rw [getLsbD_ctrlWord]; rfl
  · ext i hi
    rw [BitVec.getElem_extractLsb', getLsbD_ctrlWord, if_neg (by omega), if_neg (by omega), BitVec.getElem_zero]
  · rw [step_wr_ctrl hp, writeCtrl_of_clear hv]; rfl

/-! ### The derived registers -/

theorem toNat_saturate (n : Nat) : (saturate n).toNat = min n 0xFFFFFFFF := by
  rw [saturate, BitVec.toNat_ofNat, Nat.mod_eq_of_lt (by omega)]

/-- Settles O29: each derived register reads the saturation of its rounded product. -/
theorem derivedRegisters : Obligations.DerivedRegisters := by
  unfold Obligations.DerivedRegisters
  exact fun s => ⟨toNat_saturate _, toNat_saturate _, toNat_saturate _⟩

/-! ### `irq` -/

@[simp] theorem irq_respond (r : Response) (s : State) : irq (respond r s) = irq s := rfl

/-- The checks do not read the script. -/
theorem check_pending (s : State) (w : Word) (rest : List Event) : check { s with pending := rest } w = check s w :=
  check_congr rfl rfl w

/-- Analyzing channels writes RAM, candidates and results only. -/
theorem foldl_analyzeChannel_frame (cs : List Channel) (s : State) : ∃ m d p,
    cs.foldl analyzeChannel s = { s with mem := m, cand := d, result := p } := by
  induction cs generalizing s with
  | nil => exact ⟨_, _, _, rfl⟩
  | cons c cs ih => exact ih (analyzeChannel s c)

/-- Every command completes, and before that writes RAM, candidates and results only (R113). -/
theorem exec_frame (i : Instr) (s : State) : ∃ m d p,
    exec i s = .next (complete { s with mem := m, cand := d, result := p }) := by
  cases i with
  | analyze =>
    obtain ⟨m, d, p, h⟩ := foldl_analyzeChannel_frame (declaredChannels s) s
    exact ⟨m, d, p, by rw [exec_analyze, h]⟩
  | nop | spectrum | select | shape => exact ⟨_, _, _, rfl⟩

/-- Settles O12: each event's next state is known, and `irq` reads its `CTRL` and `STATUS`. -/
theorem irqFollowsItsSources : Obligations.IrqFollowsItsSources := by
  unfold Obligations.IrqFollowsItsSources
  refine ⟨fun s => ?_, fun i s => ?_, fun s w e rest hi hc hp => ?_, fun s w rest hi hc hp => ?_,
    fun s cmd v a rest hb h4 hnc hns hp => ?_, fun s v rest hp => ?_, fun s v rest hp => ?_⟩
  · simp only [irq, Bool.or_eq_true, Bool.and_eq_true]
  · obtain ⟨m, d, p, h⟩ := exec_frame i s
    exact ⟨_, h, by simp [irq]⟩
  · refine ⟨_, step_cmd hp hi, ?_⟩
    rw [irq_respond, issue_error ((check_pending s w rest).trans hc)]
    simp [irq]
  · refine ⟨_, step_cmd hp hi, ?_⟩
    rw [irq_respond, issue_ok ((check_pending s w rest).trans hc)]
    simp [irq]
  · refine ⟨_, step_wr_port h4 hp, ?_⟩
    rw [hostWrite, irq_respond, writeEffect_busy (by exact hb) (mt (locate_ctrl_iff _ _).mp hnc)
      (mt (locate_status_iff _ _).mp hns)]
    simp [irq]
  · refine ⟨_, step_wr_ctrl hp, ?_⟩
    cases hv : v.getLsbD 31 with
    | true => rw [irq_respond, writeCtrl_of_reset hv]; rfl
    | false => rw [irq_respond, writeCtrl_of_clear hv]; rfl
  · refine ⟨_, step_wr_status hp, ?_⟩
    rw [irq_respond, writeStatus_eq]
    cases h1 : v.getLsbD 1 <;> cases h2 : v.getLsbD 2 <;> simp [irq]

/-! ### Which steps write a result -/

theorem writeIdle_result {l : Location} (h : l ≠ .ctrl) (v : Word) (s : State) :
    (writeIdle l v s).result = s.result := by
  cases l with
  | ctrl => exact absurd rfl h
  | status => rw [writeIdle, writeStatus_eq]
  | cmd =>
    cases hc : check s v with
    | none => rw [writeIdle, issue_ok hc, accept_result]
    | some e => rw [writeIdle, issue_error hc, reject_result]
  | _ => rfl

/-- Of the writes, only the soft reset changes a result (R43, R232). -/
theorem writeEffect_result {l : Location} {v : Word} (h : ¬ (l = .ctrl ∧ v.getLsbD 31 = true)) (s : State) :
    (writeEffect l v s).result = s.result := by
  by_cases hc : l = .ctrl
  · subst hc
    have hv : v.getLsbD 31 = false := by simpa using h
    rw [writeEffect_ctrl, writeCtrl_of_clear hv]
  by_cases hs : l = .status
  · rw [hs, writeEffect_status, writeStatus_eq]
  cases hq : s.seq with
  | idle => rw [writeEffect_idle hq hc hs, writeIdle_result hc]
  | busy w => rw [writeEffect_busy hq hc hs, busyWrite_result]

/-- A transaction that changes a result is the soft reset. -/
theorem hostStep_result {x : Txn} {s : State} (h : (hostStep x s).result ≠ s.result) :
    ∃ a v, portOffset s.params a = 0x004 ∧ v.getLsbD 31 = true ∧ x = .write .word a v := by
  cases x with
  | read w a =>
    refine absurd ?_ h
    simp only [hostStep, hostRead]
    split
    · split
      · rw [respondDraw_result]
      · rw [respond_result]
    · rw [respondDraw_result]
  | write w a v =>
    simp only [hostStep] at h
    split at h
    · next hw =>
      obtain ⟨hl, hv⟩ := not_not.mp fun hn => h (writeEffect_result hn s)
      obtain ⟨rfl, -⟩ : w = .word ∧ a % 4 = 0 := by simpa [Txn.wellFormed, Txn.width, Txn.addr] using hw
      exact ⟨a, v, (locate_ctrl_iff _ _).mp hl, hv, rfl⟩
    · exact absurd rfl h

/-- A command whose completion changes a result is `ANALYZE` or a `SHAPE` (R175). -/
theorem exec_result {i : Instr} {s t : State} (h : exec i s = .next t) (hr : t.result ≠ s.result) :
    i = .analyze ∨ ∃ c, i = .shape c := by
  cases i with
  | analyze => exact .inl rfl
  | shape c => exact .inr ⟨c, rfl⟩
  | nop | spectrum | select => cases h; exact absurd rfl hr

/-- Settles O59: by the cases of a step. -/
theorem onlyShapeAndAnalyzeWriteResults : Obligations.OnlyShapeAndAnalyzeWriteResults := by
  unfold Obligations.OnlyShapeAndAnalyzeWriteResults
  intro s t hstep hr
  rcases step_cases hstep with ⟨x, rest, hp, rfl⟩ | ⟨rest, hp, -⟩ | ⟨rest, hp, ⟨-, rfl⟩ | ⟨w, i, hw, hd, he⟩⟩
  · obtain ⟨a, v, ha, hv, rfl⟩ := hostStep_result hr
    exact .inr (.inl ⟨a, v, rest, ha, hv, hp⟩)
  · exact .inl ⟨rest, hp⟩
  · exact absurd rfl hr
  · refine .inr (.inr ⟨w, hw, ?_, ?_⟩)
    · exact hp.symm.imp And.left fun h => ⟨rest, h⟩
    · rcases exec_result he hr with rfl | ⟨c, rfl⟩
      · exact .inl hd
      · exact .inr ⟨c, hd⟩

end Sys2Proof.Machine
end

section
/-! Runs of a part of the script, as triples: what holds before it, and what holds once it is performed (00_scope.md
R14). -/

namespace Sys2Proof.Machine

/-- From every state with `P` the run of `es`, whatever comes after it in the script, reaches one with `Q`. -/
def Leads (P : State → Prop) (es : List Event) (Q : State → Prop) : Prop :=
  ∀ (s : State) (rest : List Event), P s → s.pending = es ++ rest →
    ∃ t : State, Host.Core.run Sys2Proof.core es.length s = .next t ∧ t.pending = rest ∧ Q t

theorem run_add {s t : State} {a : Nat} (h : Host.Core.run Sys2Proof.core a s = .next t) (b : Nat) :
    Host.Core.run Sys2Proof.core (a + b) s = Host.Core.run Sys2Proof.core b t := by
  induction a generalizing s with
  | zero => cases h; rw [Nat.zero_add]
  | succ a ih =>
    cases hs : step s with
    | next u => rw [Nat.add_right_comm, run_next _ hs]; exact ih (by rw [← h, run_next _ hs])
    | fault r | refused r => simp only [Host.Core.run, Sys2Proof.core, hs, reduceCtorEq] at h

section
variable {P Q R : State → Prop} {es fs : List Event}

theorem Leads.nil : Leads P [] P := fun s _ hP hp => ⟨s, rfl, hp, hP⟩

theorem Leads.append (h : Leads P es Q) (k : Leads Q fs R) : Leads P (es ++ fs) R := by
  intro s rest hP hp
  obtain ⟨u, hu, hpu, hQ⟩ := h s (fs ++ rest) hP (by rw [hp, List.append_assoc])
  obtain ⟨t, ht, hpt, hR⟩ := k u rest hQ hpu
  exact ⟨t, by rw [List.length_append, run_add hu, ht], hpt, hR⟩

theorem Leads.cons {e : Event} (h : Leads P [e] Q) (k : Leads Q es R) : Leads P (e :: es) R := h.append k

/-- A stronger start. -/
theorem Leads.of_imp (hPQ : ∀ s, P s → Q s) (h : Leads Q es R) : Leads P es R := fun s rest hP => h s rest (hPQ s hP)

/-- Events that each keep `P` keep it one after the other. -/
theorem Leads.invariant (h : ∀ e ∈ es, Leads P [e] P) : Leads P es P := by
  induction es with
  | nil => exact .nil
  | cons e es ih => exact .cons (h e List.mem_cons_self) (ih fun f hf => h f (List.mem_cons_of_mem _ hf))

theorem Leads.of_step {e : Event} (h : ∀ (s : State) (rest : List Event), P s → s.pending = e :: rest →
    ∃ t, step s = .next t ∧ t.pending = rest ∧ Q t) : Leads P [e] Q := by
  intro s rest hP hp
  obtain ⟨t, ht, hpt, hQ⟩ := h s rest hP hp
  exact ⟨t, by rw [List.length_singleton, run_next 0 ht, run_zero], hpt, hQ⟩

theorem Leads.host {x : Txn} (h : ∀ (s : State) (rest : List Event), P s → Q (hostStep x { s with pending := rest })) :
    Leads P [.host x] Q :=
  .of_step fun s rest hP hp => ⟨_, step_host hp, (hostStep_outside x _).2.1, h s rest hP⟩

/-- The run of a whole script. -/
theorem Leads.run (h : Leads P es Q) {s : State} (hP : P { s with pending := es }) :
    ∃ t : State, Host.Core.run Sys2Proof.core es.length { s with pending := es } = .next t ∧ t.pending = [] ∧ Q t :=
  h _ [] hP (List.append_nil es).symm

end

end Sys2Proof.Machine
end

section
/-! The accesses of the host port: the malformed ones (20_memory.md R62), the unmapped offsets (R64), the packing of the
PCM RAM (R65), reads in either state of `SEQ` (R66, R68), and the traffic beside a command in flight (R67). -/

namespace Sys2Proof.Machine

/-! ### What a read can do -/

/-- A read of a word answers OKAY with some data, and changes nothing else but the count of the draws. -/
theorem hostRead_frame (l : Location) (s : State) : ∃ data n, hostRead l s =
    { s with draws := n, responses := { rdata := some data, resp := .okay } :: s.responses } := by
  unfold hostRead
  split
  · exact ⟨_, _, rfl⟩
  · exact ⟨_, s.draws, rfl⟩

/-- A transaction of another width or alignment answers ERROR, and changes nothing else but the count of the draws. -/
theorem hostStep_malformed {x : Txn} (h : x.wellFormed = false) (s : State) : ∃ data n, hostStep x s =
    { s with draws := n, responses := { rdata := data, resp := .error } :: s.responses } := by
  cases x with
  | read w a => simp only [hostStep, h]; exact ⟨_, _, rfl⟩
  | write w a v => simp only [hostStep, h]; exact ⟨_, s.draws, rfl⟩

/-- A read of any width and address answers, and changes nothing else but the count of the draws. -/
theorem hostStep_read_frame (w : Width) (a : Nat) (s : State) : ∃ r n, hostStep (.read w a) s =
    { s with draws := n, responses := r :: s.responses } := by
  cases hx : (Txn.read w a).wellFormed with
  | false =>
    obtain ⟨data, n, h⟩ := hostStep_malformed hx s
    exact ⟨_, n, h⟩
  | true =>
    obtain ⟨data, n, h⟩ := hostRead_frame (locate s.params.nMax (portOffset s.params a)) s
    exact ⟨{ rdata := some data, resp := .okay }, n, by simp only [hostStep, hx, if_true, h]⟩

theorem wellFormed_iff (x : Txn) : x.wellFormed = true ↔ x.width = .word ∧ x.addr % 4 = 0 := by
  simp only [Txn.wellFormed, Bool.and_eq_true, beq_iff_eq]

/-- Settles O13: such a transaction is the one `hostStep_malformed` describes. -/
theorem badAccessChangesNothing : Obligations.BadAccessChangesNothing := by
  unfold Obligations.BadAccessChangesNothing
  intro s x rest hp hx
  have hbad : x.wellFormed = false := by
    rw [← Bool.not_eq_true, wellFormed_iff, not_and_or]
    exact hx
  obtain ⟨data, n, h⟩ := hostStep_malformed hbad { s with pending := rest }
  exact ⟨data, n, by rw [step_host hp, h]⟩

/-! ### Unmapped offsets -/

/-- The gaps between the registers, the tails of the RAMs past `N_MAX`, and everything from `0x30000` on name nothing
(R64). -/
theorem locate_unmapped {n a : Nat} (hn : n ≤ 16384)
    (h : (0x058 ≤ a ∧ a ≤ 0x07C) ∨ (0x0A0 ≤ a ∧ a ≤ 0x0BC) ∨ (0x0E0 ≤ a ∧ a ≤ 0xFFFC) ∨
      (0x10000 + 4 * n ≤ a ∧ a ≤ 0x1FFFF) ∨ (0x20000 + 2 * n ≤ a ∧ a ≤ 0x27FFF) ∨
      (0x28000 + 2 * n ≤ a ∧ a ≤ 0x2FFFF) ∨ 0x30000 ≤ a) : locate n a = .unmapped := by
  have hreg : registerMap.lookup a = none := lookup_registerMap_none (by omega)
  simp only [locate, hreg]
  rw [locateRam, if_neg (by omega), if_neg (by omega), if_neg (by omega)]

theorem hostRead_visible {l : Location} (h : hiddenWhileBusy l = false) (s : State) :
    hostRead l s = respond { rdata := some (readLocation s l), resp := .okay } s := by
  simp only [hostRead, h, Bool.and_false, Bool.false_eq_true, if_false]

/-- Settles O14: the offset is its own port offset and names `unmapped`, which reads 0, takes no write, and is no `CTRL`
or `STATUS`. -/
theorem unmappedOffsets : Obligations.UnmappedOffsets := by
  unfold Obligations.UnmappedOffsets
  intro s a v rest hparams h4 ha hgap
  have hloc : locate s.params.nMax (portOffset s.params a) = .unmapped := by
    rw [portOffset_of_lt ha, locate_unmapped (nMax_le hparams) hgap]
  refine ⟨fun hp => ?_, fun hp hi => ?_, fun cmd hp hb => ?_⟩
  · rw [step_rd_port h4 hp, hloc, hostRead_visible rfl]; rfl
  · rw [step_wr_port h4 hp, hloc, hostWrite_idle (by exact hi)]
    exact ⟨none, rfl⟩
  · rw [step_wr_port h4 hp, hloc, hostWrite, writeEffect_busy (by exact hb) (by decide) (by decide)]
    exact ⟨_, rfl⟩

/-! ### The packing of the PCM RAM -/

theorem pcmWordAddr_eq (j : Nat) : pcmWordAddr j = pcmAddr (2 * j) := by
  simp only [pcmWordAddr, pcmAddr]; omega

theorem pcmWordAddr_lt {n j : Nat} (hn : n ≤ 16384) (h : j < n) : pcmWordAddr j < 2 ^ 18 := by
  simp only [pcmWordAddr]; omega

theorem pcmWordAddr_mod_four (j : Nat) : pcmWordAddr j % 4 = 0 := by
  simp only [pcmWordAddr]; omega

/-- A PCM word is its two slots, the one with the lower index in the low half (R65). -/
theorem readWord_pcmAddr (s : State) (j : Nat) :
    readWord s (pcmAddr (2 * j)) = readHalf s (pcmAddr (2 * j + 1)) ++ readHalf s (pcmAddr (2 * j)) := rfl

theorem readHalf_writeWord_low (s : State) (j : Nat) (w : Word) :
    readHalf (writeWord s (pcmAddr (2 * j)) w) (pcmAddr (2 * j)) = w.extractLsb' 0 16 := by
  conv_rhs => rw [← readWord_writeWord_same s (pcmAddr (2 * j)) w, readWord_pcmAddr]
  exact (BitVec.extractLsb'_append_eq_right).symm

theorem readHalf_writeWord_high (s : State) (j : Nat) (w : Word) :
    readHalf (writeWord s (pcmAddr (2 * j)) w) (pcmAddr (2 * j + 1)) = w.extractLsb' 16 16 := by
  conv_rhs => rw [← readWord_writeWord_same s (pcmAddr (2 * j)) w, readWord_pcmAddr]
  exact (BitVec.extractLsb'_append_eq_left).symm

theorem readHalf_writeWord_other (s : State) {a x : Nat} (h : x + 2 ≤ a ∨ a + 4 ≤ x) (w : Word) :
    readHalf (writeWord s a w) x = readHalf s x :=
  readHalf_eq_of_readByte (readByte_writeWord_other s (by omega) w) (readByte_writeWord_other s (by omega) w)

/-- Settles O18: the write is `writeWord` at the offset of slot `2j`. -/
theorem pcmWordPacking : Obligations.PcmWordPacking := by
  unfold Obligations.PcmWordPacking
  intro s j w rest hparams hj hi hp
  have hstep := step_wr (pcmWordAddr_lt (nMax_le hparams) hj) (pcmWordAddr_mod_four j) hp
  rw [locate_pcmWordAddr hj, hostWrite_idle (by exact hi)] at hstep
  refine ⟨_, _, hstep, readHalf_writeWord_low s j w, readHalf_writeWord_high s j w,
    readWord_writeWord_same s (pcmAddr (2 * j)) w, fun u => readWord_pcmAddr u j, fun a ha => ?_, rfl⟩
  rw [pcmWordAddr_eq] at ha
  exact readByte_writeWord_other s ha w

/-! ### Reads -/

/-- A write answers nothing by itself: its response is the one `hostWrite` adds. -/
theorem writeEffect_responses (l : Location) (v : Word) (s : State) :
    (writeEffect l v s).responses = s.responses := by
  by_cases hc : l = .ctrl
  · rw [hc, writeEffect_ctrl, writeCtrl]
    split <;> rfl
  by_cases hs : l = .status
  · rw [hs, writeEffect_status, writeStatus_eq]
  cases hq : s.seq with
  | busy w => rw [writeEffect_busy hq hc hs, busyWrite_responses]
  | idle =>
    rw [writeEffect_idle hq hc hs]
    cases l with
    | ctrl => exact absurd rfl hc
    | status => exact absurd rfl hs
    | cmd => rw [writeIdle, issue]; split <;> rfl
    | _ => rfl

/-- Every aligned 32-bit access is answered OKAY. -/
theorem hostStep_wellFormed_resp {x : Txn} (h : x.wellFormed = true) (s : State) :
    ∃ r, (hostStep x s).responses = r :: s.responses ∧ r.resp = .okay := by
  cases x with
  | read w a =>
    obtain ⟨data, n, hr⟩ := hostRead_frame (locate s.params.nMax (portOffset s.params a)) s
    exact ⟨{ rdata := some data, resp := .okay }, by simp only [hostStep, h, if_true, hr], rfl⟩
  | write w a v =>
    exact ⟨{ rdata := none, resp := .okay },
      by simp only [hostStep, h, if_true, hostWrite, respond_responses, writeEffect_responses], rfl⟩

/-- Settles O21: a read is framed by `hostStep_read_frame`, and while idle it is `readLocation` that answers. -/
theorem readsHaveNoSideEffects : Obligations.ReadsHaveNoSideEffects := by
  unfold Obligations.ReadsHaveNoSideEffects
  refine ⟨fun s width a rest hp => ?_, fun s a rest hi h4 hp => ?_, fun s x rest hx hp => ?_⟩
  · obtain ⟨r, n, h⟩ := hostStep_read_frame width a { s with pending := rest }
    exact ⟨r, n, by rw [step_host hp, h]⟩
  · rw [step_rd_port h4 hp, hostRead_idle (by exact hi)]
    exact congrArg Host.Outcome.next rfl
  · obtain ⟨r, hr, hok⟩ := hostStep_wellFormed_resp hx { s with pending := rest }
    exact ⟨_, r, step_host hp, hr, hok⟩

/-- A location whose reads are not hidden is no RAM word, candidate or result (R68). -/
theorem hiddenWhileBusy_eq_false {l : Location} (hpcm : ∀ j, l ≠ .pcm j) (hspec : ∀ c k, l ≠ .spec c k)
    (hcand : ∀ c f, l ≠ .cand c f) (hresult : ∀ c f, l ≠ .result c f) : hiddenWhileBusy l = false := by
  cases l with
  | pcm j => exact absurd rfl (hpcm j)
  | spec c k => exact absurd rfl (hspec c k)
  | cand c f => exact absurd rfl (hcand c f)
  | result c f => exact absurd rfl (hresult c f)
  | _ => rfl

/-- Settles O22: any read is framed by `hostRead_frame`, and one that is not hidden answers as it does while idle. -/
theorem readsWhileBusy : Obligations.ReadsWhileBusy := by
  unfold Obligations.ReadsWhileBusy
  intro s cmd a rest hb h4 ha hp
  have hstep := step_rd ha h4 hp
  refine ⟨fun _ => ?_, fun hpcm hspec hcand hresult => ?_⟩
  · obtain ⟨data, n, h⟩ := hostRead_frame (locate s.params.nMax a) { s with pending := rest }
    exact ⟨data, .okay, n, by rw [hstep, h]⟩
  · rw [hstep, hostRead_visible (hiddenWhileBusy_eq_false hpcm hspec hcand hresult)]
    exact ⟨.okay, congrArg Host.Outcome.next rfl⟩

/-! ### Traffic beside a command in flight -/

/-- The two states have the same command in flight or none, and the same of everything a command reads or writes. -/
structure SameCommandState (s t : State) : Prop where
  params : s.params = t.params
  seq : s.seq = t.seq
  regs : s.regs = t.regs
  cand : s.cand = t.cand
  result : s.result = t.result
  mem : s.mem = t.mem
  ramEpoch : s.ramEpoch = t.ramEpoch

theorem SameCommandState.trans {s t u : State} (h : SameCommandState s t) (k : SameCommandState t u) :
    SameCommandState s u :=
  ⟨h.params.trans k.params, h.seq.trans k.seq, h.regs.trans k.regs, h.cand.trans k.cand, h.result.trans k.result,
    h.mem.trans k.mem, h.ramEpoch.trans k.ramEpoch⟩

/-- The enables, the flags, the draws, the script and the responses are none of a command's. -/
theorem sameCommandState_outside (s : State) (ctrl : Ctrl) (status : Status) (draws : Nat) (pending : List Event)
    (responses : List Response) :
    SameCommandState s
      { s with ctrl := ctrl, status := status, draws := draws, pending := pending, responses := responses } :=
  ⟨rfl, rfl, rfl, rfl, rfl, rfl, rfl⟩

/-- A write while busy that is no soft reset reaches `CTRL` and `STATUS` only (R207). -/
theorem writeEffect_sameCommandState {s : State} {w : Word} (hb : s.seq = .busy w) {l : Location} {v : Word}
    (h : l = .ctrl → v.getLsbD 31 = false) : SameCommandState s (writeEffect l v s) := by
  by_cases hc : l = .ctrl
  · rw [hc, writeEffect_ctrl, writeCtrl_of_clear (h hc)]
    exact sameCommandState_outside s _ _ _ _ _
  by_cases hs : l = .status
  · rw [hs, writeEffect_status, writeStatus_eq]
    exact sameCommandState_outside s _ _ _ _ _
  rw [writeEffect_busy hb hc hs]
  exact sameCommandState_outside s _ _ _ _ _

/-- A write of `CTRL` that is no soft reset has bit 31 clear. -/
theorem getLsbD_of_noSoftReset {p : Params} {a : Nat} {v : Word} (h : noSoftReset p (.write .word a v) = true)
    (hl : locate p.nMax (portOffset p a) = .ctrl) : v.getLsbD 31 = false := by
  have ha : portOffset p a = 0x004 := (locate_ctrl_iff _ _).mp hl
  simpa [noSoftReset, ha] using h

/-- A transaction while busy that is no soft reset leaves what a command reads or writes (R67, R207). -/
theorem hostStep_sameCommandState {s : State} {w : Word} (hb : s.seq = .busy w) {x : Txn}
    (h : noSoftReset s.params x = true) : SameCommandState s (hostStep x s) := by
  cases x with
  | read width a =>
    obtain ⟨r, n, e⟩ := hostStep_read_frame width a s
    rw [e]
    exact sameCommandState_outside s _ _ _ _ _
  | write width a v =>
    cases hx : (Txn.write width a v).wellFormed with
    | false =>
      obtain ⟨data, n, e⟩ := hostStep_malformed hx s
      rw [e]
      exact sameCommandState_outside s _ _ _ _ _
    | true =>
      obtain ⟨rfl, h4⟩ := (wellFormed_iff _).mp hx
      rw [hostStep_write s (by exact h4), hostWrite]
      have hwrite := writeEffect_sameCommandState hb (v := v) (getLsbD_of_noSoftReset h)
      exact hwrite.trans (sameCommandState_outside _ _ _ _ _ _)

/-- A state that is the same for the command in flight, whatever the host's transactions before it was reached. -/
theorem leads_traffic {s : State} {w : Word} (hb : s.seq = .busy w) {traffic : List Txn}
    (h : ∀ x ∈ traffic, noSoftReset s.params x = true) :
    Leads (SameCommandState s) (traffic.map Event.host) (SameCommandState s) := by
  refine Leads.invariant fun e he => ?_
  obtain ⟨x, hx, rfl⟩ := List.mem_map.mp he
  refine Leads.host fun u rest hu => ?_
  have hsoft : noSoftReset u.params x = true := hu.params ▸ h x hx
  have hrest := hu.trans (sameCommandState_outside u u.ctrl u.status u.draws rest u.responses)
  exact hrest.trans (hostStep_sameCommandState (hrest.seq.symm.trans hb) hsoft)

theorem SameCommandState.spectrumStage {s t : State} (h : SameCommandState s t) (c : Channel) :
    SameCommandState (spectrumStage c s) (spectrumStage c t) := by
  have hw : window s c = window t c := window_congr (by rw [h.regs]) (by rw [h.regs]) fun _ _ =>
    (readHalf_eq_of_readByte (readByte_eq_of_findByte h.ramEpoch.symm (by rw [h.mem]))
      (readByte_eq_of_findByte h.ramEpoch.symm (by rw [h.mem]))).symm
  refine ⟨h.params, h.seq, h.regs, h.cand, h.result, ?_, h.ramEpoch⟩
  rw [spectrumStage_mem, spectrumStage_mem, spectrumBins_congr h.params (by rw [h.regs]) hw, h.mem]

theorem SameCommandState.selectStage {s t : State} (h : SameCommandState s t) (c : Channel) :
    SameCommandState (selectStage c s) (selectStage c t) := by
  refine ⟨h.params, h.seq, h.regs, ?_, h.result, h.mem, h.ramEpoch⟩
  have hbands := selectBands_congr (c := c) h.regs fun k _ => specBin_congr h.mem h.ramEpoch c k
  rw [selectStage_cand, selectStage_cand, h.cand, hbands]

theorem SameCommandState.shapeStage {s t : State} (h : SameCommandState s t) (c : Channel) :
    SameCommandState (shapeStage c s) (shapeStage c t) := by
  refine ⟨h.params, h.seq, h.regs, h.cand, ?_, h.mem, h.ramEpoch⟩
  rw [shapeStage_result, shapeStage_result, h.result, h.regs, h.cand]

theorem SameCommandState.analyzeChannels {s t : State} (h : SameCommandState s t) (cs : List Channel) :
    SameCommandState (cs.foldl analyzeChannel s) (cs.foldl analyzeChannel t) := by
  induction cs generalizing s t with
  | nil => exact h
  | cons c cs ih => exact ih (((h.spectrumStage c).selectStage c).shapeStage c)

theorem SameCommandState.complete {s t : State} (h : SameCommandState s t) :
    SameCommandState (complete s) (complete t) :=
  ⟨h.params, rfl, h.regs, h.cand, h.result, h.mem, h.ramEpoch⟩

/-- A command reads and writes nothing else. -/
theorem SameCommandState.exec {s t : State} (h : SameCommandState s t) (i : Instr) :
    ∃ s' t', exec i s = .next s' ∧ exec i t = .next t' ∧ SameCommandState s' t' := by
  cases i with
  | nop => exact ⟨_, _, exec_nop s, exec_nop t, h.complete⟩
  | analyze =>
    obtain ⟨-, -, -, -, -, -, -, hc, -, -⟩ := operands_congr h.regs
    refine ⟨_, _, exec_analyze s, exec_analyze t, ?_⟩
    rw [hc]
    exact (h.analyzeChannels _).complete
  | spectrum c => exact ⟨_, _, exec_spectrum c s, exec_spectrum c t, (h.spectrumStage c).complete⟩
  | select c => exact ⟨_, _, exec_select c s, exec_select c t, (h.selectStage c).complete⟩
  | shape c => exact ⟨_, _, exec_shape c s, exec_shape c t, (h.shapeStage c).complete⟩

theorem exec_pending {i : Instr} {s t : State} (h : exec i s = .next t) : t.pending = s.pending := by
  obtain ⟨m, d, p, hframe⟩ := exec_frame i s
  rw [← Host.Outcome.next.inj (hframe.symm.trans h)]
  rfl

/-- The engine agent's turn leads every state that is the same for the command in flight to the same completion. -/
theorem leads_engineTurn_busy {s : State} {w : Word} {i : Instr} (hb : s.seq = .busy w) (hd : decode w = .ok i) :
    ∃ u, exec i s = .next u ∧ Leads (SameCommandState s) [.engineTurn] (SameCommandState u) := by
  obtain ⟨m, d, p, hu⟩ := exec_frame i s
  refine ⟨_, hu, Leads.of_step fun a rest ha hp => ?_⟩
  have hrest := ha.trans (sameCommandState_outside a a.ctrl a.status a.draws rest a.responses)
  obtain ⟨u, t, hu', ht, hsame⟩ := hrest.exec i
  obtain rfl := Host.Outcome.next.inj (hu.symm.trans hu')
  have hstep : step a = .next t := by rw [step_engineTurn hp, engineStep_busy (hrest.seq.symm.trans hb) hd, ht]
  exact ⟨t, hstep, exec_pending ht, hsame⟩

/-- Settles O58: the traffic leads to a state that is the same for the command, and the engine agent's turn from there
to the same completion. -/
theorem busyTrafficCannotChangeTheCommand : Obligations.BusyTrafficCannotChangeTheCommand := by
  unfold Obligations.BusyTrafficCannotChangeTheCommand
  intro s w i traffic hb hd htraffic
  obtain ⟨v, -, hturn⟩ := leads_engineTurn_busy hb hd
  have hstart : ∀ events, SameCommandState s { s with pending := events } := fun _ =>
    sameCommandState_outside s _ _ _ _ _
  obtain ⟨t, ht, -, htv⟩ := ((leads_traffic hb htraffic).append hturn).run (hstart _)
  obtain ⟨u, hu, -, huv⟩ := hturn.run (hstart _)
  rw [List.length_append, List.length_map, List.length_singleton] at ht
  exact ⟨t, u, ht, hu, htv.seq.symm.trans huv.seq, htv.mem.symm.trans huv.mem, htv.ramEpoch.symm.trans huv.ramEpoch,
    htv.regs.symm.trans huv.regs, htv.cand.symm.trans huv.cand, htv.result.symm.trans huv.result⟩

end Sys2Proof.Machine
end

section
/-! The window stream (20_memory.md R75; 44_analyze.md R191): the shape of its script, what one step loads, and its end
when the configuration is illegal. -/

namespace Sys2Proof.Machine

/-! ### Scripts performed by an idle engine -/

/-- The slots of the PCM RAM (R40). -/
def pcmSlots (s : State) (i : Nat) : Half := readHalf s (pcmAddr i)

/-- The slots once word `j` holds `w` (R65). -/
def storeWord (f : Nat → Half) (j : Nat) (w : Word) : Nat → Half :=
  Function.update (Function.update f (2 * j) (w.extractLsb' 0 16)) (2 * j + 1) (w.extractLsb' 16 16)

theorem pcmSlots_writeWord (s : State) (j : Nat) (w : Word) :
    pcmSlots (writeWord s (pcmAddr (2 * j)) w) = storeWord (pcmSlots s) j w := by
  funext i
  rw [storeWord, Function.update_apply, Function.update_apply]
  split
  · next h => rw [h]; exact readHalf_writeWord_high s j w
  split
  · next h => rw [h]; exact readHalf_writeWord_low s j w
  · exact readHalf_writeWord_other s (by simp only [pcmAddr]; omega) w

/-- An idle engine of capacity `n` with `φ` of its configuration, its `STATUS` and its samples. -/
def Idle (n : Nat) (φ : Regs → Status → (Nat → Half) → Prop) (s : State) : Prop :=
  s.seq = .idle ∧ s.params.nMax = n ∧ φ s.regs s.status (pcmSlots s)

section
variable {n : Nat} {φ ψ : Regs → Status → (Nat → Half) → Prop}

theorem leads_wr {a : Nat} {l : Location} {v : Word} (ha : a < 2 ^ 18) (h4 : a % 4 = 0) (hl : locate n a = l)
    (h : ∀ s, Idle n φ s → Idle n ψ (writeIdle l v s)) : Leads (Idle n φ) [wr a v] (Idle n ψ) := by
  refine Leads.host fun s rest hs => ?_
  obtain ⟨hi, hn, hφ⟩ := hs
  rw [hostStep_write _ h4, portOffset_eq _ ha, hn, hl, hostWrite_idle (by exact hi)]
  exact h { s with pending := rest } ⟨hi, hn, hφ⟩

theorem leads_wr_cfg (r : CfgReg) (v : Word) (h : ∀ g st f, φ g st f → ψ (g.set r v) st f) :
    Leads (Idle n φ) [wr (cfgOffset r) v] (Idle n ψ) := by
  obtain ⟨-, ha, h4⟩ := registerMap_sound _ (cfg_mem_registerMap r)
  refine leads_wr ha h4 (locate_of_mem_registerMap (cfg_mem_registerMap r) n) fun s hs => ?_
  obtain ⟨hi, hn, hφ⟩ := hs
  exact ⟨hi, hn, h _ _ _ hφ⟩

theorem leads_wr_pcm (hcap : n ≤ 16384) {j : Nat} (hj : j < n) (v : Word)
    (h : ∀ g st f, φ g st f → ψ g st (storeWord f j v)) : Leads (Idle n φ) [wr (pcmWordAddr j) v] (Idle n ψ) := by
  refine leads_wr (pcmWordAddr_lt hcap hj) (pcmWordAddr_mod_four j) (locate_pcmWordAddr hj) fun s hs => ?_
  obtain ⟨hi, hn, hφ⟩ := hs
  refine ⟨hi, hn, ?_⟩
  rw [writeIdle, pcmSlots_writeWord]
  exact h _ _ _ hφ

/-- A command word that fails a check. -/
theorem leads_cmd_rejected {w : Word} {e : CmdError} (hc : ∀ s, Idle n φ s → check s w = some e)
    (h : ∀ g st f, φ g st f → ψ g { done := true, err := true, errCode := errorCode e } f) :
    Leads (Idle n φ) [wr 0x00C w] (Idle n ψ) := by
  refine leads_wr (l := .cmd) (by decide) (by decide) rfl fun s hs => ?_
  rw [writeIdle, issue_error (hc s hs)]
  obtain ⟨hi, hn, hφ⟩ := hs
  exact ⟨hi, hn, h _ _ _ hφ⟩

theorem leads_rd (a : Nat) : Leads (Idle n φ) [rd a] (Idle n φ) := by
  refine Leads.host fun s rest hs => ?_
  obtain ⟨r, k, h⟩ := hostStep_read_frame .word a { s with pending := rest }
  rw [h]
  exact hs

theorem leads_engineTurn_idle : Leads (Idle n φ) [.engineTurn] (Idle n φ) :=
  .of_step fun s rest hs hp =>
    ⟨{ s with pending := rest }, by rw [step_engineTurn hp, engineStep_idle (by exact hs.1)], rfl, hs⟩

theorem mem_waitProgram {k : Nat} {e : Event} (h : e ∈ waitProgram k) : e = rd 0x008 ∨ e = .engineTurn := by
  simp only [waitProgram, List.mem_append, List.mem_replicate, List.mem_cons, List.not_mem_nil, or_false] at h
  tauto

theorem mem_emitProgram {k : Nat} {e : Event} (h : e ∈ emitProgram k) : ∃ a, e = rd a := by
  obtain ⟨i, -, rfl⟩ := List.mem_map.mp h
  exact ⟨_, rfl⟩

theorem leads_waitProgram (k : Nat) : Leads (Idle n φ) (waitProgram k) (Idle n φ) :=
  .invariant fun _ he => by
    rcases mem_waitProgram he with rfl | rfl
    · exact leads_rd _
    · exact leads_engineTurn_idle

theorem leads_emitProgram (k : Nat) : Leads (Idle n φ) (emitProgram k) (Idle n φ) :=
  .invariant fun _ he => by
    obtain ⟨a, rfl⟩ := mem_emitProgram he
    exact leads_rd a

end

/-! ### The steps of the stream -/

theorem lt_streamSteps_iff {w : Nat} (hw : 1 ≤ w) (frames m : Nat) : m < streamSteps frames w ↔ m * w < frames := by
  rw [streamSteps, ← Nat.succ_le_iff, Nat.le_div_iff_mul_le hw, Nat.succ_mul]
  omega

/-- The loop takes every step from `m` on when it has the fuel for them. -/
theorem streamLoop_eq (nMax : Nat) (raw : List Half) (c : Nat) {w : Nat} (hw : 1 ≤ w) (polls : Nat → Nat)
    (fuel m : Nat) (h : streamSteps (raw.length / c) w ≤ m + fuel) :
    streamLoop nMax raw c w polls fuel m =
      (List.range' m (streamSteps (raw.length / c) w - m)).flatMap fun i => streamStep nMax raw c w (polls i) i := by
  induction fuel generalizing m with
  | zero => rw [Nat.sub_eq_zero_of_le (by omega)]; rfl
  | succ fuel ih =>
    have hm := lt_streamSteps_iff hw (raw.length / c) m
    rw [streamLoop]
    split
    · next hlt =>
      rw [ih (m + 1) (by omega),
        show streamSteps (raw.length / c) w - m = streamSteps (raw.length / c) w - (m + 1) + 1 by omega,
        List.range'_succ, List.flatMap_cons]
    · next hge => rw [Nat.sub_eq_zero_of_le (by omega)]; rfl

theorem streamSteps_le {w : Nat} (hw : 1 ≤ w) (frames : Nat) : streamSteps frames w ≤ frames := by
  by_contra h
  have := (lt_streamSteps_iff hw frames frames).mp (by omega)
  have := Nat.le_mul_of_pos_right frames hw
  omega

/-- What R75 needs of the configuration for the engine to take its commands: one or two channels, and a window that is
not empty and fits. -/
def StreamFits (n : Nat) (c sr p : Word) : Prop :=
  (c = 1#32 ∨ c = 2#32) ∧ 1 ≤ roundHe (sr.toNat * p.toNat) 1000 ∧ roundHe (sr.toNat * p.toNat) 1000 ≤ n

theorem streamLegal_iff (c sr p : Word) : streamLegal c sr p = true ↔ (c = 1#32 ∨ c = 2#32) ∧ sr ≠ 0#32 ∧ p ≠ 0#32 := by
  simp only [streamLegal, Bool.and_eq_true, Bool.or_eq_true, beq_iff_eq, decide_eq_true_eq, and_assoc]
  bv_omega

/-- A window that is not empty has a rate and a period. -/
theorem StreamFits.streamLegal {n : Nat} {c sr p : Word} (h : StreamFits n c sr p) : streamLegal c sr p = true := by
  obtain ⟨hc, hw, -⟩ := h
  refine (streamLegal_iff c sr p).mpr ⟨hc, ?_, ?_⟩
  · rintro rfl
    rw [BitVec.toNat_zero, Nat.zero_mul] at hw
    exact absurd hw (by decide)
  · rintro rfl
    rw [BitVec.toNat_zero, Nat.mul_zero] at hw
    exact absurd hw (by decide)

/-- The script of a stream that fits: its configuration and then `ceil(L / W)` steps. -/
theorem hostStream_eq {n : Nat} (hcap : n ≤ 16384) (buf : List Byte) {c sr p : Word} (polls : Nat → Nat)
    (h : StreamFits n c sr p) {w : Nat} (hw : w = roundHe (sr.toNat * p.toNat) 1000) :
    hostStream n buf c sr p polls = streamConfig (samplesOfBytes buf) c sr p ++
      (List.range (streamSteps ((samplesOfBytes buf).length / c.toNat) w)).flatMap fun m =>
        streamStep n (samplesOfBytes buf) c.toNat w (polls m) m := by
  have hwin : streamWindow sr p = w := by rw [hw]; exact min_eq_left (h.2.2.trans (by omega))
  have hpos : 1 ≤ w := hw ▸ h.2.1
  simp only [hostStream, h.streamLegal, if_true, hwin]
  rw [streamLoop_eq n _ _ hpos polls _ 0 (by rw [Nat.zero_add]; exact streamSteps_le hpos _), Nat.sub_zero,
    ← List.range_eq_range']

/-! ### The commands of the script -/

/-- The writes of a window's words go to words of the PCM RAM. -/
theorem mem_windowWords {n : Nat} {xs : List Half} {j : Nat} {e : Event} (h : e ∈ windowWords n j xs) :
    ∃ i v, i < n ∧ e = wr (pcmWordAddr i) v := by
  induction j, xs using windowWords.induct n with
  | case1 j => simp [windowWords] at h
  | case2 j a hj =>
    rw [windowWords, if_pos hj, List.mem_singleton] at h
    exact ⟨j, _, hj, h⟩
  | case3 j a hj => simp [windowWords, hj] at h
  | case4 j a b rest hj ih =>
    rw [windowWords, if_pos hj, List.mem_cons] at h
    rcases h with rfl | h
    · exact ⟨j, _, hj, rfl⟩
    · exact ih h
  | case5 j a b rest hj => simp [windowWords, hj] at h

theorem mem_streamLoad {n : Nat} {raw : List Half} {c w m : Nat} {e : Event} (h : e ∈ streamLoad n raw c w m) :
    (∃ i v, i < n ∧ e = wr (pcmWordAddr i) v) ∨ ∃ v, e = wr (cfgOffset .len) v := by
  rw [streamLoad, List.mem_append, List.mem_singleton] at h
  rcases h with h | h
  · exact .inl (mem_windowWords h)
  · exact .inr ⟨_, h⟩

/-- Is the event the write of `ANALYZE` to `CMD`? -/
def isAnalyze (e : Event) : Bool := decide (e = wr 0x00C 0x00000001#32)

theorem isAnalyze_wr {a : Nat} (h : a ≠ 0x00C) (v : Word) : isAnalyze (wr a v) = false := by
  simp [isAnalyze, wr, h]

theorem countP_isAnalyze_eq_zero {es : List Event} (h : ∀ e ∈ es, isAnalyze e = false) : es.countP isAnalyze = 0 :=
  List.countP_eq_zero.mpr fun e he => by simp [h e he]

/-- Each step of the stream issues one `ANALYZE`. -/
theorem countP_streamStep (n : Nat) (raw : List Half) (c w polls m : Nat) :
    (streamStep n raw c w polls m).countP isAnalyze = 1 := by
  have hload : (streamLoad n raw c w m).countP isAnalyze = 0 := countP_isAnalyze_eq_zero fun e he => by
    rcases mem_streamLoad he with ⟨i, v, -, rfl⟩ | ⟨v, rfl⟩
    · exact isAnalyze_wr (by simp only [pcmWordAddr]; omega) v
    · exact isAnalyze_wr (by decide) v
  have hwait : (waitProgram polls).countP isAnalyze = 0 := countP_isAnalyze_eq_zero fun e he => by
    rcases mem_waitProgram he with rfl | rfl <;> rfl
  have hemit : (emitProgram c).countP isAnalyze = 0 := countP_isAnalyze_eq_zero fun e he => by
    obtain ⟨a, rfl⟩ := mem_emitProgram he
    rfl
  have hcmd : (cmdProgram .analyze).countP isAnalyze = 1 := by decide
  rw [streamStep, List.countP_append, List.countP_append, List.countP_append, hload, hcmd, hwait, hemit]

theorem countP_streamConfig (raw : List Half) (c sr p : Word) : (streamConfig raw c sr p).countP isAnalyze = 0 := by
  refine countP_isAnalyze_eq_zero fun e he => ?_
  simp only [streamConfig, List.mem_cons, List.not_mem_nil, or_false] at he
  rcases he with rfl | rfl | rfl | rfl | rfl
  · exact isAnalyze_wr (by decide) _
  · exact isAnalyze_wr (by decide) _
  · exact isAnalyze_wr (by decide) _
  · exact isAnalyze_wr (by decide) _
  · rfl

/-- The whole script issues one `ANALYZE` in each of its steps. -/
theorem countP_stream (n : Nat) (raw : List Half) (c sr p : Word) (w : Nat) (polls : Nat → Nat) (steps : Nat) :
    (streamConfig raw c sr p ++ (List.range steps).flatMap fun m => streamStep n raw c.toNat w (polls m) m).countP
      isAnalyze = steps := by
  have hone : List.countP isAnalyze ∘ (fun m => streamStep n raw c.toNat w (polls m) m) = fun _ => 1 :=
    funext fun m => countP_streamStep n raw c.toNat w (polls m) m
  rw [List.countP_append, countP_streamConfig, List.countP_flatMap, hone, List.map_const', List.sum_replicate,
    List.length_range, smul_eq_mul, Nat.mul_one, Nat.zero_add]

/-! ### What one step loads -/

/-- The first slots hold the samples of the list. -/
def SlotsHold (ys : List Half) (f : Nat → Half) : Prop := ∀ i v, ys[i]? = some v → f i = v

theorem SlotsHold.left {ys zs : List Half} {f : Nat → Half} (h : SlotsHold (ys ++ zs) f) : SlotsHold ys f :=
  fun i v hv => h i v (List.getElem?_append_left (List.getElem?_eq_some_iff.mp hv).1 ▸ hv)

/-- A word stored behind an even number of samples adds two. -/
theorem SlotsHold.storeWord {ys : List Half} {f : Nat → Half} (h : SlotsHold ys f) {j : Nat} (hj : ys.length = 2 * j)
    (a b : Half) : SlotsHold (ys ++ [a, b]) (storeWord f j (b ++ a)) := by
  intro i v hv
  rw [Machine.storeWord, Function.update_apply, Function.update_apply]
  rw [List.getElem?_append] at hv
  split at hv
  · next hi => rw [if_neg (by omega), if_neg (by omega)]; exact h i v hv
  · next hi =>
    obtain ⟨k, rfl⟩ := Nat.exists_eq_add_of_le (Nat.le_of_not_lt hi)
    rw [Nat.add_sub_cancel_left] at hv
    match k with
    | 0 =>
      rw [if_neg (by omega), if_pos (by omega)]
      exact BitVec.extractLsb'_append_eq_right.trans (Option.some.inj hv)
    | 1 =>
      rw [if_pos (by omega)]
      exact BitVec.extractLsb'_append_eq_left.trans (Option.some.inj hv)
    | k + 2 => cases hv

/-- The words of a window load its samples behind those already there. -/
theorem leads_windowWords {n : Nat} (hcap : n ≤ 16384) {φ : Regs → Status → Prop} (j : Nat) (xs : List Half)
    {ys : List Half} (hj : ys.length = 2 * j) (hxs : 2 * j + xs.length ≤ 2 * n) :
    Leads (Idle n fun g st f => φ g st ∧ SlotsHold ys f) (windowWords n j xs)
      (Idle n fun g st f => φ g st ∧ SlotsHold (ys ++ xs) f) := by
  induction j, xs using windowWords.induct n generalizing ys with
  | case1 j => rw [windowWords, List.append_nil]; exact .nil
  | case2 j a hlt =>
    rw [windowWords, if_pos hlt]
    refine leads_wr_pcm hcap hlt _ fun g st f h => ⟨h.1, ?_⟩
    have hstore := h.2.storeWord hj a 0#16
    rw [← List.singleton_append, ← List.append_assoc] at hstore
    exact hstore.left
  | case3 j a hge => simp only [List.length_singleton] at hxs; omega
  | case4 j a b rest hlt ih =>
    simp only [List.length_cons] at hxs
    rw [windowWords, if_pos hlt, List.append_cons, List.append_cons, List.append_assoc ys]
    refine .cons (leads_wr_pcm hcap hlt _ fun g st f h => ⟨h.1, h.2.storeWord hj a b⟩) (ih ?_ (by omega))
    rw [List.length_append, hj]; rfl
  | case5 j a b rest hge => simp only [List.length_cons] at hxs; omega

/-- The samples of step `m` (R75). -/
def streamSamples (raw : List Half) (c w m : Nat) : List Half :=
  (raw.drop (m * w * c)).take (streamLen (raw.length / c) w m * c)

/-- The writes of a step leave its samples in the PCM RAM and their number of frames in `LEN`. -/
theorem leads_streamLoad {n : Nat} (hcap : n ≤ 16384) (raw : List Half) {c w : Nat} (hc : c ≤ 2) (hw : w ≤ n)
    (m : Nat) : Leads (Idle n fun _ _ _ => True) (streamLoad n raw c w m) (Idle n fun g _ f =>
      g.len.toNat = streamLen (raw.length / c) w m ∧ SlotsHold (streamSamples raw c w m) f) := by
  have hlen : streamLen (raw.length / c) w m ≤ n := (min_le_left _ _).trans hw
  have hfit : 2 * 0 + (streamSamples raw c w m).length ≤ 2 * n := by
    have := Nat.mul_le_mul hlen hc
    rw [streamSamples, List.length_take]
    omega
  have hwords := leads_windowWords hcap (φ := fun _ _ => True) 0 (streamSamples raw c w m) (ys := []) rfl hfit
  have hstart : ∀ s, Idle n (fun _ _ _ => True) s → Idle n (fun _ _ f => True ∧ SlotsHold [] f) s :=
    fun s ⟨hi, hn, _⟩ => ⟨hi, hn, trivial, fun _ _ h => by cases h⟩
  refine (hwords.of_imp hstart).append (leads_wr_cfg .len _ fun g st f h => ⟨?_, h.2⟩)
  rw [Regs.set, BitVec.toNat_ofNat, Nat.mod_eq_of_lt (by omega)]

/-- Sample `ch` of frame `m·W + i` is in the place R75 gives it. -/
theorem getElem?_streamSamples (raw : List Half) {c w m i ch : Nat} (hi : i < streamLen (raw.length / c) w m)
    (hch : ch < c) : (streamSamples raw c w m)[i * c + ch]? = some (raw.getD ((m * w + i) * c + ch) 0#16) := by
  have hslot : i * c + ch < streamLen (raw.length / c) w m * c := by
    have := Nat.mul_le_mul_right c (Nat.succ_le_of_lt hi)
    rw [Nat.succ_mul] at this
    omega
  have hraw : (m * w + i) * c + ch < raw.length := by
    have hframe : m * w + i + 1 ≤ raw.length / c := by rw [streamLen] at hi; omega
    have := (Nat.mul_le_mul_right c hframe).trans (Nat.div_mul_le_self _ _)
    rw [Nat.succ_mul] at this
    omega
  have hplace : m * w * c + (i * c + ch) = (m * w + i) * c + ch := by rw [Nat.add_mul, Nat.add_assoc]
  rw [streamSamples, List.getElem?_take_of_lt hslot, List.getElem?_drop, hplace, List.getElem?_eq_getElem hraw,
    List.getD_eq_getElem _ _ hraw]

/-- Every step but the last takes a whole window, and the last one the rest of the frames. -/
theorem streamLen_eq {w frames m : Nat} (hw : 1 ≤ w) (hm : m < streamSteps frames w) :
    streamLen frames w m =
      if m + 1 < streamSteps frames w then w else frames - (streamSteps frames w - 1) * w := by
  have hnext := lt_streamSteps_iff hw frames (m + 1)
  rw [Nat.succ_mul] at hnext
  rw [streamLen]
  split
  · omega
  · next hlast =>
    rw [show streamSteps frames w - 1 = m by omega]
    omega

/-! ### A stream whose configuration is illegal -/

/-- An engine that the stream has configured, with `q` of its `STATUS`. -/
def Configured (n : Nat) (c sr p : Word) (q : Status → Prop) : State → Prop :=
  Idle n fun g st _ => (g.channels = c ∧ g.sampleRate = sr ∧ g.periodMs = p) ∧ q st

/-- `STATUS` after a command was rejected with ConfigurationError (R200). -/
def isConfigurationError (st : Status) : Prop := st = { done := true, err := true, errCode := 1#4 }

theorem leads_streamConfig (n : Nat) (raw : List Half) (c sr p : Word) :
    Leads (Idle n fun _ _ _ => True) (streamConfig raw c sr p) (Configured n c sr p fun _ => True) := by
  refine .cons (leads_wr_cfg (ψ := fun g _ _ => g.channels = c) .channels c fun _ _ _ _ => rfl) ?_
  refine .cons (leads_wr_cfg (ψ := fun g _ _ => g.channels = c ∧ g.sampleRate = sr) .sampleRate sr
    fun _ _ _ h => ⟨h, rfl⟩) ?_
  refine .cons (leads_wr_cfg (ψ := fun g _ _ => (g.channels = c ∧ g.sampleRate = sr ∧ g.periodMs = p) ∧ True)
    .periodMs p fun _ _ _ h => ⟨⟨h.1, h.2, rfl⟩, trivial⟩) ?_
  exact .cons (leads_wr_cfg .norm _ fun _ _ _ h => h) (leads_rd _)

/-- The engine's configuration check covers what the stream needs (R116). -/
theorem streamFits_of_configOk {s : State} (h : configOk s = true) :
    StreamFits s.params.nMax s.regs.channels s.regs.sampleRate s.regs.periodMs := by
  simp only [configOk, Bool.and_eq_true, Bool.or_eq_true, beq_iff_eq, decide_eq_true_eq, channelCount, windowSize] at h
  obtain ⟨⟨⟨⟨⟨⟨⟨hc, -⟩, -⟩, hw⟩, -⟩, -⟩, -⟩, -⟩ := h
  exact ⟨hc.imp BitVec.eq_of_toNat_eq BitVec.eq_of_toNat_eq, hw.imp of_decide_eq_true of_decide_eq_true⟩

section
variable {n : Nat} {c sr p : Word} (hbad : ¬ StreamFits n c sr p)
include hbad

theorem check_analyze_of_not_streamFits {q : Status → Prop} {s : State} (h : Configured n c sr p q s) :
    check s (encode .analyze) = some .configuration := by
  obtain ⟨-, hn, ⟨hc, hsr, hp⟩, -⟩ := h
  have hconf : configOk s = false := by
    by_contra hok
    have := streamFits_of_configOk (Bool.not_eq_false _ ▸ hok)
    rw [hn, hc, hsr, hp] at this
    exact hbad this
  have hdec : decode (encode .analyze) = .ok .analyze := by decide
  simp [check, hdec, hconf]

/-- `ANALYZE` and its `WAIT` end in ConfigurationError. -/
theorem leads_analyze_rejected (q : Status → Prop) (polls : Nat) :
    Leads (Configured n c sr p q) (cmdProgram .analyze ++ waitProgram polls)
      (Configured n c sr p isConfigurationError) := by
  refine .append (leads_cmd_rejected (fun s h => check_analyze_of_not_streamFits hbad h) fun _ _ _ h => ?_)
    (leads_waitProgram polls)
  exact ⟨h.1, rfl⟩

/-- So does a step of the stream. -/
theorem leads_streamStep_rejected (hcap : n ≤ 16384) (raw : List Half) (k w polls m : Nat) (q : Status → Prop) :
    Leads (Configured n c sr p q) (streamStep n raw k w polls m) (Configured n c sr p isConfigurationError) := by
  have hload : Leads (Configured n c sr p q) (streamLoad n raw k w m) (Configured n c sr p q) := by
    refine Leads.invariant fun e he => ?_
    rcases mem_streamLoad he with ⟨i, v, hi, rfl⟩ | ⟨v, rfl⟩
    · exact leads_wr_pcm hcap hi v fun _ _ _ h => h
    · exact leads_wr_cfg .len v fun _ _ _ h => h
  rw [streamStep, List.append_assoc (streamLoad n raw k w m)]
  exact (hload.append (leads_analyze_rejected hbad q polls)).append (leads_emitProgram k)

/-- The rest of the loop keeps ConfigurationError. -/
theorem leads_streamLoop_rejected (hcap : n ≤ 16384) (raw : List Half) (k w : Nat) (polls : Nat → Nat) (fuel m : Nat) :
    Leads (Configured n c sr p isConfigurationError) (streamLoop n raw k w polls fuel m)
      (Configured n c sr p isConfigurationError) := by
  induction fuel generalizing m with
  | zero => exact .nil
  | succ fuel ih =>
    rw [streamLoop]
    split
    · exact (leads_streamStep_rejected hbad hcap raw k w (polls m) m _).append (ih (m + 1))
    · exact .nil

/-- The whole procedure ends in ConfigurationError, given a frame for the loop to start on where `require` holds. -/
theorem leads_hostStream_rejected (hcap : n ≤ 16384) (buf : List Byte) (polls : Nat → Nat)
    (hframe : streamLegal c sr p = true → 1 ≤ (samplesOfBytes buf).length / c.toNat) :
    Leads (Idle n fun _ _ _ => True) (hostStream n buf c sr p polls) (Configured n c sr p isConfigurationError) := by
  rw [hostStream]
  refine .append (leads_streamConfig n _ c sr p) ?_
  split
  · next hlegal =>
    obtain ⟨fuel, hfuel⟩ := Nat.exists_eq_add_of_le' (hframe hlegal)
    rw [hfuel, streamLoop, if_pos (by omega)]
    exact (leads_streamStep_rejected hbad hcap _ _ _ _ _ _).append
      (leads_streamLoop_rejected hbad hcap _ _ _ _ _ _)
  · exact leads_analyze_rejected hbad _ 0

end

/-- R75's illegal configurations are no fit, and where `require` holds the buffer has a frame. -/
theorem not_streamFits_of_illegal {n : Nat} {c sr p : Word} {samples : Nat}
    (h : (c ≠ 1#32 ∧ c ≠ 2#32) ∨ sr = 0#32 ∨ p = 0#32 ∨
      ((roundHe (sr.toNat * p.toNat) 1000 = 0 ∨ n < roundHe (sr.toNat * p.toNat) 1000) ∧ c.toNat ≤ samples)) :
    ¬ StreamFits n c sr p ∧ (streamLegal c sr p = true → 1 ≤ samples / c.toNat) := by
  refine ⟨fun hfits => ?_, fun hlegal => ?_⟩
  · obtain ⟨hc, hsr, hp⟩ := (streamLegal_iff c sr p).mp hfits.streamLegal
    obtain ⟨-, hpos, hle⟩ := hfits
    rcases h with ⟨h1, h2⟩ | h | h | ⟨h, -⟩
    · exact hc.elim h1 h2
    · exact hsr h
    · exact hp h
    · omega
  · obtain ⟨hc, hsr, hp⟩ := (streamLegal_iff c sr p).mp hlegal
    rcases h with ⟨h1, h2⟩ | h | h | ⟨-, h⟩
    · exact absurd hc (by simp [h1, h2])
    · exact absurd h hsr
    · exact absurd h hp
    · have hcpos : 0 < c.toNat := by rcases hc with rfl | rfl <;> decide
      exact (Nat.le_div_iff_mul_le hcpos).mpr (by omega)

/-- Settles O60: the script is `hostStream_eq`, its commands are counted by `countP_stream`, each step loads what
`leads_streamLoad` says, and an illegal configuration is `leads_hostStream_rejected`. -/
theorem streamLoadsAndAnalyzesEachWindow : Obligations.StreamLoadsAndAnalyzesEachWindow := by
  unfold Obligations.StreamLoadsAndAnalyzesEachWindow
  intro n buf c sr p polls hcap
  refine ⟨fun hc hpos hle raw frames w steps hraw hframes hw hsteps => ?_, fun hill s hi hn => ?_⟩
  · have hscript := hostStream_eq hcap buf polls ⟨hc, hpos, hle⟩ hw
    subst hraw hframes hsteps
    have hwpos : 1 ≤ w := hw ▸ hpos
    refine ⟨hscript, ?_, fun m hm => ⟨streamLen_eq hwpos hm, fun s rest hi hn => ?_⟩⟩
    · rw [← List.countP_eq_length_filter, hscript]
      exact countP_stream n _ c sr p w polls _
    · have hc2 : c.toNat ≤ 2 := by rcases hc with rfl | rfl <;> decide
      obtain ⟨t, hrun, hpend, hidle, -, hlen, hslots⟩ := leads_streamLoad hcap (samplesOfBytes buf) hc2 (hw ▸ hle) m
        { s with pending := streamLoad n (samplesOfBytes buf) c.toNat w m ++ rest } rest ⟨hi, hn, trivial⟩ rfl
      exact ⟨t, hrun, hidle, hpend, hlen, fun i ch hframe hch => hslots _ _ (getElem?_streamSamples _ hframe hch)⟩
  · obtain ⟨hbad, hframe⟩ := not_streamFits_of_illegal hill
    obtain ⟨t, hrun, -, hidle, -, -, hstatus⟩ :=
      (leads_hostStream_rejected hbad hcap buf polls hframe).run (s := s) ⟨hi, hn, trivial⟩
    exact ⟨t, hrun, hidle, hstatus⟩

end Sys2Proof.Machine
end

section
/-! The command words: the fields of R90's format, what a word can decode to, and the words R94 calls illegal
(30_encoding.md). -/

namespace Sys2Proof

/-! ### The format `CMDW` -/

theorem toNat_opField (w : Word) : (opField w).toNat = w.toNat % 2 ^ 4 := by
  simp [opField]

theorem toNat_lowReserved (w : Word) : (lowReserved w).toNat = w.toNat / 2 ^ 4 % 2 ^ 4 := by
  simp [lowReserved, Nat.shiftRight_eq_div_pow]

theorem toNat_chField (w : Word) : (chField w).toNat = w.toNat / 2 ^ 8 % 2 := by
  simp [chField, Nat.shiftRight_eq_div_pow]

theorem toNat_highReserved (w : Word) : (highReserved w).toNat = w.toNat / 2 ^ 9 := by
  have hw := w.isLt
  rw [highReserved, BitVec.extractLsb'_toNat, Nat.shiftRight_eq_div_pow]
  exact Nat.mod_eq_of_lt (by omega)

theorem lowReserved_eq_zero_iff (w : Word) : lowReserved w = 0#4 ↔ w.toNat / 2 ^ 4 % 2 ^ 4 = 0 := by
  rw [← toNat_lowReserved, ← BitVec.toNat_inj]; rfl

theorem highReserved_eq_zero_iff (w : Word) : highReserved w = 0#23 ↔ w.toNat / 2 ^ 9 = 0 := by
  rw [← toNat_highReserved, ← BitVec.toNat_inj]; rfl

theorem toNat_commandWord (op : BitVec 4) (ch : BitVec 1) :
    (commandWord op ch).toNat = 2 ^ 8 * ch.toNat + op.toNat := by
  change (0#23 ++ ch ++ 0#4 ++ op).toNat = _
  rw [BitVec.toNat_append, BitVec.toNat_append, BitVec.toNat_append,
    Nat.two_pow_add_eq_or_of_lt (op.isLt.trans (by decide))]
  simp only [BitVec.toNat_ofNat, Nat.zero_mod, Nat.zero_mul, Nat.zero_or, Nat.or_zero, Nat.shiftLeft_eq,
    Nat.mul_assoc, Nat.mul_comm 256, Nat.reducePow, Nat.reduceMul]

/-- A word whose reserved fields are zero is made of its `OP` and its `CH`. -/
theorem eq_commandWord {w : Word} (hh : highReserved w = 0#23) (hl : lowReserved w = 0#4) :
    w = commandWord (opField w) (chField w) := by
  rw [highReserved_eq_zero_iff] at hh
  rw [lowReserved_eq_zero_iff] at hl
  apply BitVec.eq_of_toNat_eq
  rw [toNat_commandWord, toNat_chField, toNat_opField]
  omega

theorem chBits_channelOf (ch : BitVec 1) : chBits (channelOf ch) = ch := by
  revert ch; decide

/-! ### Decoding -/

/-- A command's word decodes to it. -/
theorem decode_encode (i : Instr) : decode (encode i) = .ok i := by
  cases i with
  | nop | analyze => rfl
  | spectrum c | select c | shape c => cases c <;> rfl

/-- Settles O1: each of the eight words is the encoding of its command. -/
theorem commandWordsDecode : Obligations.CommandWordsDecode := by
  unfold Obligations.CommandWordsDecode
  exact ⟨decode_encode .nop, decode_encode .analyze, decode_encode (.spectrum .ch0), decode_encode (.spectrum .ch1),
    decode_encode (.select .ch0), decode_encode (.select .ch1), decode_encode (.shape .ch0), decode_encode (.shape .ch1)⟩

/-- Settles O2: every command, with each channel operand, is the decoding of its word. -/
theorem encodeThenDecode : Obligations.EncodeThenDecode := by
  unfold Obligations.EncodeThenDecode
  exact fun i _ => decode_encode i

/-- What a word is when the decoder gives a result of it: the command's word, or a word with the reason for its error
(R93, R94). -/
def DecodesAs (w : Word) : Except DecodeError Instr → Prop
  | .ok i => w = encode i
  | .error .reservedBits => highReserved w ≠ 0#23 ∨ lowReserved w ≠ 0#4
  | .error .reservedOp => 5 ≤ (opField w).toNat
  | .error .channelOperand => w = commandWord 0x0#4 1#1 ∨ w = commandWord 0x1#4 1#1

theorem decodesAs_decode (w : Word) : DecodesAs w (decode w) := by
  by_cases hr : highReserved w ≠ 0#23 ∨ lowReserved w ≠ 0#4
  · rw [decode, if_pos hr]; exact hr
  obtain ⟨hh, hl⟩ : highReserved w = 0#23 ∧ lowReserved w = 0#4 := by simpa using hr
  have hw := eq_commandWord hh hl
  have hone : ∀ ch : BitVec 1, ch ≠ 0#1 → ch = 1#1 := by decide
  rw [decode, if_neg hr]
  split_ifs with hop hch hop hch hop hop hop
  · rwa [hop, hch] at hw
  · rw [hop, hone _ hch] at hw; exact .inl hw
  · rwa [hop, hch] at hw
  · rw [hop, hone _ hch] at hw; exact .inr hw
  · rwa [hop, ← chBits_channelOf (chField w)] at hw
  · rwa [hop, ← chBits_channelOf (chField w)] at hw
  · rwa [hop, ← chBits_channelOf (chField w)] at hw
  · change 5 ≤ (opField w).toNat
    bv_omega

/-- Settles O3: the decoder's result says what its word is, and each command's word decodes to it. -/
theorem decodedWordIsItsEncoding : Obligations.DecodedWordIsItsEncoding := by
  unfold Obligations.DecodedWordIsItsEncoding
  intro w i
  constructor
  · intro h
    have hw := decodesAs_decode w
    rwa [h] at hw
  · rintro rfl
    exact decode_encode i

/-! ### Illegal words -/

/-- No command's word is on R94's list. -/
theorem encode_legal (i : Instr) :
    highReserved (encode i) = 0#23 ∧ lowReserved (encode i) = 0#4 ∧ (opField (encode i)).toNat < 5 ∧
      encode i ≠ commandWord 0x0#4 1#1 ∧ encode i ≠ commandWord 0x1#4 1#1 := by
  cases i with
  | nop | analyze => decide
  | spectrum c | select c | shape c => cases c <;> decide

/-- R94's list, in the fields of R90: an error's reason is on it, and no command's word is. -/
theorem decode_error_iff (w : Word) :
    (∃ e, decode w = .error e) ↔
      (highReserved w ≠ 0#23 ∨ lowReserved w ≠ 0#4 ∨ 5 ≤ (opField w).toNat ∨
        w = commandWord 0x0#4 1#1 ∨ w = commandWord 0x1#4 1#1) := by
  have hw := decodesAs_decode w
  constructor
  · rintro ⟨e, he⟩
    rw [he] at hw
    cases e with
    | reservedBits => exact hw.imp_right .inl
    | reservedOp => exact .inr (.inr (.inl hw))
    | channelOperand => exact .inr (.inr (.inr hw))
  · intro hlist
    cases hd : decode w with
    | error e => exact ⟨e, rfl⟩
    | ok i =>
      rw [hd] at hw
      obtain rfl : w = encode i := hw
      obtain ⟨hhigh, hlow, hop, hnop, hanalyze⟩ := encode_legal i
      simp [hhigh, hlow, hnop, hanalyze, hop.not_ge] at hlist

end Sys2Proof

namespace Sys2Proof.Machine

theorem check_of_decode_error {s : State} {w : Word} {e : DecodeError} (h : decode w = .error e) :
    check s w = some .illegal := by
  simp only [check, h]

/-- Settles O4: R94's list is that of `decode_error_iff`, and the write to `CMD` is issued and rejected as illegal. -/
theorem illegalWordsExactly : Obligations.IllegalWordsExactly := by
  unfold Obligations.IllegalWordsExactly
  refine fun w => ⟨?_, fun s rest e hd hidle hp => ⟨{ rdata := none, resp := .okay }, ?_⟩⟩
  · rw [decode_error_iff, Ne, Ne, highReserved_eq_zero_iff, lowReserved_eq_zero_iff, toNat_opField]
    rfl
  · rw [step_cmd hp hidle, issue_error (check_of_decode_error hd)]
    rfl

end Sys2Proof.Machine
end

section
/-! The life of a command (40_command.md): what `ConfigOK` asks of the registers (R116), the checks in their order
(R111), the three outcomes of a `CMD` write (R110, R112, R115), and the completion step (R113, R117, R119). -/

namespace Sys2Proof.Machine

/-! ### The binary32 conditions of `ConfigOK`, as ranges of encodings -/

theorem isFinite_iff (w : Word) : isFinite w = true ↔ w.toNat / 2 ^ 23 % 2 ^ 8 ≠ 255 := by
  rw [isFinite, decide_eq_true_eq, magBits, infBits]
  omega

theorem isFinite_and_posF_iff (w : Word) :
    (isFinite w && posF w) = true ↔ 0 < w.toNat ∧ w.toNat < 0x7F800000 := by
  simp only [Bool.and_eq_true, isFinite_iff, posF_iff, infBits]
  omega

/-- A word without a sign compares with 1.0 as its encoding does; one above it is larger or a NaN. -/
theorem legalResCeil_iff (w : Word) :
    (!isNaN w && !signBit w && leF w oneF) = true ↔ w.toNat ≤ 0x3F800000 := by
  have hlt := w.isLt
  cases hs : signBit w with
  | true =>
    rw [signBit_eq, decide_eq_true_eq] at hs
    simp only [Bool.not_true, Bool.and_false, Bool.false_and, Bool.false_eq_true, false_iff]
    omega
  | false =>
    have hnan : isNaN w = false ↔ w.toNat ≤ infBits := by
      rw [isNaN, decide_eq_false_iff_not, Nat.not_lt, magBits_eq_of_nonneg hs]
    have hone : isNaN oneF = false := by decide
    have hle : unitsOf w ≤ unitsOf oneF ↔ w.toNat ≤ 0x3F800000 := by
      rw [unitsOf_nonneg_word hs, unitsOf_nonneg_word (by decide), Nat.cast_le, encUnits_le_iff]
      rfl
    simp only [leF, hone, hnan, hle, infBits, Bool.and_eq_true, Bool.not_eq_true', decide_eq_true_eq, and_true]
    omega

theorem legalChannels_iff (s : State) :
    (channelCount s == 1 || channelCount s == 2) = true ↔ s.regs.channels = 1#32 ∨ s.regs.channels = 2#32 := by
  simp only [Bool.or_eq_true, beq_iff_eq, channelCount, ← BitVec.toNat_inj]
  rfl

/-- Settles O7: each conjunct of `configOk` is one row of R116's table. -/
theorem configOkExactly : Obligations.ConfigOkExactly := by
  unfold Obligations.ConfigOkExactly
  intro s
  simp only [configOk, ↓legalChannels_iff, ↓legalResCeil_iff, ↓isFinite_and_posF_iff, isFinite_iff, Bool.and_eq_true,
    decide_eq_true_eq, and_assoc]
  rfl

/-! ### The checks -/

theorem check_nop {s : State} {w : Word} (h : decode w = .ok .nop) : check s w = none := by
  rw [check_none_iff]
  exact ⟨_, h, .inl rfl⟩

/-- A command other than `NOP` is checked for its configuration, its channel and its window, in this order (R111). -/
theorem check_of_decode_ok {w : Word} {i : Instr} (h : decode w = .ok i) (hi : i ≠ .nop) (s : State) :
    check s w = if !configOk s then some .configuration else if requestBad s i then some .request
      else if readsWindow i && !lengthOk s then some .length else none := by
  simp only [check, h, hi, if_false]

theorem channelOperand_eq_some_iff (i : Instr) (c : Channel) :
    channelOperand i = some c ↔ i = .spectrum c ∨ i = .select c ∨ i = .shape c := by
  cases i <;> simp [channelOperand]

theorem requestBad_iff (s : State) (i : Instr) :
    requestBad s i = true ↔ ∃ c, channelOperand i = some c ∧ s.regs.channels.toNat ≤ c.index := by
  unfold requestBad
  split
  · next h => simp [h]
  · next c h =>
    simp only [h, Option.some.injEq, exists_eq_left', decide_eq_true_eq]
    rfl

theorem readsWindow_iff (i : Instr) :
    readsWindow i = true ↔ i = .analyze ∨ (∃ c, i = .spectrum c) ∨ ∃ c, i = .select c := by
  cases i <;> simp [readsWindow]

theorem lengthOk_iff (s : State) :
    lengthOk s = true ↔ 1 ≤ s.regs.len.toNat ∧ s.regs.len.toNat ≤ windowSize s := by
  rw [lengthOk, Bool.and_eq_true, decide_eq_true_eq, decide_eq_true_eq]
  rfl

/-- Settles O6: the chain of `check_of_decode_ok`, each test read off its condition. -/
theorem checksInPriorityOrder : Obligations.ChecksInPriorityOrder := by
  unfold Obligations.ChecksInPriorityOrder
  refine fun s w => ⟨fun e he => check_of_decode_error he, check_nop, fun i hd hi => ?_⟩
  rw [check_of_decode_ok hd hi]
  simp only [← channelOperand_eq_some_iff, ← lengthOk_iff, ← readsWindow_iff, ← requestBad_iff]
  refine ⟨fun hc => by simp [hc], fun hc => ⟨fun hbad => by simp [hc, hbad], fun hch => ?_⟩⟩
  have hgood : requestBad s i = false := by
    rw [← Bool.not_eq_true, requestBad_iff]
    exact fun ⟨c, hop, hle⟩ => (hch c hop).not_ge hle
  refine ⟨fun hlen hwin => by simp [hc, hgood, hlen, hwin], ?_⟩
  rintro (hlen | ⟨c, rfl⟩)
  · simp [hc, hgood, hlen]
  · simp [hc, hgood, readsWindow]

/-! ### The `CMD` write -/

/-- A command word written to a busy engine is a BusyWrite (R110). -/
theorem step_cmd_busy {s : State} {v w : Word} {rest : List Event} (hb : s.seq = .busy v)
    (h : s.pending = wr 0x00C w :: rest) :
    step s = .next (respond { rdata := none, resp := .okay } (busyWrite { s with pending := rest })) := by
  rw [step_wr_register (l := .cmd) (by decide) h, hostWrite, writeEffect_busy (l := .cmd) (by exact hb) nofun nofun]

/-- Settles O5: a busy engine drops the word, an idle one issues it with the outcome of its checks. -/
theorem cmdWriteAcceptsOrRejects : Obligations.CmdWriteAcceptsOrRejects := by
  unfold Obligations.CmdWriteAcceptsOrRejects
  refine ⟨⟨rfl, rfl, rfl, rfl⟩, fun s w rest hp => ⟨fun v hb => ?_, fun hi hc => ?_, fun e hi hc => ?_⟩⟩
  · exact ⟨{ rdata := none, resp := .okay }, step_cmd_busy hb hp⟩
  · refine ⟨_, { rdata := none, resp := .okay }, step_cmd hp hi, ?_⟩
    rw [issue_ok ((check_pending s w rest).trans hc)]
    exact ⟨rfl, by simp [readLocation, getLsbD_statusWord, isBusy]⟩
  · refine ⟨{ rdata := none, resp := .okay }, ?_⟩
    rw [step_cmd hp hi, issue_error ((check_pending s w rest).trans hc)]
    rfl

/-! ### The completion step -/

/-- Settles O34: by the frame of a completion step. -/
theorem everyCommandCompletes : Obligations.EveryCommandCompletes := by
  unfold Obligations.EveryCommandCompletes
  intro i s
  obtain ⟨m, d, p, h⟩ := exec_frame i s
  exact ⟨_, h, rfl⟩

/-- Settles O33: the write of `NOP`'s word is accepted, and the engine's turn completes it. -/
theorem nopCompletes : Obligations.NopCompletes := by
  unfold Obligations.NopCompletes
  refine ⟨exec_nop, fun s rest hi hp => ?_⟩
  have hd : decode 0x00000000#32 = .ok .nop := by decide
  rw [run_next 1 (step_cmd hp hi), issue_ok (check_nop hd),
    run_next 0 ((step_engineTurn rfl).trans (engineStep_busy rfl hd)), run_zero]
  simp [respond, accept, complete, hi]

/-! ### The engine agent -/

/-- The word placed in flight by its table number is the word itself. -/
theorem withFetchWord_toNat (u : State) (w : Word) :
    u.withFetchWord 32 w.toNat = { u with seq := .busy w, pending := .engineTurn :: u.pending } := by
  rw [State.withFetchWord, tableWord, Nat.mod_eq_of_lt w.isLt, BitVec.ofNat_toNat, BitVec.setWidth_eq]
  rfl

/-- Settles O53: each of the three steps is the engine agent's, with the word in flight. -/
theorem stepRunsTheDecodedCommand : Obligations.StepRunsTheDecodedCommand := by
  unfold Obligations.StepRunsTheDecodedCommand
  refine fun s w i hb hd => ⟨fun hp => ?_, fun rest hp => ?_, fun u => ?_⟩
  · rw [step_nothing hp, engineStep_busy hb hd]
  · rw [step_engineTurn hp, engineStep_busy (by exact hb) hd]
  · rw [withFetchWord_toNat, step_engineTurn rfl, engineStep_busy rfl hd]

/-- Settles O56: the invariant leaves no step to stop. -/
theorem noStepStops : Obligations.NoStepStops := by
  unfold Obligations.NoStepStops
  intro s h
  obtain ⟨t, ht, -⟩ := h.step
  exact ⟨t, ht⟩

end Sys2Proof.Machine
end

section
/-! `SPECTRUM` on the machine (41_spectrum.md R130 to R138): what it writes, and what it reads. -/

namespace Sys2Proof.Machine

/-- The window of R131, slot by slot. -/
theorem window_eq (s : State) (c : Channel) : window s c =
    (List.range s.regs.len.toNat).map fun i =>
      (readHalf s (pcmAddr (i * s.regs.channels.toNat + c.index))).toInt := rfl

/-- The bins of the completed `SPECTRUM c` read as its magnitudes. -/
theorem specBin_complete_spectrumStage {s : State} {c : Channel} {k : Nat} (h : k < s.regs.len.toNat / 2) :
    specBin (complete (spectrumStage c s)) c k = spectrumOf s c k := by
  rw [specBin_congr (s := complete (spectrumStage c s)) (t := spectrumStage c s) rfl rfl, specBin_spectrumStage h]

/-- Settles O35: the bins read back as the magnitudes, and no byte outside them is written. -/
theorem spectrumWritesItsBins : Obligations.SpectrumWritesItsBins := by
  unfold Obligations.SpectrumWritesItsBins
  intro c s
  refine ⟨_, exec_spectrum c s, fun k hk => ?bins, fun a ha => ?frame, rfl⟩
  case bins => rw [specBin_complete_spectrumStage hk, spectrumOf, window_eq]
  case frame =>
    exact (readByte_eq_of_findByte (s := spectrumStage c s) (t := complete (spectrumStage c s)) rfl rfl).trans
      (readByte_spectrumStage_other ha)

/-- Settles O39: the bins read the parameters, `NORM` and the window, and the window only its lane. -/
theorem spectrumReadsOnlyItsLane : Obligations.SpectrumReadsOnlyItsLane := by
  unfold Obligations.SpectrumReadsOnlyItsLane
  intro c s u hparams hchannels hnorm hlen hlane
  refine ⟨_, _, exec_spectrum c s, exec_spectrum c u, fun k hk => ?_⟩
  rw [specBin_complete_spectrumStage hk, specBin_complete_spectrumStage (hlen ▸ hk), spectrumOf, spectrumOf, hparams,
    hnorm, window_congr hchannels hlen hlane]

/-! ### The range of a magnitude -/

theorem silentWindow_iff (raw : List Int) (a : Nat) : silentWindow raw a = true ↔ a = 0 ∨ ∀ x ∈ raw, x = 0 := by
  simp only [silentWindow, Bool.or_eq_true, beq_iff_eq, List.all_eq_true]

theorem exactMagnitude_of_silent {raw : List Int} {a : Nat} (h : silentWindow raw a = true) (k : Nat) :
    exactMagnitude raw a k = 0#32 := if_pos h

theorem toNat_exactMagnitude {raw : List Int} {a : Nat} (h : silentWindow raw a = false) (k : Nat) :
    (exactMagnitude raw a k).toNat =
      min (roundedMagnitude raw a k (attempts raw.length) baseBits) maxMagnitudeBits := by
  have hmax : maxMagnitudeBits < 2 ^ 32 := by decide
  rw [exactMagnitude, h, if_neg Bool.false_ne_true, BitVec.toNat_ofNat, Nat.mod_eq_of_lt (by omega)]

/-- The clamp of R135. -/
theorem exactMagnitude_le (raw : List Int) (a k : Nat) : (exactMagnitude raw a k).toNat ≤ maxMagnitudeBits := by
  cases h : silentWindow raw a with
  | true => rw [exactMagnitude_of_silent h]; exact Nat.zero_le _
  | false => rw [toNat_exactMagnitude h]; exact min_le_right _ _

/-- P2 and P3 of R137. -/
theorem conforms_iff (tol : Nat) (raw : List Int) (a k : Nat) (v : Word) :
    conforms tol raw a k v = true ↔ v.toNat ≤ maxFiniteBits ∧
      if silentWindow raw a then v = 0#32 else withinTolerance tol raw a k v = true := by
  rw [conforms, Bool.and_eq_true, decide_eq_true_eq]
  split <;> simp only [beq_iff_eq]

theorem boundedMagnitude_of_conforms {tol : Nat} {raw : List Int} {a k : Nat}
    (h : conforms tol raw a k (Config.magImpl raw a raw.length k) = true) :
    boundedMagnitude tol raw a k = Config.magImpl raw a raw.length k := if_pos h

theorem boundedMagnitude_of_not_conforms {tol : Nat} {raw : List Int} {a k : Nat}
    (h : conforms tol raw a k (Config.magImpl raw a raw.length k) = false) :
    boundedMagnitude tol raw a k = exactMagnitude raw a k := if_neg (Bool.eq_false_iff.mp h)

/-- A bounded-mode magnitude is a conforming value or the reference value. -/
theorem boundedMagnitude_cases (tol : Nat) (raw : List Int) (a k : Nat) :
    conforms tol raw a k (boundedMagnitude tol raw a k) = true ∨
      boundedMagnitude tol raw a k = exactMagnitude raw a k := by
  cases h : conforms tol raw a k (Config.magImpl raw a raw.length k) with
  | true => exact .inl (by rw [boundedMagnitude_of_conforms h, h])
  | false => exact .inr (boundedMagnitude_of_not_conforms h)

/-- Settles O37: the clamp bounds the reference value, and a value that conforms is finite by P2. -/
theorem magnitudesAreFinite : Obligations.MagnitudesAreFinite := by
  unfold Obligations.MagnitudesAreFinite
  intro mode raw a k
  have hexact : (exactMagnitude raw a k).toNat ≤ 0x47800000 := exactMagnitude_le raw a k
  refine ⟨?_, hexact⟩
  cases mode with
  | exactRounded => exact hexact.trans_lt (by decide)
  | bounded tol =>
    rcases boundedMagnitude_cases tol raw a k with hc | he
    · exact ((conforms_iff ..).mp hc).1.trans_lt (by decide)
    · exact (he ▸ hexact).trans_lt (by decide)

/-- P3 of R137, in both modes. -/
theorem magnitude_of_silent {raw : List Int} {a : Nat} (h : silentWindow raw a = true) (mode : MagMode) (k : Nat) :
    magnitude mode raw a k = 0#32 := by
  have hexact := exactMagnitude_of_silent h k
  cases mode with
  | exactRounded => exact hexact
  | bounded tol =>
    rcases boundedMagnitude_cases tol raw a k with hc | he
    · have hzero := ((conforms_iff ..).mp hc).2
      rwa [if_pos h] at hzero
    · exact he.trans hexact

/-- Settles O36: `NORM = 0` and a lane of zeros are the two ways for a window to be silent. -/
theorem silentWindowGivesZeroBins : Obligations.SilentWindowGivesZeroBins := by
  unfold Obligations.SilentWindowGivesZeroBins
  intro c s hsilent
  have hwindow : silentWindow (window s c) s.regs.norm.toNat = true := by
    rw [silentWindow_iff, window_eq]
    refine hsilent.imp (fun hnorm => by rw [hnorm]; rfl) fun hlane => ?_
    simp only [List.mem_map, List.mem_range, forall_exists_index, and_imp, forall_apply_eq_imp_iff₂]
    exact fun i hi => by rw [hlane i hi]; rfl
  exact ⟨_, exec_spectrum c s, fun k hk => by
    rw [specBin_complete_spectrumStage hk, spectrumOf, magnitude_of_silent hwindow]⟩

end Sys2Proof.Machine
end

section
/-! Integer polynomials as the lists of their coefficients: their values at roots of unity, and the model's operations
on them (41_spectrum.md R134, R135). -/

namespace Sys2Proof.Machine

open Polynomial

/-! ### Values -/

/-- The value at `z` of the polynomial with the coefficients `p`, the constant first. -/
def evalList {R : Type*} [CommRing R] (z : R) (p : List Int) : R :=
  p.foldr (fun c acc => acc * z + Int.cast c) 0

section
variable {R S : Type*} [CommRing R] [CommRing S] (z : R)

@[simp] theorem evalList_nil : evalList z [] = 0 := rfl

@[simp] theorem evalList_cons (c : Int) (p : List Int) : evalList z (c :: p) = evalList z p * z + c := rfl

theorem map_evalList (φ : R →+* S) (p : List Int) : φ (evalList z p) = evalList (φ z) p := by
  induction p with
  | nil => exact map_zero φ
  | cons c p ih => rw [evalList_cons, evalList_cons, map_add, map_mul, ih, map_intCast]

theorem evalList_append (p q : List Int) : evalList z (p ++ q) = evalList z p + z ^ p.length * evalList z q := by
  induction p with
  | nil => simp
  | cons c p ih => rw [List.cons_append, evalList_cons, evalList_cons, ih, List.length_cons]; ring

theorem evalList_map_mul (a : Int) (p : List Int) : evalList z (p.map (a * ·)) = a * evalList z p := by
  induction p with
  | nil => simp
  | cons c p ih => rw [List.map_cons, evalList_cons, evalList_cons, ih]; push_cast; ring

theorem evalList_zipWith_sub {p q : List Int} (h : p.length = q.length) :
    evalList z (List.zipWith (fun a b => a - b) p q) = evalList z p - evalList z q := by
  induction p generalizing q with
  | nil => rw [List.eq_nil_of_length_eq_zero h.symm]; simp
  | cons c p ih =>
    cases q with
    | nil => cases h
    | cons d q =>
      rw [List.zipWith_cons_cons, evalList_cons, evalList_cons, evalList_cons, ih (Nat.succ.inj h)]
      push_cast
      ring

theorem evalList_subConstant (x : Int) {p : List Int} (h : p ≠ []) :
    evalList z (subConstant x p) = evalList z p - x := by
  cases p with
  | nil => exact absurd rfl h
  | cons c p => rw [subConstant, evalList_cons, evalList_cons]; push_cast; ring

theorem evalList_eq_sum (p : List Int) :
    evalList z p = ∑ j ∈ Finset.range p.length, (p.getD j 0 : R) * z ^ j := by
  induction p with
  | nil => rfl
  | cons c p ih =>
    rw [evalList_cons, List.length_cons, Finset.sum_range_succ', ih, Finset.sum_mul]
    simp [pow_succ, mul_assoc]

theorem evalList_map_range (n : Nat) (f : Nat → Int) :
    evalList z ((List.range n).map f) = ∑ j ∈ Finset.range n, (f j : R) * z ^ j := by
  rw [evalList_eq_sum, List.length_map, List.length_range]
  refine Finset.sum_congr rfl fun j hj => ?_
  rw [List.getD_eq_getElem _ _ (by simpa using hj)]
  simp

end

theorem coeff_evalList_X (p : List Int) (j : Nat) : (evalList (X : ℤ[X]) p).coeff j = p.getD j 0 := by
  induction p generalizing j with
  | nil => simp
  | cons c p ih =>
    rw [evalList_cons, coeff_add, ← eq_intCast C, coeff_C]
    cases j with
    | zero => simp
    | succ j => simp [ih]

theorem natDegree_evalList_X_lt {p : List Int} (h : 0 < p.length) : (evalList (X : ℤ[X]) p).natDegree < p.length := by
  by_cases hp : evalList (X : ℤ[X]) p = 0
  · rwa [hp, natDegree_zero]
  · rw [natDegree_lt_iff_degree_lt hp, degree_lt_iff_coeff_zero]
    intro j hj
    rw [coeff_evalList_X, List.getD_eq_default _ _ hj]

theorem aeval_evalList_X {R : Type*} [CommRing R] (z : R) (p : List Int) :
    aeval z (evalList (X : ℤ[X]) p) = evalList z p := by
  simpa using map_evalList (X : ℤ[X]) (aeval z : ℤ[X] →ₐ[ℤ] R).toRingHom p

theorem eval_map_evalList_X (z : ℂ) (p : List Int) :
    ((evalList (X : ℤ[X]) p).map (Int.castRingHom ℂ)).eval z = evalList z p := by
  rw [← algebraMap_int_eq, eval_map_algebraMap, aeval_evalList_X]

/-! ### Cyclic lists -/

section
variable {R : Type*} [CommRing R] {z : R} {m : Nat}

/-- At an `m`-th root of unity, to rotate `m` coefficients by `s` is to divide by `z^s`. -/
theorem evalList_rotate {p : List Int} (hz : z ^ p.length = 1) {s : Nat} (hs : s ≤ p.length) :
    evalList z (p.rotate s) * z ^ s = evalList z p := by
  have hlen : z ^ (p.length - s) * z ^ s = 1 := by rw [← pow_add, Nat.sub_add_cancel hs, hz]
  conv_rhs => rw [← List.take_append_drop s p]
  rw [List.rotate_eq_drop_append_take hs, evalList_append, evalList_append, List.length_drop, List.length_take,
    min_eq_left hs, add_mul, mul_right_comm, hlen]
  ring

theorem sum_range_mul (f : Nat → R) (g m : Nat) :
    ∑ t ∈ Finset.range (g * m), f t = ∑ j ∈ Finset.range m, ∑ i ∈ Finset.range g, f (i * m + j) := by
  induction g with
  | zero => simp
  | succ g ih =>
    rw [Nat.succ_mul, Finset.sum_range_add, ih, ← Finset.sum_add_distrib]
    exact Finset.sum_congr rfl fun j _ => (Finset.sum_range_succ _ g).symm

theorem sum_map_range (f : Nat → Int) (n : Nat) : ((List.range n).map f).sum = ∑ i ∈ Finset.range n, f i := rfl

/-- To fold the coefficients modulo `x^m − 1` keeps the value at an `m`-th root of unity. -/
theorem evalList_foldMod (hz : z ^ m = 1) {p : List Int} (hm : m ∣ p.length) :
    evalList z (foldMod m p) = evalList z p := by
  rw [foldMod, evalList_map_range, evalList_eq_sum z p, ← Nat.div_mul_cancel hm, sum_range_mul]
  refine Finset.sum_congr rfl fun j _ => ?_
  rw [Nat.div_mul_cancel hm, sum_map_range, Int.cast_sum, Finset.sum_mul]
  refine Finset.sum_congr rfl fun i _ => ?_
  rw [pow_add, mul_comm i m, pow_mul, hz, one_pow, one_mul]

end

theorem getD_rotate_comm {p : List Int} {d l : Nat} (hd : d < p.length) (hl : l < p.length) :
    (p.rotate d).getD l 0 = (p.rotate l).getD d 0 := by
  have hl' : l < (p.rotate d).length := by rwa [List.length_rotate]
  have hd' : d < (p.rotate l).length := by rwa [List.length_rotate]
  rw [List.getD_eq_getElem _ _ hl', List.getD_eq_getElem _ _ hd', List.getElem_rotate, List.getElem_rotate]
  simp only [Nat.add_comm l d]

theorem sum_zipWith_mul {p q : List Int} (h : p.length = q.length) :
    (List.zipWith (fun a b => a * b) p q).sum = ∑ l ∈ Finset.range p.length, p.getD l 0 * q.getD l 0 := by
  induction p generalizing q with
  | nil => rfl
  | cons c p ih =>
    cases q with
    | nil => cases h
    | cons d q =>
      rw [List.zipWith_cons_cons, List.sum_cons, ih (Nat.succ.inj h), List.length_cons, Finset.sum_range_succ']
      simp [add_comm]

/-- The autocorrelation has the value `|p(z)|²` at a root of unity. -/
theorem evalList_autocorrelation {p : List Int} {z : ℂ} (hz : z ^ p.length = 1) :
    evalList z (autocorrelation p) = (‖evalList z p‖ ^ 2 : ℝ) := by
  have hcoeff : ∀ d ∈ Finset.range p.length,
      (((List.zipWith (fun a b => a * b) p (p.drop d ++ p.take d)).sum : ℤ) : ℂ) * z ^ d =
        ∑ l ∈ Finset.range p.length, p.getD l 0 * ((p.rotate l).getD d 0 * z ^ d) := by
    intro d hd
    have hd := Finset.mem_range.mp hd
    rw [← List.rotate_eq_drop_append_take hd.le, sum_zipWith_mul (List.length_rotate ..).symm, Int.cast_sum,
      Finset.sum_mul]
    refine Finset.sum_congr rfl fun l hl => ?_
    rw [getD_rotate_comm hd (Finset.mem_range.mp hl)]
    push_cast
    ring
  have hunit : ∀ l ∈ Finset.range p.length, starRingEnd ℂ (z ^ l) * z ^ l = 1 := by
    intro l hl
    have hp : p.length ≠ 0 := (Nat.zero_lt_of_lt (Finset.mem_range.mp hl)).ne'
    rw [Complex.conj_mul', norm_pow, Complex.norm_eq_one_of_pow_eq_one hz hp, one_pow, Complex.ofReal_one, one_pow]
  rw [autocorrelation, evalList_map_range, Finset.sum_congr rfl hcoeff, Finset.sum_comm, Complex.ofReal_pow,
    ← Complex.conj_mul']
  conv_rhs => enter [1]; rw [evalList_eq_sum, map_sum]
  rw [Finset.sum_mul]
  refine Finset.sum_congr rfl fun l hl => ?_
  have hrot := evalList_eq_sum z (p.rotate l)
  rw [List.length_rotate] at hrot
  rw [← Finset.mul_sum, ← hrot, ← evalList_rotate hz (Finset.mem_range.mp hl).le, map_mul, map_intCast]
  linear_combination (-(p.getD l 0 : ℂ) * evalList z (p.rotate l)) * hunit l hl

/-! ### The vanishing test -/

section
variable {m : Nat}

theorem length_rotateSub (p : List Int) (s : Nat) : (rotateSub p s).length = p.length := by
  rw [rotateSub, List.length_zipWith, List.length_append, List.length_drop, List.length_take]
  omega

/-- To multiply by `x^(−s) − 1` adds the `s`-th roots of unity to the zeros among the `m`-th ones. -/
theorem evalList_rotateSub_eq_zero_iff {p : List Int} {η : ℂ} (hη : η ^ p.length = 1) {s : Nat} (hs : s ≤ p.length) :
    evalList η (rotateSub p s) = 0 ↔ evalList η p = 0 ∨ η ^ s = 1 := by
  have hs0 : η ^ s ≠ 0 := by
    refine left_ne_zero_of_mul_eq_one (b := η ^ (p.length - s)) ?_
    rw [← pow_add, Nat.add_sub_cancel' hs, hη]
  have hfactor : evalList η (rotateSub p s) * η ^ s = evalList η p * (1 - η ^ s) := by
    rw [rotateSub, ← List.rotate_eq_drop_append_take hs, evalList_zipWith_sub η (List.length_rotate ..), sub_mul,
      evalList_rotate hη hs]
    ring
  rw [← mul_eq_zero_iff_right hs0, hfactor, mul_eq_zero, sub_eq_zero, eq_comm (a := (1 : ℂ))]

theorem length_foldl_rotateSub (l : List Nat) (p : List Int) :
    (l.foldl (fun p q => rotateSub p (m / q)) p).length = p.length := by
  induction l generalizing p with
  | nil => rfl
  | cons q l ih => rw [List.foldl_cons, ih, length_rotateSub]

theorem evalList_foldl_rotateSub_eq_zero_iff (l : List Nat) {p : List Int} (hp : p.length = m) {η : ℂ}
    (hη : η ^ m = 1) :
    evalList η (l.foldl (fun p q => rotateSub p (m / q)) p) = 0 ↔ evalList η p = 0 ∨ ∃ q ∈ l, η ^ (m / q) = 1 := by
  induction l generalizing p with
  | nil => simp
  | cons q l ih =>
    rw [List.foldl_cons, ih ((length_rotateSub p _).trans hp),
      evalList_rotateSub_eq_zero_iff (hp.symm ▸ hη) (hp.symm ▸ Nat.div_le_self m q), List.exists_mem_cons_iff, or_assoc]

theorem all_eq_zero_iff (p : List Int) : p.all (· == 0) = true ↔ evalList (X : ℤ[X]) p = 0 := by
  rw [List.all_eq_true, Polynomial.ext_iff]
  simp only [coeff_evalList_X, beq_iff_eq, coeff_zero]
  constructor
  · intro h j
    by_cases hj : j < p.length
    · rw [List.getD_eq_getElem _ _ hj]; exact h _ (List.getElem_mem hj)
    · exact List.getD_eq_default _ _ (not_lt.mp hj)
  · intro h x hx
    obtain ⟨j, hj, rfl⟩ := List.getElem_of_mem hx
    rw [← List.getD_eq_getElem _ 0 hj]; exact h j

/-- A polynomial of `m` coefficients is zero exactly when it vanishes at every `m`-th root of unity. -/
theorem all_eq_zero_iff_roots {p : List Int} (hm : 0 < m) (hp : p.length = m) :
    p.all (· == 0) = true ↔ ∀ η : ℂ, η ^ m = 1 → evalList η p = 0 := by
  rw [all_eq_zero_iff]
  constructor
  · intro h η _
    rw [← aeval_evalList_X, h, map_zero]
  · intro h
    refine (map_eq_zero_iff (mapRingHom (Int.castRingHom ℂ)) (map_injective _ Int.cast_injective)).mp ?_
    rw [coe_mapRingHom]
    refine eq_zero_of_natDegree_lt_card_of_eval_eq_zero' _ (nthRootsFinset m (1 : ℂ)) (fun η hη => ?_) ?_
    · rw [eval_map_evalList_X, h η ((mem_nthRootsFinset hm 1).mp hη)]
    · rw [(Complex.isPrimitiveRoot_exp m hm.ne').card_nthRootsFinset, ← hp]
      exact natDegree_map_le.trans_lt (natDegree_evalList_X_lt (hp ▸ hm))

/-- Conjugate roots: an integer polynomial that vanishes at one primitive root of unity vanishes at all of them. -/
theorem evalList_eq_zero_of_isPrimitiveRoot {p : List Int} (hm : 0 < m) {ζ η : ℂ} (hζ : IsPrimitiveRoot ζ m)
    (hη : IsPrimitiveRoot η m) (h : evalList ζ p = 0) : evalList η p = 0 := by
  rw [← aeval_evalList_X] at h ⊢
  have hdvd := minpoly.isIntegrallyClosed_dvd (hζ.isIntegral hm) h
  rw [← cyclotomic_eq_minpoly hζ hm, cyclotomic_eq_minpoly hη hm] at hdvd
  exact aeval_eq_zero_of_dvd_aeval_eq_zero hdvd (minpoly.aeval ℤ η)

/-- An `m`-th root of unity is not primitive exactly when its order is `m/q` for some of the divisors `q` that the test
uses. -/
theorem exists_divisor_iff (hm : 0 < m) {η : ℂ} (hη : η ^ m = 1) :
    (∃ q ∈ (List.range (m + 1)).filter (fun q => 1 < q ∧ m % q = 0), η ^ (m / q) = 1) ↔ ¬ IsPrimitiveRoot η m := by
  simp only [List.mem_filter, List.mem_range, decide_eq_true_eq]
  constructor
  · rintro ⟨q, ⟨-, hq, hmod⟩, hpow⟩ hprim
    have hle := Nat.le_of_dvd (Nat.div_pos (Nat.le_of_dvd hm (Nat.dvd_of_mod_eq_zero hmod)) (by omega))
      (hprim.dvd_of_pow_eq_one _ hpow)
    exact absurd hle (not_le.mpr (Nat.div_lt_self hm hq))
  · intro hprim
    have hdvd : orderOf η ∣ m := orderOf_dvd_of_pow_eq_one hη
    have hpos : 0 < orderOf η := Nat.pos_of_dvd_of_pos hdvd hm
    have hne : orderOf η ≠ m := fun h => hprim (h ▸ IsPrimitiveRoot.orderOf η)
    have hmul := Nat.div_mul_cancel hdvd
    have hgt : 1 < m / orderOf η := by
      by_contra hle
      interval_cases hc : m / orderOf η <;> omega
    refine ⟨m / orderOf η, ⟨by have := Nat.div_le_self m (orderOf η); omega, hgt,
      Nat.mod_eq_zero_of_dvd (Nat.div_dvd_of_dvd hdvd)⟩, ?_⟩
    rw [Nat.div_div_self hdvd hm.ne', pow_orderOf_eq_one]

/-- The model's test is right: it asks whether `p` vanishes at a primitive `m`-th root of unity. -/
theorem vanishesAtPrimitive_iff {p : List Int} (hm : 0 < m) (hp : p.length = m) {ζ : ℂ} (hζ : IsPrimitiveRoot ζ m) :
    vanishesAtPrimitive m p = true ↔ evalList ζ p = 0 := by
  rw [vanishesAtPrimitive, all_eq_zero_iff_roots hm ((length_foldl_rotateSub _ p).trans hp)]
  have hroots : ∀ η : ℂ, η ^ m = 1 → _ := fun η hη => evalList_foldl_rotateSub_eq_zero_iff
    ((List.range (m + 1)).filter (fun q => 1 < q ∧ m % q = 0)) hp hη
  constructor
  · intro h
    have := (hroots ζ hζ.pow_eq_one).mp (h ζ hζ.pow_eq_one)
    rw [exists_divisor_iff hm hζ.pow_eq_one] at this
    exact this.resolve_right (not_not_intro hζ)
  · intro h η hη
    rw [hroots η hη, exists_divisor_iff hm hη]
    by_cases hprim : IsPrimitiveRoot η m
    · exact .inl (evalList_eq_zero_of_isPrimitiveRoot hm hζ hprim h)
    · exact .inr hprim

/-! ### Separation -/

/-- The product of the values at the primitive roots is an integer, the resultant with the cyclotomic polynomial. -/
theorem exists_int_eq_prod_evalList (hm : 0 < m) (p : List Int) :
    ∃ r : ℤ, (r : ℂ) = ∏ η ∈ primitiveRoots m ℂ, evalList η p := by
  have : NeZero (m : ℂ) := ⟨Nat.cast_ne_zero.mpr hm.ne'⟩
  have hres := resultant_eq_prod_eval (cyclotomic m ℂ) ((evalList (X : ℤ[X]) p).map (Int.castRingHom ℂ))
    (evalList (X : ℤ[X]) p).natDegree natDegree_map_le (IsAlgClosed.splits _)
  rw [← map_cyclotomic_int, natDegree_map_eq_of_injective Int.cast_injective, resultant_map_map, map_cyclotomic_int,
    (cyclotomic.monic m ℂ).leadingCoeff, one_pow, one_mul, cyclotomic.roots_eq_primitiveRoots_val] at hres
  exact ⟨_, hres.trans (Finset.prod_congr rfl fun η _ => eval_map_evalList_X η p)⟩

/-- A value that is not 0 is not small unless a conjugate of it is large. -/
theorem one_le_norm_evalList_mul_pow {p : List Int} (hm : 0 < m) {ζ : ℂ} (hζ : IsPrimitiveRoot ζ m)
    (h0 : evalList ζ p ≠ 0) {B : ℝ} (hB : 1 ≤ B) (hle : ∀ η : ℂ, η ^ m = 1 → ‖evalList η p‖ ≤ B) :
    1 ≤ ‖evalList ζ p‖ * B ^ (m - 1) := by
  obtain ⟨r, hprod⟩ := exists_int_eq_prod_evalList hm p
  have hne : ∀ η ∈ primitiveRoots m ℂ, evalList η p ≠ 0 := fun η hη hη0 =>
    h0 (evalList_eq_zero_of_isPrimitiveRoot hm (isPrimitiveRoot_of_mem_primitiveRoots hη) hζ hη0)
  have hr : r ≠ 0 := fun hr0 => Finset.prod_ne_zero_iff.mpr hne (by rw [← hprod, hr0, Int.cast_zero])
  have hmem : ζ ∈ primitiveRoots m ℂ := (mem_primitiveRoots hm).mpr hζ
  calc (1 : ℝ) ≤ ‖(r : ℂ)‖ := by rw [Complex.norm_intCast]; exact_mod_cast Int.one_le_abs hr
    _ = ‖evalList ζ p‖ * ∏ η ∈ (primitiveRoots m ℂ).erase ζ, ‖evalList η p‖ := by
      rw [hprod, norm_prod, Finset.mul_prod_erase _ (fun η => ‖evalList η p‖) hmem]
    _ ≤ ‖evalList ζ p‖ * B ^ ((primitiveRoots m ℂ).erase ζ).card := by
      rw [← Finset.prod_const]
      gcongr with η hη
      exact hle η (isPrimitiveRoot_of_mem_primitiveRoots (Finset.mem_of_mem_erase hη)).pow_eq_one
    _ ≤ ‖evalList ζ p‖ * B ^ (m - 1) := by
      refine mul_le_mul_of_nonneg_left (pow_le_pow_right₀ hB ?_) (norm_nonneg _)
      rw [Finset.card_erase_of_mem hmem, hζ.card_primitiveRoots]
      exact Nat.sub_le_sub_right (Nat.totient_le m) 1

end

/-! ### The transform -/

/-- `w = exp(−2πi·k/n)` (R134). -/
noncomputable def dftRoot (k n : Nat) : ℂ := Complex.exp (-(2 * Real.pi * Complex.I * k / n))

/-- `Y = A·X[k] = Σ_t raw[t]·w^t` (R134). -/
noncomputable def dftValue (raw : List Int) (k : Nat) : ℂ := evalList (dftRoot k raw.length) raw

/-- `M[k]` in units of `2^-149`, for a window of `n` samples with `|Y| = y` (R135). -/
noncomputable def magnitudeUnits (n a : Nat) (y : ℝ) : ℝ := 2 ^ 150 * y / (n * a)

theorem dftRoot_pow (k n t : Nat) : dftRoot k n ^ t = Complex.exp (-(2 * Real.pi * Complex.I * k * t / n)) := by
  rw [dftRoot, ← Complex.exp_nat_mul]
  congr 1
  ring

theorem norm_dftRoot (k n : Nat) : ‖dftRoot k n‖ = 1 := by
  rw [dftRoot, Complex.norm_exp, Real.exp_eq_one_iff]
  simp

theorem isPrimitiveRoot_dftRoot {k n : Nat} (hn : 0 < n) : IsPrimitiveRoot (dftRoot k n) (n / n.gcd k) := by
  have hg : 0 < n.gcd k := Nat.gcd_pos_of_pos_left k hn
  have hm : 0 < n / n.gcd k := Nat.div_pos (Nat.gcd_le_left k hn) hg
  have hcop : IsCoprime (-(k / n.gcd k : Nat) : ℤ) (n / n.gcd k : Nat) :=
    (Nat.isCoprime_iff_coprime.mpr (Nat.coprime_div_gcd_div_gcd hg).symm).neg_left
  convert Complex.isPrimitiveRoot_exp_of_isCoprime _ _ hm.ne' hcop using 1
  rw [dftRoot]
  congr 1
  have hg' : (n.gcd k : ℂ) ≠ 0 := Nat.cast_ne_zero.mpr hg.ne'
  have hn' : (n : ℂ) ≠ 0 := Nat.cast_ne_zero.mpr hn.ne'
  rw [Int.cast_neg, Int.cast_natCast, Nat.cast_div (Nat.gcd_dvd_right n k) hg',
    Nat.cast_div (Nat.gcd_dvd_left n k) hg']
  field_simp

theorem idealMagnitude_eq (raw : List Int) (a k : Nat) :
    idealMagnitude raw a k = magnitudeUnits raw.length a ‖dftValue raw k‖ := by
  have hsum : ∑ t ∈ Finset.range raw.length, ((raw.getD t 0 : ℂ) / (a : ℂ)) *
      Complex.exp (-(2 * Real.pi * Complex.I * k * t / raw.length)) = dftValue raw k / a := by
    rw [dftValue, evalList_eq_sum, Finset.sum_div]
    refine Finset.sum_congr rfl fun t _ => ?_
    rw [dftRoot_pow]
    ring
  rw [idealMagnitude, hsum, norm_div, Complex.norm_natCast, magnitudeUnits]
  ring

/-- 16-bit samples sum to at most `2^15` each on the unit circle. -/
theorem norm_evalList_le {p : List Int} (h : ∀ x ∈ p, -32768 ≤ x ∧ x ≤ 32767) {z : ℂ} (hz : ‖z‖ = 1) :
    ‖evalList z p‖ ≤ p.length * 2 ^ 15 := by
  induction p with
  | nil => simp
  | cons c p ih =>
    obtain ⟨hc, hp⟩ := List.forall_mem_cons.mp h
    have hcle : ‖(c : ℂ)‖ ≤ 2 ^ 15 := by
      rw [Complex.norm_intCast]
      exact_mod_cast abs_le.mpr ⟨by omega, by omega⟩
    calc ‖evalList z (c :: p)‖ ≤ ‖evalList z p‖ * ‖z‖ + ‖(c : ℂ)‖ := by
          rw [evalList_cons, ← norm_mul]; exact norm_add_le _ _
      _ ≤ p.length * 2 ^ 15 * 1 + 2 ^ 15 := by rw [hz]; gcongr; exact ih hp
      _ = (c :: p).length * 2 ^ 15 := by rw [List.length_cons]; push_cast; ring

/-! ### The exact test -/

/-- The polynomial that `magnitudeEq` tests. -/
def defectPoly (raw : List Int) (a k u : Nat) : List Int :=
  subConstant ((u * u * (raw.length * raw.length * (a * a)) : Nat) : Int)
    ((autocorrelation (foldMod (raw.length / raw.length.gcd k) raw)).map (fun c => 4 * 2 ^ 300 * c))

theorem magnitudeEq_eq (raw : List Int) (a k u : Nat) :
    magnitudeEq raw a k u = vanishesAtPrimitive (raw.length / raw.length.gcd k) (defectPoly raw a k u) := rfl

/-- `(2·M[k])² − u²`, in units of `1/(n·A)²`, at the root of unity `z` in place of `w`. -/
noncomputable def defect (raw : List Int) (a u : Nat) (z : ℂ) : ℝ :=
  4 * 2 ^ 300 * ‖evalList z raw‖ ^ 2 - (u * (raw.length * a)) ^ 2

section
variable {raw : List Int} {k : Nat} (hn : 0 < raw.length)
include hn

theorem foldLength_pos : 0 < raw.length / raw.length.gcd k :=
  Nat.div_pos (Nat.gcd_le_left k hn) (Nat.gcd_pos_of_pos_left k hn)

omit hn in
theorem length_defectPoly (a u : Nat) : (defectPoly raw a k u).length = raw.length / raw.length.gcd k := by
  have hsub : ∀ (x : Int) (p : List Int), (subConstant x p).length = p.length := fun x p => by cases p <;> rfl
  simp only [defectPoly, hsub, autocorrelation, foldMod, List.length_map, List.length_range]

theorem evalList_defectPoly (a u : Nat) {z : ℂ} (hz : z ^ (raw.length / raw.length.gcd k) = 1) :
    evalList z (defectPoly raw a k u) = defect raw a u z := by
  have hlen : (foldMod (raw.length / raw.length.gcd k) raw).length = raw.length / raw.length.gcd k := by
    simp only [foldMod, List.length_map, List.length_range]
  have hne : (autocorrelation (foldMod (raw.length / raw.length.gcd k) raw)).map (fun c => 4 * 2 ^ 300 * c) ≠ [] := by
    refine List.ne_nil_of_length_pos ?_
    rw [List.length_map, autocorrelation, List.length_map, List.length_range, hlen]
    exact foldLength_pos hn
  rw [defectPoly, evalList_subConstant _ _ hne, evalList_map_mul, evalList_autocorrelation (by rwa [hlen]),
    evalList_foldMod hz (Nat.div_dvd_of_dvd (Nat.gcd_dvd_left _ k)), defect]
  simp only [Int.cast_natCast, Int.cast_mul, Int.cast_pow, Int.cast_ofNat, Nat.cast_mul, Complex.ofReal_sub,
    Complex.ofReal_mul, Complex.ofReal_pow, Complex.ofReal_ofNat, Complex.ofReal_natCast]
  congr 1
  ring

/-- The model's exact test decides whether `2·M[k]` is `u`. -/
theorem magnitudeEq_iff (a u : Nat) :
    magnitudeEq raw a k u = true ↔ defect raw a u (dftRoot k raw.length) = 0 := by
  have hw := isPrimitiveRoot_dftRoot (k := k) hn
  rw [magnitudeEq_eq, vanishesAtPrimitive_iff (foldLength_pos hn) (length_defectPoly a u) hw,
    evalList_defectPoly hn a u hw.pow_eq_one, Complex.ofReal_eq_zero]

omit hn in
theorem scaled_sq_le {y : ℝ} (h0 : 0 ≤ y) (h : y ≤ 2 ^ 30) : 4 * 2 ^ 300 * y ^ 2 ≤ 2 ^ 400 :=
  calc 4 * 2 ^ 300 * y ^ 2 ≤ 2 ^ 2 * 2 ^ 300 * (2 ^ 30) ^ 2 := by gcongr; norm_num
    _ = 2 ^ 362 := by rw [← pow_mul, ← pow_add, ← pow_add]
    _ ≤ 2 ^ 400 := pow_le_pow_right₀ one_le_two (by norm_num)

/-- Separation (log 7): where `2·M[k]` is not `u`, their squares differ by more than `2^(−400·n)`. -/
theorem one_le_abs_defect_mul_pow (hle : raw.length ≤ 16384) (hraw : ∀ x ∈ raw, -32768 ≤ x ∧ x ≤ 32767) {a u : Nat}
    (hu : ((u * (raw.length * a)) ^ 2 : ℝ) ≤ 2 ^ 400) (h0 : defect raw a u (dftRoot k raw.length) ≠ 0) :
    1 ≤ |defect raw a u (dftRoot k raw.length)| * (2 ^ 400) ^ (raw.length - 1) := by
  have hw := isPrimitiveRoot_dftRoot (k := k) hn
  have heval : ∀ z : ℂ, z ^ (raw.length / raw.length.gcd k) = 1 →
      ‖evalList z (defectPoly raw a k u)‖ = |defect raw a u z| := fun z hz => by
    rw [evalList_defectPoly hn a u hz, Complex.norm_real, Real.norm_eq_abs]
  have hbound : ∀ z : ℂ, z ^ (raw.length / raw.length.gcd k) = 1 → |defect raw a u z| ≤ 2 ^ 400 := by
    intro z hz
    have hlen : (raw.length : ℝ) ≤ 16384 := by exact_mod_cast hle
    have hsum := norm_evalList_le hraw (Complex.norm_eq_one_of_pow_eq_one hz (foldLength_pos hn).ne')
    rw [defect]
    exact abs_sub_le_of_nonneg_of_le (by positivity)
      (scaled_sq_le (norm_nonneg _) (by linarith)) (by positivity) hu
  have hsep := one_le_norm_evalList_mul_pow (foldLength_pos (k := k) hn) (p := defectPoly raw a k u) hw
    (by rw [← norm_ne_zero_iff, heval _ hw.pow_eq_one]; exact abs_ne_zero.mpr h0) (one_le_pow₀ one_le_two)
    (fun z hz => (heval z hz).trans_le (hbound z hz))
  rw [heval _ hw.pow_eq_one] at hsep
  refine hsep.trans ?_
  gcongr
  · exact one_le_pow₀ one_le_two
  · exact Nat.div_le_self _ _

end

end Sys2Proof.Machine
end

section
/-! The fixed-point arithmetic of the detector: how far `π`, `w` and `Y` are from the real ones (log 7). -/

namespace Sys2Proof.Machine

theorem abs_sub_floor_div_le_one (p q : Nat) : |((p / q : Nat) : ℝ) - p / q| ≤ 1 := by
  have hle : ((p / q : Nat) : ℝ) ≤ p / q := Nat.cast_div_le
  have hlt : (p : ℝ) / q < (p / q : Nat) + 1 := by rw [← Nat.floor_div_eq_div (K := ℝ)]; exact Nat.lt_floor_add_one _
  exact abs_le.mpr ⟨by linarith, by linarith⟩

theorem abs_sub_ediv_le_one (S : Nat) (a : Int) : |((a / 2 ^ S : Int) : ℝ) - a / 2 ^ S| ≤ 1 := by
  have hpos : (0 : ℝ) < 2 ^ S := by positivity
  have hmod : (2 : ℝ) ^ S * (a / 2 ^ S : Int) + (a % 2 ^ S : Int) = a := by
    exact_mod_cast Int.mul_ediv_add_emod a (2 ^ S)
  have hlow : (0 : ℝ) ≤ (a % 2 ^ S : Int) := by exact_mod_cast Int.emod_nonneg a (by positivity : (2 : Int) ^ S ≠ 0)
  have hhigh : ((a % 2 ^ S : Int) : ℝ) < 2 ^ S := by
    exact_mod_cast Int.emod_lt_of_pos a (by positivity : (0 : Int) < 2 ^ S)
  rw [abs_sub_comm, ← hmod, add_div, mul_div_cancel_left₀ _ hpos.ne', add_sub_cancel_left,
    abs_of_nonneg (div_nonneg hlow hpos.le)]
  exact (div_le_one hpos).mpr hhigh.le

/-! ### `π` -/

/-- The terms that `arctanSum` adds, and none of those it leaves out after `pw` is 0. -/
theorem arctanSum_eq (x2 fuel pw i : Nat) (acc : Int) : arctanSum x2 fuel pw i acc =
    acc + ∑ j ∈ Finset.range fuel, (-1) ^ (i + j) * ((pw / x2 ^ j / (2 * (i + j) + 1) : Nat) : Int) := by
  induction fuel generalizing pw i acc with
  | zero => simp [arctanSum]
  | succ fuel ih =>
    rw [arctanSum]
    split
    · next h => simp [h]
    · rw [ih, Finset.sum_range_succ', ← add_assoc, add_right_comm]
      congr 1
      · rw [add_zero, pow_zero, Nat.div_one]
        rcases Nat.even_or_odd i with h | h
        · rw [if_pos (Nat.even_iff.mp h), h.neg_one_pow, one_mul]
        · rw [if_neg (by rw [Nat.odd_iff.mp h]; decide), h.neg_one_pow, neg_one_mul, sub_eq_add_neg]
      · refine Finset.sum_congr rfl fun j _ => ?_
        rw [Nat.div_div_eq_div_mul pw, ← pow_succ', Nat.add_right_comm i 1 j, Nat.add_assoc i j 1]

theorem arctanInv_eq (S x : Nat) : arctanInv S x =
    ∑ j ∈ Finset.range S, (-1) ^ j * ((2 ^ S / (x ^ (2 * j + 1) * (2 * j + 1)) : Nat) : Int) := by
  rw [arctanInv, arctanSum_eq, zero_add]
  refine Finset.sum_congr rfl fun j _ => ?_
  rw [zero_add, Nat.div_div_eq_div_mul, Nat.div_div_eq_div_mul, ← mul_assoc, pow_succ' x (2 * j), pow_mul, sq]

/-- The first `S` terms of the series of `arctan(1/x)`. -/
noncomputable def arctanPartial (S x : Nat) : ℝ :=
  ∑ j ∈ Finset.range S, (-1) ^ j * (x : ℝ)⁻¹ ^ (2 * j + 1) / ((2 * j + 1 : ℕ) : ℝ)

/-- One unit for each of the `S` terms. -/
theorem abs_arctanInv_sub_partial_le (S : Nat) {x : Nat} (hx : 2 ≤ x) :
    |(arctanInv S x : ℝ) - 2 ^ S * arctanPartial S x| ≤ S := by
  have hx0 : (x : ℝ) ≠ 0 := by positivity
  rw [arctanInv_eq, arctanPartial, Int.cast_sum, Finset.mul_sum, ← Finset.sum_sub_distrib]
  refine (Finset.abs_sum_le_sum_abs _ _).trans ((Finset.sum_le_card_nsmul _ _ 1 fun j _ => ?_).trans_eq (by simp))
  calc _ = |(-1) ^ j * (((2 ^ S / (x ^ (2 * j + 1) * (2 * j + 1)) : Nat) : ℝ) -
          (2 ^ S : Nat) / (x ^ (2 * j + 1) * (2 * j + 1) : Nat))| := by
        congr 1
        rw [Int.cast_mul, Int.cast_natCast]
        push_cast
        rw [inv_pow]
        field_simp
    _ ≤ 1 := by
        rw [abs_mul, abs_neg_one_pow, one_mul]
        exact abs_sub_floor_div_le_one _ _

/-- The rest of the series is below a geometric one. -/
theorem abs_arctanPartial_sub_le (S : Nat) {x : Nat} (hx : 2 ≤ x) :
    |2 ^ S * (arctanPartial S x - Real.arctan (x : ℝ)⁻¹)| ≤ 2 := by
  have hinv : (x : ℝ)⁻¹ ≤ 2⁻¹ := inv_anti₀ two_pos (by exact_mod_cast hx)
  have hinv0 : (0 : ℝ) ≤ (x : ℝ)⁻¹ := by positivity
  have hnorm : ‖(x : ℝ)⁻¹‖ < 1 := by rw [Real.norm_of_nonneg hinv0]; linarith
  have htail : |arctanPartial S x - Real.arctan (x : ℝ)⁻¹| ≤ 1 * 2⁻¹ ^ S / (1 - 2⁻¹) := by
    refine norm_sub_le_of_geometric_bound_of_hasSum (by norm_num) (fun j => ?_) (Real.hasSum_arctan hnorm) S
    rw [norm_div, norm_mul, norm_pow, norm_neg, norm_one, one_pow, one_mul, one_mul, norm_pow,
      Real.norm_of_nonneg hinv0, Real.norm_natCast]
    calc (x : ℝ)⁻¹ ^ (2 * j + 1) / ((2 * j + 1 : ℕ) : ℝ) ≤ (x : ℝ)⁻¹ ^ (2 * j + 1) :=
          div_le_self (by positivity) (by exact_mod_cast Nat.succ_le_succ (Nat.zero_le _))
      _ ≤ (x : ℝ)⁻¹ ^ j := pow_le_pow_of_le_one hinv0 (by linarith) (by omega)
      _ ≤ 2⁻¹ ^ j := by gcongr
  rw [abs_mul, abs_of_nonneg (by positivity)]
  refine (mul_le_mul_of_nonneg_left htail (by positivity)).trans_eq ?_
  rw [inv_pow]
  field_simp
  norm_num

theorem abs_arctanInv_sub_le (S : Nat) {x : Nat} (hx : 2 ≤ x) :
    |(arctanInv S x : ℝ) - 2 ^ S * Real.arctan (x : ℝ)⁻¹| ≤ S + 2 := by
  refine (abs_sub_le _ _ _).trans (add_le_add (abs_arctanInv_sub_partial_le S hx) ?_)
  rw [← mul_sub]
  exact abs_arctanPartial_sub_le S hx

/-- Machin's formula. -/
theorem abs_piFix_sub_le (S : Nat) : |(piFix S : ℝ) - 2 ^ S * Real.pi| ≤ 20 * S + 40 := by
  have h5 := abs_arctanInv_sub_le S (x := 5) (by norm_num)
  have h239 := abs_arctanInv_sub_le S (x := 239) (by norm_num)
  have hpi := Real.four_mul_arctan_inv_5_sub_arctan_inv_239
  rw [abs_le] at h5 h239 ⊢
  push_cast [piFix] at h5 h239 ⊢
  have hmachin : (2 : ℝ) ^ S * Real.pi = 16 * (2 ^ S * Real.arctan 5⁻¹) - 4 * (2 ^ S * Real.arctan 239⁻¹) := by
    linear_combination (-4 * (2 : ℝ) ^ S) * hpi
  exact ⟨by linarith, by linarith⟩

/-! ### `exp` -/

/-- A fixed-point complex number as the number of units it is. -/
noncomputable def fixUnits (y : FixC) : ℂ := ⟨y.1, y.2⟩

/-- The magnitude of the `j`-th term that `expSum` adds. -/
def expTerm (S x : Nat) : Nat → Nat
  | 0 => 2 ^ S
  | j + 1 => expTerm S x j * x / ((j + 1) * 2 ^ S)

theorem expTerm_succ (S x j : Nat) : expTerm S x (j + 1) = expTerm S x j * x / ((j + 1) * 2 ^ S) := rfl

theorem expTerm_eq_zero {S x j : Nat} (h : expTerm S x j = 0) (l : Nat) : expTerm S x (j + l) = 0 := by
  induction l with
  | zero => exact h
  | succ l ih => rw [← add_assoc, expTerm_succ, ih, zero_mul, Nat.zero_div]

/-- One step of the series: `(−i)^j` puts the term on one of the four axes. -/
theorem fixUnits_addTerm (j : Nat) (c s : Int) (term : Nat) :
    fixUnits (if j % 4 = 0 then c + term else if j % 4 = 2 then c - term else c,
      if j % 4 = 1 then s - term else if j % 4 = 3 then s + term else s) =
    fixUnits (c, s) + (-Complex.I) ^ j * term := by
  have hpow : (-Complex.I) ^ j = (-Complex.I) ^ (j % 4) := by
    conv_lhs => rw [← Nat.div_add_mod j 4, pow_add, pow_mul]
    norm_num [pow_succ]
  have hlt : j % 4 < 4 := Nat.mod_lt j (by norm_num)
  rw [hpow]
  generalize j % 4 = r at hlt
  interval_cases r <;> apply Complex.ext <;> simp [fixUnits, pow_succ] <;> ring

/-- The sum that `expSum` computes, the zero terms that it leaves out put back. -/
theorem fixUnits_expSum (S x fuel j : Nat) (c s : Int) : fixUnits (expSum S x fuel j (expTerm S x j) c s) =
    fixUnits (c, s) + ∑ l ∈ Finset.range fuel, (-Complex.I) ^ (j + l) * expTerm S x (j + l) := by
  induction fuel generalizing j c s with
  | zero => simp [expSum]
  | succ fuel ih =>
    rw [expSum]
    split
    · next h =>
      rw [Finset.sum_eq_zero fun l _ => by rw [expTerm_eq_zero h, Nat.cast_zero, mul_zero], add_zero]
    · rw [← expTerm_succ, ih, fixUnits_addTerm, Finset.sum_range_succ', add_assoc, add_comm (Finset.sum ..), add_zero]
      simp only [add_assoc, add_comm 1]

/-- The error of a term, with the ratio of two terms at most `3.2/(j+1)`: it grows by at most 3 at each of the first
four terms, and no further. -/
theorem error_bound_succ {e j : ℝ} (hj : 0 ≤ j) (h : e ≤ 3 * j) : e * (3.2 / (j + 1)) + 1 ≤ 3 * (j + 1) := by
  have hstep : e * 3.2 ≤ (3 * (j + 1) - 1) * (j + 1) := by nlinarith [sq_nonneg (j - 3 / 4)]
  have := (div_le_iff₀ (by linarith : 0 < j + 1)).mpr hstep
  rw [mul_div_assoc] at this
  linarith

theorem error_bound_const {e j : ℝ} (hj : 4 ≤ j) (h : e ≤ 12) : e * (3.2 / (j + 1)) + 1 ≤ 12 := by
  have hratio : 3.2 / (j + 1) ≤ 3.2 / 5 := by gcongr; linarith
  have hpos : 0 ≤ 3.2 / (j + 1) := by positivity
  nlinarith

/-- Each term is floored, and passes on the error of the term before it. -/
theorem abs_expTerm_sub_le {S x : Nat} (hx : (x : ℝ) / 2 ^ S ≤ 3.2) (j : Nat) :
    |(expTerm S x j : ℝ) - 2 ^ S * ((x / 2 ^ S) ^ j / j.factorial)| ≤ 3 * j ∧
      |(expTerm S x j : ℝ) - 2 ^ S * ((x / 2 ^ S) ^ j / j.factorial)| ≤ 12 := by
  induction j with
  | zero => simp [expTerm]
  | succ j ih =>
    set e := |(expTerm S x j : ℝ) - 2 ^ S * ((x / 2 ^ S) ^ j / j.factorial)| with he
    have hfloor := abs_sub_floor_div_le_one (expTerm S x j * x) ((j + 1) * 2 ^ S)
    rw [← expTerm_succ] at hfloor
    have hprop : |((expTerm S x j * x : Nat) : ℝ) / ((j + 1) * 2 ^ S : Nat) -
        2 ^ S * ((x / 2 ^ S) ^ (j + 1) / (j + 1).factorial)| ≤ e * (3.2 / (j + 1)) := by
      have hnext : (((expTerm S x j * x : Nat) : ℝ) / ((j + 1) * 2 ^ S : Nat)) -
          2 ^ S * ((x / 2 ^ S) ^ (j + 1) / (j + 1).factorial) =
            (expTerm S x j - 2 ^ S * ((x / 2 ^ S) ^ j / j.factorial)) * (x / 2 ^ S / (j + 1)) := by
        rw [Nat.factorial_succ, pow_succ]
        push_cast
        field_simp
      rw [hnext, abs_mul, ← he, abs_of_nonneg (by positivity : (0 : ℝ) ≤ x / 2 ^ S / (j + 1))]
      gcongr
    have herror : |(expTerm S x (j + 1) : ℝ) - 2 ^ S * ((x / 2 ^ S) ^ (j + 1) / (j + 1).factorial)| ≤
        e * (3.2 / (j + 1)) + 1 := (abs_sub_le _ _ _).trans ((add_le_add hfloor hprop).trans_eq (add_comm _ _))
    have hgrow := error_bound_succ (Nat.cast_nonneg j) ih.1
    rw [Nat.cast_succ]
    refine ⟨herror.trans hgrow, ?_⟩
    rcases le_or_gt 4 j with hj | hj
    · exact herror.trans (error_bound_const (by exact_mod_cast hj) ih.2)
    · have : (j : ℝ) + 1 ≤ 4 := by exact_mod_cast hj
      linarith

/-- What is left of the series of `exp` at 4 after `S + 64` terms is less than a unit. -/
theorem pow_div_factorial_mul_le (S : Nat) : 2 ^ S * ((4 : ℝ) ^ (S + 64) / (S + 64).factorial * 2) ≤ 1 := by
  have hexp : Real.exp 8 ≤ 2 ^ 16 := by
    have h1 : Real.exp 1 ≤ 4 := by linarith [Real.exp_one_lt_d9]
    calc Real.exp 8 = Real.exp 1 ^ 8 := by rw [← Real.exp_nat_mul]; norm_num
      _ ≤ 4 ^ 8 := by gcongr
      _ = 2 ^ 16 := by norm_num
  have h8 := Real.pow_div_factorial_le_exp (x := 8) (by norm_num) (S + 64)
  have hsplit : (8 : ℝ) ^ (S + 64) = 4 ^ (S + 64) * (2 ^ S * 2 ^ 64) := by rw [← pow_add, ← mul_pow]; norm_num
  rw [hsplit] at h8
  have : 2 ^ 64 * (2 ^ S * ((4 : ℝ) ^ (S + 64) / (S + 64).factorial)) ≤ 2 ^ 16 := by
    refine le_trans (le_of_eq ?_) (h8.trans hexp)
    ring
  linarith

section
variable {S x : Nat} (hx : (x : ℝ) / 2 ^ S ≤ 3.2)
include hx

theorem norm_expSum_sub_series_le :
    ‖fixUnits (expSum S x (S + 64) 0 (2 ^ S) 0 0) - 2 ^ S * ∑ j ∈ Finset.range (S + 64),
      (-Complex.I * (x / 2 ^ S : ℝ)) ^ j / j.factorial‖ ≤ 12 * (S + 64) := by
  have hsum := fixUnits_expSum S x (S + 64) 0 0 0
  rw [show expTerm S x 0 = 2 ^ S from rfl, show fixUnits (0, 0) = 0 by apply Complex.ext <;> simp [fixUnits],
    zero_add] at hsum
  rw [hsum, Finset.mul_sum, ← Finset.sum_sub_distrib]
  refine (norm_sum_le _ _).trans ((Finset.sum_le_card_nsmul _ _ 12 fun j _ => ?_).trans_eq ?_)
  · calc _ = ‖(-Complex.I) ^ j * (((expTerm S x j : ℝ) - 2 ^ S * ((x / 2 ^ S) ^ j / j.factorial) : ℝ) : ℂ)‖ := by
          congr 1
          rw [zero_add]
          push_cast
          ring
      _ ≤ 12 := by
          rw [norm_mul, norm_pow, norm_neg, Complex.norm_I, one_pow, one_mul, Complex.norm_real]
          exact (abs_expTerm_sub_le hx j).2
  · rw [Finset.card_range, nsmul_eq_mul]
    push_cast
    ring

theorem norm_series_sub_exp_le :
    ‖2 ^ S * (∑ j ∈ Finset.range (S + 64), (-Complex.I * (x / 2 ^ S : ℝ)) ^ j / j.factorial -
      Complex.exp (-Complex.I * (x / 2 ^ S : ℝ)))‖ ≤ 1 := by
  have hnorm : ‖-Complex.I * ((x / 2 ^ S : ℝ) : ℂ)‖ = x / 2 ^ S := by
    rw [norm_mul, norm_neg, Complex.norm_I, one_mul, Complex.norm_real, Real.norm_of_nonneg (by positivity)]
  have hratio : ‖-Complex.I * ((x / 2 ^ S : ℝ) : ℂ)‖ / (S + 64).succ ≤ 1 / 2 := by
    rw [hnorm, div_le_iff₀ (by positivity)]
    push_cast
    linarith [Nat.cast_nonneg (α := ℝ) S]
  have hbound := Complex.exp_bound' hratio
  have hfour : (x : ℝ) / 2 ^ S ≤ 4 := by linarith
  rw [norm_mul, norm_sub_rev, norm_pow, Complex.norm_ofNat]
  refine (mul_le_mul_of_nonneg_left (hbound.trans ?_) (by positivity)).trans (pow_div_factorial_mul_le S)
  rw [hnorm]
  gcongr

/-- The series of `exp(−i·x)`, in units. -/
theorem norm_expSum_sub_le :
    ‖fixUnits (expSum S x (S + 64) 0 (2 ^ S) 0 0) - 2 ^ S * Complex.exp (-Complex.I * (x / 2 ^ S : ℝ))‖ ≤
      12 * (S + 64) + 1 := by
  refine (norm_sub_le_norm_sub_add_norm_sub _ _ _).trans (add_le_add (norm_expSum_sub_series_le hx) ?_)
  rw [← mul_sub]
  exact norm_series_sub_exp_le hx

end

/-! ### The root of unity -/

theorem norm_exp_neg_I_mul_sub_le (x y : ℝ) :
    ‖Complex.exp (-Complex.I * x) - Complex.exp (-Complex.I * y)‖ ≤ |x - y| := by
  have hfactor : Complex.exp (-Complex.I * x) - Complex.exp (-Complex.I * y) =
      Complex.exp (Complex.I * (-y : ℝ)) * (Complex.exp (Complex.I * (y - x : ℝ)) - 1) := by
    rw [mul_sub, ← Complex.exp_add, mul_one]
    congr 2 <;> push_cast <;> ring
  rw [hfactor, norm_mul, Complex.norm_exp_I_mul_ofReal, one_mul, abs_sub_comm]
  exact Real.norm_exp_I_mul_ofReal_sub_one_le

/-- The angle `2πk/n` in units, as `rootFix` has it. -/
def angleFix (S k n : Nat) : Nat := 2 * (piFix S).toNat * k / n

theorem abs_angleFix_sub_le (S : Nat) {k n : Nat} (hkn : 2 * k ≤ n) :
    |(angleFix S k n : ℝ) - 2 ^ S * (2 * Real.pi * k / n)| ≤ 20 * S + 41 := by
  have hpi := abs_piFix_sub_le S
  have htoNat : |((piFix S).toNat : ℝ) - 2 ^ S * Real.pi| ≤ 20 * S + 40 := by
    have hpos : 0 ≤ 2 ^ S * Real.pi := by positivity
    have hmax : (((piFix S).toNat : ℤ) : ℝ) = max (piFix S : ℝ) 0 := by rw [Int.toNat_eq_max]; push_cast; rfl
    rw [Int.cast_natCast] at hmax
    rw [hmax]
    refine le_trans ?_ hpi
    conv_lhs => rw [← max_eq_left hpos]
    exact abs_max_sub_max_le_abs _ _ _
  have hratio : (2 * k : ℝ) / n ≤ 1 := div_le_one_of_le₀ (by exact_mod_cast hkn) (Nat.cast_nonneg n)
  have hscaled : |((2 * (piFix S).toNat * k : Nat) : ℝ) / n - 2 ^ S * (2 * Real.pi * k / n)| ≤ 20 * S + 40 := by
    have heq : ((2 * (piFix S).toNat * k : Nat) : ℝ) / n - 2 ^ S * (2 * Real.pi * k / n) =
        (2 * k / n) * ((piFix S).toNat - 2 ^ S * Real.pi) := by push_cast; ring
    rw [heq, abs_mul, abs_of_nonneg (by positivity)]
    exact (mul_le_of_le_one_left (abs_nonneg _) hratio).trans htoNat
  have hfloor := abs_sub_floor_div_le_one (2 * (piFix S).toNat * k) n
  refine (abs_sub_le _ _ _).trans ((add_le_add hfloor hscaled).trans_eq ?_)
  ring

section
variable {S : Nat} (hS : 256 ≤ S)
include hS

theorem two_pow_256_le : (2 : ℝ) ^ 256 ≤ 2 ^ S := pow_le_pow_right₀ one_le_two hS

theorem angleFix_le {k n : Nat} (hkn : 2 * k ≤ n) : (angleFix S k n : ℝ) / 2 ^ S ≤ 3.2 := by
  have hangle := (abs_le.mp (abs_angleFix_sub_le S hkn)).2
  have hratio : (2 * k : ℝ) / n ≤ 1 := div_le_one_of_le₀ (by exact_mod_cast hkn) (Nat.cast_nonneg n)
  have hpi : 2 * Real.pi * k / n ≤ 3.15 :=
    calc 2 * Real.pi * k / n = (2 * k) / n * Real.pi := by ring
      _ ≤ 1 * Real.pi := by gcongr
      _ ≤ 3.15 := by rw [one_mul]; exact Real.pi_lt_d2.le
  have hsmall : 400 * (S : ℝ) + 820 ≤ 2 ^ S := by
    have hlt : S - 12 + 1 ≤ 2 ^ (S - 12) := Nat.lt_two_pow_self
    have hsplit : 2 ^ S = 2 ^ (S - 12) * 2 ^ 12 := by rw [← pow_add, Nat.sub_add_cancel (by omega)]
    have : 400 * S + 820 ≤ 2 ^ S := by omega
    exact_mod_cast this
  rw [div_le_iff₀ (by positivity)]
  have : (2 : ℝ) ^ S * (2 * Real.pi * k / n) ≤ 2 ^ S * 3.15 := by gcongr
  linarith

/-- The root of unity (log 7). -/
theorem norm_rootFix_sub_le (hS' : S ≤ 2 ^ 26) {k n : Nat} (hkn : 2 * k ≤ n) :
    ‖fixUnits (rootFix S k n) - 2 ^ S * dftRoot k n‖ ≤ 2 ^ 32 := by
  have hseries := norm_expSum_sub_le (angleFix_le hS hkn)
  have hroot : dftRoot k n = Complex.exp (-Complex.I * (2 * Real.pi * k / n : ℝ)) := by
    rw [dftRoot]
    congr 1
    push_cast
    ring
  have hangle : ‖2 ^ S * Complex.exp (-Complex.I * (angleFix S k n / 2 ^ S : ℝ)) - 2 ^ S * dftRoot k n‖ ≤
      20 * S + 41 := by
    have hscale : (0 : ℝ) < 2 ^ S := by positivity
    rw [← mul_sub, norm_mul, norm_pow, Complex.norm_ofNat, hroot]
    refine (mul_le_mul_of_nonneg_left (norm_exp_neg_I_mul_sub_le _ _) hscale.le).trans
      (le_of_eq_of_le ?_ (abs_angleFix_sub_le S hkn))
    rw [← abs_of_pos hscale, ← abs_mul, abs_of_pos hscale, mul_sub, mul_div_cancel₀ _ hscale.ne']
  have hS'' : (S : ℝ) ≤ 2 ^ 26 := by exact_mod_cast hS'
  refine (norm_sub_le_norm_sub_add_norm_sub _ _ _).trans ((add_le_add hseries hangle).trans ?_)
  linarith

end

/-! ### Horner's rule -/

/-- The rounding of one step: the product is floored in each part. -/
theorem norm_hornerStep_sub_le (S : Nat) (w : FixC) (r : Int) (acc : FixC) :
    ‖fixUnits (hornerStep S w r acc) - (fixUnits acc * fixUnits w / 2 ^ S + r * 2 ^ S)‖ ≤ 2 := by
  have hparts : fixUnits (hornerStep S w r acc) - (fixUnits acc * fixUnits w / 2 ^ S + r * 2 ^ S) =
      ⟨((acc.1 * w.1 - acc.2 * w.2) / 2 ^ S : Int) - ((acc.1 * w.1 - acc.2 * w.2 : Int) : ℝ) / 2 ^ S,
        ((acc.1 * w.2 + acc.2 * w.1) / 2 ^ S : Int) - ((acc.1 * w.2 + acc.2 * w.1 : Int) : ℝ) / 2 ^ S⟩ := by
    have hcast : (2 : ℂ) ^ S = ((2 ^ S : ℝ) : ℂ) := by push_cast; rfl
    rw [hcast]
    generalize hq : (2 : ℝ) ^ S = q
    apply Complex.ext <;> simp [fixUnits, hornerStep, hq]
  rw [hparts]
  refine (Complex.norm_le_abs_re_add_abs_im _).trans ((add_le_add
    (abs_sub_ediv_le_one S _) (abs_sub_ediv_le_one S _)).trans ?_)
  norm_num

section
variable {S : Nat} (hS : 256 ≤ S) {w : FixC} {z : ℂ} (hz : ‖z‖ = 1) (hw : ‖fixUnits w - 2 ^ S * z‖ ≤ 2 ^ 32)
include hS hz hw

theorem norm_horner_sub_le {p : List Int} (hp : p.length ≤ 16384) (h : ∀ x ∈ p, -32768 ≤ x ∧ x ≤ 32767) :
    ‖fixUnits (p.foldr (hornerStep S w) (0, 0)) - 2 ^ S * evalList z p‖ ≤ p.length * 2 ^ 62 := by
  induction p with
  | nil => simp [fixUnits, Complex.ext_iff]
  | cons r p ih =>
    rw [List.length_cons] at hp
    have hmem := (List.forall_mem_cons.mp h).2
    have ih := ih (by omega) hmem
    have hlen : (p.length : ℝ) ≤ 2 ^ 14 := by exact_mod_cast (by omega : p.length ≤ 16384)
    have hS2 := two_pow_256_le hS
    set A := evalList z p with hA
    set a := fixUnits (p.foldr (hornerStep S w) (0, 0)) with ha
    have hq : (2 : ℂ) ^ S ≠ 0 := pow_ne_zero S two_ne_zero
    have hround := norm_hornerStep_sub_le S w r (p.foldr (hornerStep S w) (0, 0))
    have hsplit : a * fixUnits w / 2 ^ S + r * 2 ^ S - 2 ^ S * (A * z + r) =
        (a - 2 ^ S * A) * z + (a - 2 ^ S * A) * (fixUnits w - 2 ^ S * z) / 2 ^ S + A * (fixUnits w - 2 ^ S * z) := by
      field_simp
      ring
    have hcarry : ‖(a - 2 ^ S * A) * z‖ ≤ p.length * 2 ^ 62 := by rwa [norm_mul, hz, mul_one]
    have hcross : ‖(a - 2 ^ S * A) * (fixUnits w - 2 ^ S * z) / 2 ^ S‖ ≤ 1 := by
      rw [norm_div, norm_mul, norm_pow, Complex.norm_ofNat, div_le_one (by positivity)]
      calc _ ≤ 2 ^ 14 * 2 ^ 62 * (2 : ℝ) ^ 32 := by gcongr; exact ih.trans (by gcongr)
        _ ≤ 2 ^ 256 := by norm_num
        _ ≤ 2 ^ S := hS2
    have hroot : ‖A * (fixUnits w - 2 ^ S * z)‖ ≤ 2 ^ 14 * 2 ^ 15 * 2 ^ 32 := by
      rw [norm_mul]
      gcongr
      exact (norm_evalList_le hmem hz).trans (by gcongr)
    have hrest := (congrArg norm hsplit).trans_le (norm_add₃_le.trans (add_le_add (add_le_add hcarry hcross) hroot))
    rw [List.foldr_cons, evalList_cons, List.length_cons]
    refine (norm_sub_le_norm_sub_add_norm_sub _ _ _).trans ((add_le_add hround hrest).trans ?_)
    push_cast
    linarith

end

/-- The error bound `dftError` (log 7). -/
theorem norm_dftFix_sub_le {S : Nat} (hS : 256 ≤ S) (hS' : S ≤ 2 ^ 26) {raw : List Int} {k : Nat}
    (hle : raw.length ≤ 16384) (hkn : 2 * k ≤ raw.length) (hraw : ∀ x ∈ raw, -32768 ≤ x ∧ x ≤ 32767) :
    ‖fixUnits (dftFix S raw k) - 2 ^ S * dftValue raw k‖ ≤ dftError := by
  have hhorner := norm_horner_sub_le hS (norm_dftRoot k raw.length) (norm_rootFix_sub_le hS hS' hkn) hle hraw
  have hlen : (raw.length : ℝ) ≤ 2 ^ 14 := by exact_mod_cast hle
  refine hhorner.trans ?_
  rw [dftError]
  push_cast
  linarith

end Sys2Proof.Machine
end

section
/-! The detector is exact: its enclosure of `M[k]`, the test for a tie, and the separation that lets the attempts end
(41_spectrum.md R135 to R137; log 7). -/

namespace Sys2Proof.Machine

/-! ### `RNE32` of a real, by its midpoints -/

/-- `RNE32(r / 2^149)`, as an encoding. -/
noncomputable def nearestBits (r : ℝ) : Nat := rneBits fun u => compare (2 * r) (u : ℝ)

/-- The midpoint of the values of `b` and `b + 1`, in units of `2^-150`. -/
def midpoint (b : Nat) : Nat := encUnits b + encUnits (b + 1)

theorem midpoint_strictMono : StrictMono midpoint :=
  encUnits_strictMono.add (encUnits_strictMono.comp (strictMono_id.add_const 1))

theorem ComparesWith.rneBits_eq {cmp : Nat → Ordering} {r : ℝ} (h : ComparesWith cmp r) :
    rneBits cmp = nearestBits r := by
  rw [nearestBits, funext h]

theorem nearestEven_nearestBits {r : ℝ} (hr : 0 ≤ r) : NearestEven r (nearestBits r) :=
  nearestEven_rneBits (fun _ => rfl) hr

/-- What rounds above `b` is past the midpoint above `b`, or on it when `b` is odd. -/
theorem lt_nearestBits_iff {r : ℝ} (hr : 0 ≤ r) {b : Nat} (hb : b ≤ maxFiniteBits) :
    b < nearestBits r ↔ (midpoint b : ℝ) < 2 * r ∨ ((midpoint b : ℝ) = 2 * r ∧ b % 2 = 1) := by
  have hcmp : ComparesWith (fun u => compare (2 * r) (u : ℝ)) r := fun _ => rfl
  obtain ⟨f, hf⟩ : ∃ f, floorBits (fun u => compare (2 * r) (u : ℝ)) 31 0 = f := ⟨_, rfl⟩
  obtain ⟨low, high⟩ := floorBits_brackets hcmp 31 0 (by simpa using hr) (fun hle => absurd hle (by decide))
  rw [hf] at low high
  have hcases := rneBits_cases hcmp hf
  rw [← nearestBits] at hcases
  rw [midpoint, Nat.cast_add]
  rcases lt_trichotomy b f with hlt | rfl | hgt
  · have h1 := encUnits_cast_lt hlt
    have h2 := encUnits_cast_le (Nat.succ_le_of_lt hlt)
    exact iff_of_true (by omega) (.inl (by linarith))
  · rcases hcases with ⟨hn, hmid⟩ | ⟨hn, hmid⟩ <;> rw [hn]
    · refine iff_of_false (lt_irrefl b) ?_
      rcases hmid with hlt | ⟨heq, heven⟩
      · rintro (h | ⟨h, -⟩) <;> linarith
      · rintro (h | ⟨-, hodd⟩)
        · linarith
        · omega
    · exact iff_of_true (Nat.lt_succ_self b) (hmid.imp_right fun h => ⟨h.1, by omega⟩)
  · have hupper := high (by omega)
    have h1 := encUnits_cast_le (Nat.succ_le_of_lt hgt)
    have h2 := encUnits_cast_lt (Nat.lt_succ_self b)
    refine iff_of_false (by omega) ?_
    rintro (h | ⟨h, -⟩) <;> linarith

theorem nearestBits_le (r : ℝ) : nearestBits r ≤ maxFiniteBits + 1 := rneBits_le _

theorem midpoint_le_of_lt_nearestBits {r : ℝ} (hr : 0 ≤ r) {b : Nat} (h : b < nearestBits r) :
    (midpoint b : ℝ) ≤ 2 * r :=
  ((lt_nearestBits_iff hr (by have := nearestBits_le r; omega)).mp h).elim le_of_lt fun h => h.1.le

theorem le_midpoint_nearestBits {r : ℝ} (hr : 0 ≤ r) (h : nearestBits r ≤ maxFiniteBits) :
    2 * r ≤ midpoint (nearestBits r) :=
  le_of_not_gt fun hlt => lt_irrefl _ ((lt_nearestBits_iff hr h).mpr (.inl hlt))

theorem nearestBits_mono {r r' : ℝ} (hr : 0 ≤ r) (h : r ≤ r') : nearestBits r ≤ nearestBits r' := by
  refine Nat.le_of_not_lt fun hlt => ?_
  have hb : nearestBits r' ≤ maxFiniteBits := by have := nearestBits_le r; omega
  refine lt_irrefl (nearestBits r') ((lt_nearestBits_iff (hr.trans h) hb).mpr ?_)
  rcases (lt_nearestBits_iff hr hb).mp hlt with hmid | ⟨hmid, hodd⟩
  · exact .inl (by linarith)
  · exact (h.lt_or_eq).imp (fun hlt => by linarith) fun heq => ⟨by linarith, hodd⟩

/-- On a midpoint the even neighbour is the result. -/
theorem nearestBits_midpoint {r : ℝ} (hr : 0 ≤ r) {b : Nat} (hb : b < maxFiniteBits) (h : 2 * r = midpoint b) :
    nearestBits r = if b % 2 = 0 then b else b + 1 := by
  have hself := lt_nearestBits_iff hr hb.le
  have hnext := lt_nearestBits_iff hr (Nat.succ_le_of_lt hb)
  have hup : (midpoint b : ℝ) < midpoint (b + 1) := by exact_mod_cast midpoint_strictMono (Nat.lt_succ_self b)
  have hge : b ≤ nearestBits r := by
    rcases Nat.eq_zero_or_pos b with rfl | hpos
    · exact Nat.zero_le _
    · have hdown : (midpoint (b - 1) : ℝ) < midpoint b := by
        exact_mod_cast midpoint_strictMono (Nat.sub_one_lt hpos.ne')
      have := (lt_nearestBits_iff hr (b := b - 1) (by omega)).mpr (.inl (by rwa [h]))
      omega
  have hle : ¬ b + 1 < nearestBits r := by
    rw [hnext, h]
    rintro (hlt | ⟨heq, -⟩) <;> linarith
  rw [h] at hself
  simp only [lt_self_iff_false, true_and, false_or] at hself
  split <;> omega

/-! ### Comparing a magnitude -/

theorem compare_eq_of_iff {x y x' y' : ℝ} (hlt : x < y ↔ x' < y') (heq : x = y ↔ x' = y') :
    compare x y = compare x' y' := by
  rcases lt_trichotomy x y with h | h | h
  · rw [compare_lt_iff_lt.mpr h, compare_lt_iff_lt.mpr (hlt.mp h)]
  · rw [compare_eq_iff_eq.mpr h, compare_eq_iff_eq.mpr (heq.mp h)]
  · have h' : y' < x' := lt_of_not_ge fun hle => (hle.lt_or_eq).elim (fun h' => (hlt.mpr h').not_gt h)
      fun h' => (heq.mpr h').not_gt h
    rw [compare_gt_iff_gt.mpr h, compare_gt_iff_gt.mpr h']

section
variable {n a : Nat} (hn : 0 < n) (ha : 0 < a)
include hn ha

/-- The comparison of the squares, with the divisions multiplied out. -/
theorem compare_sq_eq {y : ℝ} (hy : 0 ≤ y) (u : Nat) :
    compare (4 * 2 ^ 300 * y ^ 2) ((u * (n * a)) ^ 2 : ℝ) = compare (2 * magnitudeUnits n a y) (u : ℝ) := by
  have hN : (0 : ℝ) < n * a := by positivity
  have hsq : 4 * 2 ^ 300 * y ^ 2 = (2 * 2 ^ 150 * y) ^ 2 := by
    rw [mul_pow, mul_pow, ← pow_mul]
    norm_num only
  have hunits : 2 * magnitudeUnits n a y = 2 * 2 ^ 150 * y / (n * a) := by rw [magnitudeUnits]; ring
  have h0 : (0 : ℝ) ≤ 2 * 2 ^ 150 * y := by positivity
  have h1 : (0 : ℝ) ≤ u * (n * a) := by positivity
  rw [hsq, hunits]
  refine compare_eq_of_iff ?_ ?_
  · rw [pow_lt_pow_iff_left₀ h0 h1 two_ne_zero, div_lt_iff₀ hN]
  · rw [pow_left_inj₀ h0 h1 two_ne_zero, div_eq_iff hN.ne']

theorem sq_le_iff {y : ℝ} (hy : 0 ≤ y) (u : Nat) :
    4 * 2 ^ 300 * y ^ 2 ≤ (u * (n * a)) ^ 2 ↔ 2 * magnitudeUnits n a y ≤ u := by
  rw [← compare_le_iff_le, compare_sq_eq hn ha hy, compare_le_iff_le]

theorem le_sq_iff {y : ℝ} (hy : 0 ≤ y) (u : Nat) :
    ((u * (n * a)) ^ 2 : ℝ) ≤ 4 * 2 ^ 300 * y ^ 2 ↔ u ≤ 2 * magnitudeUnits n a y := by
  rw [← compare_ge_iff_ge, compare_sq_eq hn ha hy, compare_ge_iff_ge]

theorem sq_eq_iff {y : ℝ} (hy : 0 ≤ y) (u : Nat) :
    4 * 2 ^ 300 * y ^ 2 = (u * (n * a)) ^ 2 ↔ 2 * magnitudeUnits n a y = u := by
  rw [← compare_eq_iff_eq, compare_sq_eq hn ha hy, compare_eq_iff_eq]

/-- The model's comparison, with `p` for `|Y|²` in units of `2^-2S`. -/
theorem compare_power_eq (S p u : Nat) :
    compare (4 * p * 2 ^ 300) (u * u * (n * n * (a * a)) * 2 ^ (2 * S)) =
      compare (2 * magnitudeUnits n a (√p / 2 ^ S)) (u : ℝ) := by
  rw [← compare_sq_eq hn ha (by positivity)]
  have hS : (2 : ℝ) ^ (2 * S) = (2 ^ S) ^ 2 := by rw [mul_comm, pow_mul]
  refine compare_nat_eq_of_scale (c := 2 ^ (2 * S)) (by positivity) ?_ ?_
  · rw [div_pow, Real.sq_sqrt (Nat.cast_nonneg p), hS]
    simp only [Nat.cast_mul, Nat.cast_pow, Nat.cast_ofNat]
    field_simp
  · push_cast
    ring

theorem power_lt_iff (S p u : Nat) : 4 * p * 2 ^ 300 < u * u * (n * n * (a * a)) * 2 ^ (2 * S) ↔
    2 * magnitudeUnits n a (√p / 2 ^ S) < u := by
  rw [← compare_lt_iff_lt, compare_power_eq hn ha, compare_lt_iff_lt]

theorem lt_power_iff (S p u : Nat) : u * u * (n * n * (a * a)) * 2 ^ (2 * S) < 4 * p * 2 ^ 300 ↔
    u < 2 * magnitudeUnits n a (√p / 2 ^ S) := by
  rw [← compare_gt_iff_gt, compare_power_eq hn ha, compare_gt_iff_gt]

theorem rneOfPower_eq (S p : Nat) : rneOfPower S p n a = nearestBits (magnitudeUnits n a (√p / 2 ^ S)) :=
  ComparesWith.rneBits_eq (compare_power_eq hn ha S p)

end

theorem magnitudeUnits_nonneg (n a : Nat) {y : ℝ} (hy : 0 ≤ y) : 0 ≤ magnitudeUnits n a y := by
  unfold magnitudeUnits; positivity

theorem magnitudeUnits_mono {n a : Nat} {y y' : ℝ} (h : y ≤ y') : magnitudeUnits n a y ≤ magnitudeUnits n a y' := by
  unfold magnitudeUnits; gcongr

/-! ### The enclosure -/

/-- A window, a normaliser and a bin that the engine can be asked for: at most 16384 samples of 16 bits, `A ≥ 1`, and a
bin below `floor(n/2)`. -/
structure LegalWindow (raw : List Int) (a k : Nat) : Prop where
  norm_pos : 1 ≤ a
  length_le : raw.length ≤ 16384
  bin : 2 * (k + 1) ≤ raw.length
  samples : ∀ x ∈ raw, -32768 ≤ x ∧ x ≤ 32767

/-- A part `c` of `Y`, known up to an error. -/
theorem sq_part_bounds {y : Int} {c : ℝ} {e : Nat} (h : |(y : ℝ) - c| ≤ e) :
    ((y.natAbs - e : Nat) : ℝ) ^ 2 ≤ c ^ 2 ∧ c ^ 2 ≤ ((y.natAbs + e : Nat) : ℝ) ^ 2 := by
  have habs : (y.natAbs : ℝ) = |(y : ℝ)| := by rw [Nat.cast_natAbs, Int.cast_abs]
  have hdist := (abs_abs_sub_abs_le_abs_sub (y : ℝ) c).trans h
  rw [← habs, abs_le] at hdist
  rw [← sq_abs c]
  constructor
  · gcongr
    rcases le_total e y.natAbs with hle | hle
    · rw [Nat.cast_sub hle]; linarith
    · rw [Nat.sub_eq_zero_of_le hle, Nat.cast_zero]; exact abs_nonneg c
  · gcongr
    rw [Nat.cast_add]
    linarith

theorem power_bounds {y : FixC} {c : ℂ} (h : ‖fixUnits y - c‖ ≤ dftError) :
    (powerLow y : ℝ) ≤ ‖c‖ ^ 2 ∧ ‖c‖ ^ 2 ≤ powerHigh y := by
  obtain ⟨hre, hre'⟩ := sq_part_bounds (y := y.1) ((Complex.abs_re_le_norm (fixUnits y - c)).trans h)
  obtain ⟨him, him'⟩ := sq_part_bounds (y := y.2) ((Complex.abs_im_le_norm (fixUnits y - c)).trans h)
  rw [← Complex.normSq_eq_norm_sq, Complex.normSq_apply, ← sq, ← sq, powerLow, powerHigh]
  push_cast at *
  exact ⟨add_le_add hre him, add_le_add hre' him'⟩

/-- To move both parts by `2e` moves the absolute value by at most `4e`. -/
theorem sqrt_sq_add_sq_le {x y e : ℝ} (he : 0 ≤ e) :
    √((x + 2 * e) ^ 2 + (y + 2 * e) ^ 2) ≤ √(x ^ 2 + y ^ 2) + 4 * e := by
  have hx : x ≤ √(x ^ 2 + y ^ 2) := Real.le_sqrt_of_sq_le (by linarith [sq_nonneg y])
  have hy : y ≤ √(x ^ 2 + y ^ 2) := Real.le_sqrt_of_sq_le (by linarith [sq_nonneg x])
  have hsq : √(x ^ 2 + y ^ 2) ^ 2 = x ^ 2 + y ^ 2 := Real.sq_sqrt (by positivity)
  refine (Real.sqrt_le_left (by positivity)).mpr ?_
  nlinarith [mul_le_mul_of_nonneg_left hx he, mul_le_mul_of_nonneg_left hy he]

/-- The two ends of the enclosure are close. -/
theorem sqrt_powerHigh_le (y : FixC) : √(powerHigh y : ℝ) ≤ √(powerLow y : ℝ) + 4 * dftError := by
  have hpart : ∀ b e : Nat, b + e ≤ (b - e) + 2 * e := fun b e => by omega
  have hhigh : (powerHigh y : ℝ) ≤ ((y.1.natAbs - dftError : Nat) + 2 * (dftError : ℝ)) ^ 2 +
      ((y.2.natAbs - dftError : Nat) + 2 * (dftError : ℝ)) ^ 2 := by
    exact_mod_cast Nat.add_le_add (Nat.pow_le_pow_left (hpart y.1.natAbs dftError) 2)
      (Nat.pow_le_pow_left (hpart y.2.natAbs dftError) 2)
  refine (Real.sqrt_le_sqrt hhigh).trans ((sqrt_sq_add_sq_le (Nat.cast_nonneg dftError)).trans_eq ?_)
  rw [powerLow, Nat.cast_add, Nat.cast_pow, Nat.cast_pow]

/-- The ends of the enclosure of `|Y|` with `S` fraction bits. -/
noncomputable def absLow (S : Nat) (raw : List Int) (k : Nat) : ℝ := √(powerLow (dftFix S raw k) : ℝ) / 2 ^ S
noncomputable def absHigh (S : Nat) (raw : List Int) (k : Nat) : ℝ := √(powerHigh (dftFix S raw k) : ℝ) / 2 ^ S

theorem absLow_nonneg (S : Nat) (raw : List Int) (k : Nat) : 0 ≤ absLow S raw k := by rw [absLow]; positivity

theorem absHigh_nonneg (S : Nat) (raw : List Int) (k : Nat) : 0 ≤ absHigh S raw k := by rw [absHigh]; positivity

theorem absHigh_le (S : Nat) (raw : List Int) (k : Nat) : absHigh S raw k ≤ absLow S raw k + 2 ^ 98 / 2 ^ S := by
  have h := sqrt_powerHigh_le (dftFix S raw k)
  rw [absHigh, absLow, ← add_div]
  gcongr
  refine h.trans_eq ?_
  rw [dftError]
  push_cast
  ring

/-- Two values between the squares of two near numbers are near. -/
theorem abs_sub_le_of_enclosure {c l y h u d : ℝ} (hc : 0 ≤ c) (hl : 0 ≤ l) (hly : l ≤ y) (hyh : y ≤ h)
    (htop : h ≤ 2 ^ 30) (hgap : h ≤ l + d) (hlow : c * l ^ 2 ≤ u) (hhigh : u ≤ c * h ^ 2) :
    |c * y ^ 2 - u| ≤ c * (2 ^ 31 * d) := by
  have hly' : c * l ^ 2 ≤ c * y ^ 2 := by gcongr
  have hyh' : c * y ^ 2 ≤ c * h ^ 2 := by gcongr; linarith
  have hwidth : c * ((h + l) * (h - l)) ≤ c * (2 ^ 31 * d) := by
    gcongr
    · linarith
    · linarith
    · linarith
  have hfactor : c * ((h + l) * (h - l)) = c * h ^ 2 - c * l ^ 2 := by ring
  exact abs_le.mpr ⟨by linarith, by linarith⟩

/-- The ends of the enclosure of `M[k]`, in units of `2^-149`. -/
noncomputable def unitsLow (S : Nat) (raw : List Int) (a k : Nat) : ℝ := magnitudeUnits raw.length a (absLow S raw k)
noncomputable def unitsHigh (S : Nat) (raw : List Int) (a k : Nat) : ℝ := magnitudeUnits raw.length a (absHigh S raw k)

theorem unitsLow_nonneg (S : Nat) (raw : List Int) (a k : Nat) : 0 ≤ unitsLow S raw a k :=
  magnitudeUnits_nonneg _ _ (absLow_nonneg S raw k)

theorem unitsHigh_nonneg (S : Nat) (raw : List Int) (a k : Nat) : 0 ≤ unitsHigh S raw a k :=
  magnitudeUnits_nonneg _ _ (absHigh_nonneg S raw k)

theorem idealMagnitude_nonneg (raw : List Int) (a k : Nat) : 0 ≤ idealMagnitude raw a k := by
  unfold idealMagnitude; positivity

theorem idealMagnitude_of_zero {raw : List Int} (h : ∀ x ∈ raw, x = 0) (a k : Nat) : idealMagnitude raw a k = 0 := by
  have hzero : evalList (dftRoot k raw.length) raw = 0 := by
    rw [evalList_eq_sum]
    refine Finset.sum_eq_zero fun j hj => ?_
    rw [List.getD_eq_getElem _ _ (Finset.mem_range.mp hj), h _ (List.getElem_mem _), Int.cast_zero, zero_mul]
  rw [idealMagnitude_eq, dftValue, hzero, norm_zero, magnitudeUnits, mul_zero, zero_div]

namespace LegalWindow

section
variable {raw : List Int} {a k : Nat} (hw : LegalWindow raw a k)
include hw

theorem length_pos : 0 < raw.length := by have := hw.bin; omega

theorem norm_dftValue_le : ‖dftValue raw k‖ ≤ raw.length * 2 ^ 15 :=
  norm_evalList_le hw.samples (norm_dftRoot k raw.length)

/-- The bound of R135. -/
theorem nearestBits_le_max : nearestBits (idealMagnitude raw a k) ≤ maxMagnitudeBits := by
  have hn : (0 : ℝ) < raw.length := Nat.cast_pos.mpr hw.length_pos
  have ha : (1 : ℝ) ≤ a := by exact_mod_cast hw.norm_pos
  have htop : idealMagnitude raw a k ≤ encUnits maxMagnitudeBits := by
    have hunits : (encUnits maxMagnitudeBits : ℝ) = 2 ^ 165 := by
      have : encUnits maxMagnitudeBits = 2 ^ 165 := by decide
      exact_mod_cast this
    rw [hunits, idealMagnitude_eq, magnitudeUnits, div_le_iff₀ (by positivity)]
    calc (2 : ℝ) ^ 150 * ‖dftValue raw k‖ ≤ 2 ^ 150 * (raw.length * 2 ^ 15) := by gcongr; exact hw.norm_dftValue_le
      _ = 2 ^ 165 * ((raw.length : ℝ) * 1) := by ring
      _ ≤ 2 ^ 165 * (raw.length * a) := by gcongr
  refine Nat.le_of_not_lt fun hlt => ?_
  have hmid := midpoint_le_of_lt_nearestBits (idealMagnitude_nonneg raw a k) hlt
  have hsucc := encUnits_cast_lt (Nat.lt_succ_self maxMagnitudeBits)
  rw [midpoint, Nat.cast_add] at hmid
  linarith

/-- The exact test, in units of `2^-150`. -/
theorem magnitudeEq_iff (u : Nat) : magnitudeEq raw a k u = true ↔ 2 * idealMagnitude raw a k = u := by
  rw [Sys2Proof.Machine.magnitudeEq_iff hw.length_pos, idealMagnitude_eq,
    ← sq_eq_iff hw.length_pos hw.norm_pos (norm_nonneg _), defect, sub_eq_zero, dftValue]

section
variable {S : Nat} (hS : 256 ≤ S)
include hS

/-- There is room for one half unit only between the ends of an enclosure of `M[k]`. -/
theorem enclosure_narrow : 2 * unitsHigh S raw a k < 2 * unitsLow S raw a k + 1 := by
  have hN : (1 : ℝ) ≤ raw.length * a := by exact_mod_cast Nat.mul_pos hw.length_pos hw.norm_pos
  have hgap : absHigh S raw k - absLow S raw k ≤ 2 ^ 98 / 2 ^ 256 := by
    have h := absHigh_le S raw k
    have : (2 : ℝ) ^ 98 / 2 ^ S ≤ 2 ^ 98 / 2 ^ 256 :=
      div_le_div_of_nonneg_left (by positivity) (by positivity) (two_pow_256_le hS)
    linarith
  have hlt : 2 ^ 151 * (absHigh S raw k - absLow S raw k) / (raw.length * a) < 1 := by
    rw [div_lt_one (by linarith)]
    refine lt_of_lt_of_le ?_ hN
    calc 2 ^ 151 * (absHigh S raw k - absLow S raw k) ≤ 2 ^ 151 * (2 ^ 98 / 2 ^ 256 : ℝ) := by gcongr
      _ < 1 := by norm_num
  have hdiff : 2 * unitsHigh S raw a k - 2 * unitsLow S raw a k =
      2 ^ 151 * (absHigh S raw k - absLow S raw k) / (raw.length * a) := by
    rw [unitsHigh, unitsLow, magnitudeUnits, magnitudeUnits]; ring
  linarith

variable (hS' : S ≤ 2 ^ 26)
include hS'

theorem abs_bounds : absLow S raw k ≤ ‖dftValue raw k‖ ∧ ‖dftValue raw k‖ ≤ absHigh S raw k := by
  have hk : 2 * k ≤ raw.length := by have := hw.bin; omega
  obtain ⟨hlow, hhigh⟩ := power_bounds (norm_dftFix_sub_le hS hS' hw.length_le hk hw.samples)
  rw [norm_mul, norm_pow, Complex.norm_ofNat] at hlow hhigh
  rw [absLow, absHigh, div_le_iff₀' (by positivity), le_div_iff₀' (by positivity)]
  exact ⟨(Real.sqrt_le_left (by positivity)).mpr hlow, Real.le_sqrt_of_sq_le hhigh⟩

theorem units_bounds : unitsLow S raw a k ≤ idealMagnitude raw a k ∧ idealMagnitude raw a k ≤ unitsHigh S raw a k := by
  obtain ⟨hlow, hhigh⟩ := hw.abs_bounds hS hS'
  rw [idealMagnitude_eq]
  exact ⟨magnitudeUnits_mono hlow, magnitudeUnits_mono hhigh⟩

theorem absHigh_le_two_pow : absHigh S raw k ≤ 2 ^ 30 := by
  have hlen : (raw.length : ℝ) ≤ 2 ^ 14 := by exact_mod_cast hw.length_le
  have hle : (2 : ℝ) ^ 98 / 2 ^ S ≤ 1 :=
    (div_le_one (by positivity)).mpr (pow_le_pow_right₀ one_le_two (by omega))
  linarith [absHigh_le S raw k, (hw.abs_bounds hS hS').1, hw.norm_dftValue_le]

/-- What lies in the enclosure of `2·M[k]` is near it. -/
theorem abs_defect_le {u : Nat} (hlow : 2 * unitsLow S raw a k ≤ u) (hhigh : u ≤ 2 * unitsHigh S raw a k) :
    |defect raw a u (dftRoot k raw.length)| ≤ 2 ^ 431 / 2 ^ S := by
  obtain ⟨hly, hyh⟩ := hw.abs_bounds hS hS'
  rw [unitsLow, ← sq_le_iff hw.length_pos hw.norm_pos (absLow_nonneg S raw k)] at hlow
  rw [unitsHigh, ← le_sq_iff hw.length_pos hw.norm_pos (absHigh_nonneg S raw k)] at hhigh
  rw [defect, ← dftValue]
  refine (abs_sub_le_of_enclosure (by positivity) (absLow_nonneg S raw k) hly hyh (hw.absHigh_le_two_pow hS hS')
    (absHigh_le S raw k) hlow hhigh).trans_eq ?_
  rw [(by norm_num : (4 : ℝ) = 2 ^ 2), ← mul_div_assoc, ← mul_div_assoc, ← pow_add, ← pow_add, ← pow_add]

/-- With the precision of the last attempt, what the enclosure does not tell from `2·M[k]` is `2·M[k]`, by
separation. -/
theorem eq_of_enclosed (hlast : 2048 * raw.length ≤ S) {u : Nat} (hlow : 2 * unitsLow S raw a k ≤ u)
    (hhigh : u ≤ 2 * unitsHigh S raw a k) : 2 * idealMagnitude raw a k = u := by
  have hn := hw.length_pos
  have hdefect := hw.abs_defect_le hS hS' hlow hhigh
  rw [unitsHigh, ← le_sq_iff hn hw.norm_pos (absHigh_nonneg S raw k)] at hhigh
  have hu := hhigh.trans (scaled_sq_le (absHigh_nonneg S raw k) (hw.absHigh_le_two_pow hS hS'))
  rw [← hw.magnitudeEq_iff, Sys2Proof.Machine.magnitudeEq_iff hn]
  by_contra hne
  have hsep := one_le_abs_defect_mul_pow (k := k) hn hw.length_le hw.samples hu hne
  have hpow : (2 : ℝ) ^ S ≤ 2 ^ (431 + 400 * (raw.length - 1)) := by
    have hpos : (0 : ℝ) < 2 ^ S := by positivity
    rw [pow_add, pow_mul, ← one_mul ((2 : ℝ) ^ S), ← le_div_iff₀ hpos, mul_div_right_comm]
    exact hsep.trans (by gcongr)
  have hle := (pow_le_pow_iff_right₀ (one_lt_two (α := ℝ))).mp hpow
  omega

end

end

end LegalWindow

/-! ### The attempts -/

theorem nat_eq_of_cast_lt {a b : Nat} (h : (a : ℝ) < b + 1) (h' : (b : ℝ) < a + 1) : a = b := by
  norm_cast at h h'
  omega

theorem double_mul_two_pow (S fuel : Nat) : 2 * S * 2 ^ fuel = S * 2 ^ (fuel + 1) := by ring

/-- An attempt whose ends round apart has the midpoint above the lower one in its enclosure. -/
theorem midpoint_enclosed {S : Nat} {raw : List Int} {a k : Nat}
    (h : nearestBits (unitsLow S raw a k) < nearestBits (unitsHigh S raw a k)) :
    2 * unitsLow S raw a k ≤ midpoint (nearestBits (unitsLow S raw a k)) ∧
      midpoint (nearestBits (unitsLow S raw a k)) ≤ 2 * unitsHigh S raw a k :=
  ⟨le_midpoint_nearestBits (unitsLow_nonneg S raw a k) (by have := nearestBits_le (unitsHigh S raw a k); omega),
    midpoint_le_of_lt_nearestBits (unitsHigh_nonneg S raw a k) h⟩

namespace LegalWindow

section
variable {raw : List Int} {a k : Nat} (hw : LegalWindow raw a k)
include hw

/-- The last attempt, taken when `M[k]` is known to be no midpoint. -/
theorem roundedMagnitude_zero {S : Nat} (hS : 256 ≤ S) (hS' : S ≤ 2 ^ 26) (hlast : 2048 * raw.length ≤ S)
    (hmid : ∀ b, 2 * idealMagnitude raw a k ≠ midpoint b) :
    roundedMagnitude raw a k 0 S = nearestBits (idealMagnitude raw a k) := by
  obtain ⟨hlow, hhigh⟩ := hw.units_bounds hS hS'
  rw [roundedMagnitude, rneOfPower_eq hw.length_pos hw.norm_pos, ← absLow, ← unitsLow]
  refine le_antisymm (nearestBits_mono (unitsLow_nonneg S raw a k) hlow) (Nat.le_of_not_lt fun hlt => ?_)
  obtain ⟨hbelow, habove⟩ :=
    midpoint_enclosed (hlt.trans_le (nearestBits_mono (idealMagnitude_nonneg raw a k) hhigh))
  exact hmid _ (hw.eq_of_enclosed hS hS' hlast hbelow habove)

/-- An attempt before the last gives the value, or goes on with `M[k]` no midpoint. -/
theorem roundedMagnitude_succ (fuel : Nat) {S : Nat} (hS : 256 ≤ S) (hS' : S ≤ 2 ^ 26) :
    roundedMagnitude raw a k (fuel + 1) S = nearestBits (idealMagnitude raw a k) ∨
      (roundedMagnitude raw a k (fuel + 1) S = roundedMagnitude raw a k fuel (2 * S) ∧
        ∀ b, 2 * idealMagnitude raw a k ≠ midpoint b) := by
  have h0 := idealMagnitude_nonneg raw a k
  obtain ⟨hlow, hhigh⟩ := hw.units_bounds hS hS'
  have hbitsLow := nearestBits_mono (unitsLow_nonneg S raw a k) hlow
  have hbitsHigh := nearestBits_mono h0 hhigh
  simp only [roundedMagnitude, rneOfPower_eq hw.length_pos hw.norm_pos]
  rw [← absLow, ← absHigh, ← unitsLow, ← unitsHigh]
  split
  · next heq => exact .inl (by omega)
  · next hne =>
    obtain ⟨hbelow, habove⟩ := midpoint_enclosed (lt_of_le_of_ne (hbitsLow.trans hbitsHigh) hne)
    split
    · next htie =>
      have hfinite := (hbitsLow.trans hw.nearestBits_le_max).trans_lt (by decide : _ < maxFiniteBits)
      exact .inl (nearestBits_midpoint h0 hfinite ((hw.magnitudeEq_iff _).mp htie)).symm
    · next hntie =>
      refine .inr ⟨rfl, fun b hb => hntie ((hw.magnitudeEq_iff _).mpr ?_)⟩
      have hnarrow := hw.enclosure_narrow hS
      have hsame : midpoint b = midpoint (nearestBits (unitsLow S raw a k)) :=
        nat_eq_of_cast_lt (by linarith) (by linarith)
      exact hb.trans (congrArg Nat.cast hsame)

/-- The attempts end at the value. -/
theorem roundedMagnitude_eq (fuel S : Nat) (hS : 256 ≤ S) (htop : S * 2 ^ fuel ≤ 2 ^ 26)
    (hlast : 2048 * raw.length ≤ S * 2 ^ fuel)
    (hmid : fuel = 0 → ∀ b, 2 * idealMagnitude raw a k ≠ midpoint b) :
    roundedMagnitude raw a k fuel S = nearestBits (idealMagnitude raw a k) := by
  induction fuel generalizing S with
  | zero => exact hw.roundedMagnitude_zero hS (by omega) (by omega) (hmid rfl)
  | succ fuel ih =>
    have hS' : S ≤ 2 ^ 26 := (Nat.le_mul_of_pos_right S (by positivity)).trans htop
    rcases hw.roundedMagnitude_succ fuel hS hS' with heq | ⟨hnext, hmid⟩
    · exact heq
    · rw [← double_mul_two_pow] at htop hlast
      rw [hnext, ih (2 * S) (by omega) htop hlast fun _ => hmid]

/-- An attempt at a comparison decides it, or goes on with `2·M[k]` not `u` and `u` in the enclosure. -/
theorem compareMagnitude_succ (u fuel : Nat) {S : Nat} (hS : 256 ≤ S) (hS' : S ≤ 2 ^ 26) :
    compareMagnitude raw a k u (fuel + 1) S = compare (2 * idealMagnitude raw a k) (u : ℝ) ∨
      (compareMagnitude raw a k u (fuel + 1) S = compareMagnitude raw a k u fuel (2 * S) ∧
        2 * idealMagnitude raw a k ≠ u ∧ 2 * unitsLow S raw a k ≤ u ∧ u ≤ 2 * unitsHigh S raw a k) := by
  obtain ⟨hlow, hhigh⟩ := hw.units_bounds hS hS'
  simp only [compareMagnitude, power_lt_iff hw.length_pos hw.norm_pos, lt_power_iff hw.length_pos hw.norm_pos]
  rw [← absLow, ← absHigh, ← unitsLow, ← unitsHigh]
  split
  · exact .inl (compare_lt_iff_lt.mpr (by linarith)).symm
  · next hnlt =>
    split
    · exact .inl (compare_gt_iff_gt.mpr (by linarith)).symm
    · next hngt =>
      split
      · next heq => exact .inl (compare_eq_iff_eq.mpr ((hw.magnitudeEq_iff u).mp heq)).symm
      · next hne =>
        exact .inr ⟨rfl, fun h => hne ((hw.magnitudeEq_iff u).mpr h), not_lt.mp hngt, not_lt.mp hnlt⟩

/-- The last attempt decides what the ones before it leave open. -/
theorem compareMagnitude_eq (u fuel S : Nat) (hS : 256 ≤ S) (htop : S * 2 ^ fuel ≤ 2 ^ 26)
    (hlast : 2048 * raw.length ≤ S * 2 ^ fuel) :
    compareMagnitude raw a k u (fuel + 1) S = compare (2 * idealMagnitude raw a k) (u : ℝ) := by
  induction fuel generalizing S with
  | zero =>
    refine (hw.compareMagnitude_succ u 0 hS (by omega)).resolve_right ?_
    rintro ⟨-, hne, hlow, hhigh⟩
    exact hne (hw.eq_of_enclosed hS (by omega) (by omega) hlow hhigh)
  | succ fuel ih =>
    have hS' : S ≤ 2 ^ 26 := (Nat.le_mul_of_pos_right S (by positivity)).trans htop
    rcases hw.compareMagnitude_succ u (fuel + 1) hS hS' with heq | ⟨hnext, -⟩
    · exact heq
    · rw [← double_mul_two_pow] at htop hlast
      rw [hnext, ih (2 * S) (by omega) htop hlast]

/-- The attempts that the model makes stay within the precision that the error bound covers, and reach the one that
separation asks for. -/
theorem attempts_bounds : baseBits * 2 ^ attempts raw.length ≤ 2 ^ 26 ∧
    2048 * raw.length ≤ baseBits * 2 ^ attempts raw.length := by
  have hle := Nat.log2_self_le hw.length_pos.ne'
  have hlt := Nat.lt_log2_self (n := raw.length)
  have hlen := hw.length_le
  rw [pow_succ] at hlt
  rw [baseBits, attempts, pow_add]
  omega

end

end LegalWindow

/-! ### The magnitude and P4 -/

/-- Settles O40: a silent window has `M[k] = 0`; for any other the attempts give the nearest value, and the clamp of
R135 leaves it. -/
theorem exactMagnitudeIsNearest : Obligations.ExactMagnitudeIsNearest := by
  unfold Obligations.ExactMagnitudeIsNearest
  intro raw a k ha _ hlen hbin hraw
  have hw : LegalWindow raw a k := ⟨ha, hlen, hbin, hraw⟩
  suffices (magnitude .exactRounded raw a k).toNat = nearestBits (idealMagnitude raw a k) from
    this ▸ nearestEven_nearestBits (idealMagnitude_nonneg raw a k)
  change (exactMagnitude raw a k).toNat = _
  cases hs : silentWindow raw a with
  | true =>
    have hzero := ((silentWindow_iff raw a).mp hs).resolve_left (by omega)
    rw [exactMagnitude_of_silent hs, idealMagnitude_of_zero hzero]
    refine (Nat.eq_zero_of_not_pos fun hpos => ?_).symm
    have hmid := midpoint_le_of_lt_nearestBits le_rfl hpos
    rw [mul_zero] at hmid
    exact absurd (Nat.cast_le.mp (hmid.trans_eq Nat.cast_zero.symm)) (by decide)
  | false =>
    obtain ⟨htop, hlast⟩ := hw.attempts_bounds
    rw [toNat_exactMagnitude hs,
      hw.roundedMagnitude_eq _ baseBits le_rfl htop hlast fun h => absurd h (Nat.succ_ne_zero _),
      min_eq_left hw.nearestBits_le_max]

/-- P4 of R137. -/
theorem LegalWindow.withinTolerance_iff {raw : List Int} {a k : Nat} (hw : LegalWindow raw a k) (tol : Nat) {v : Word}
    (hv : v.toNat ≤ maxFiniteBits) : withinTolerance tol raw a k v = true ↔
      |(encUnits v.toNat : ℝ) - idealMagnitude raw a k| ≤ (tol : ℝ) / 2 := by
  have hmag : magBits v = v.toNat := Nat.mod_eq_of_lt (hv.trans_lt (by decide))
  obtain ⟨htop, hlast⟩ := hw.attempts_bounds
  have hcmp := fun u => hw.compareMagnitude_eq u _ baseBits le_rfl htop hlast
  have h0 := idealMagnitude_nonneg raw a k
  simp only [withinTolerance, hmag, hcmp, Bool.and_eq_true, Bool.or_eq_true, bne_iff_ne, decide_eq_true_eq,
    compare_le_iff_le, compare_ge_iff_ge]
  rw [abs_le]
  have hupper : 2 * idealMagnitude raw a k ≤ ((2 * encUnits v.toNat + tol : Nat) : ℝ) ↔
      -((tol : ℝ) / 2) ≤ encUnits v.toNat - idealMagnitude raw a k := by
    push_cast
    constructor <;> intro h <;> linarith
  have hlower : (2 * encUnits v.toNat ≤ tol ∨ ((2 * encUnits v.toNat - tol : Nat) : ℝ) ≤ 2 * idealMagnitude raw a k) ↔
      encUnits v.toNat - idealMagnitude raw a k ≤ (tol : ℝ) / 2 := by
    rcases le_total (2 * encUnits v.toNat) tol with hle | hle
    · have : (2 * encUnits v.toNat : ℝ) ≤ tol := by exact_mod_cast hle
      exact iff_of_true (.inl hle) (by linarith)
    · rw [Nat.cast_sub hle]
      push_cast
      constructor
      · rintro (h | h)
        · have : (2 * encUnits v.toNat : ℝ) ≤ tol := by exact_mod_cast h
          linarith
        · linarith
      · exact fun h => .inr (by linarith)
  exact and_congr hupper hlower

/-- Settles O38: P2 and P3 as the test has them, P4 as its comparisons decide it, and the two arms of bounded mode. -/
theorem conformingValuesExactly : Obligations.ConformingValuesExactly := by
  unfold Obligations.ConformingValuesExactly
  refine ⟨fun tol raw a k v ha _ hlen hbin hraw => ?legal, fun tol raw k v => ?unnormalised, fun tol raw a k =>
    ⟨boundedMagnitude_of_conforms, boundedMagnitude_of_not_conforms⟩⟩
  case legal =>
    have hw : LegalWindow raw a k := ⟨ha, hlen, hbin, hraw⟩
    rw [conforms_iff]
    refine and_congr_right fun hv => ?_
    by_cases hzero : ∀ x ∈ raw, x = 0
    · rw [if_pos ((silentWindow_iff raw a).mpr (.inr hzero)), idealMagnitude_of_zero hzero]
      refine ⟨fun h => ⟨fun _ => h, ?_⟩, fun h => h.1 hzero⟩
      rw [h, BitVec.toNat_ofNat, Nat.zero_mod, encUnits_zero, Nat.cast_zero, sub_zero, abs_zero]
      positivity
    · have hs : ¬ silentWindow raw a = true := by
        rw [silentWindow_iff]
        exact not_or_intro (by omega) hzero
      rw [if_neg hs, hw.withinTolerance_iff tol hv]
      exact (and_iff_right fun h => absurd h hzero).symm
  case unnormalised =>
    rw [conforms_iff, if_pos ((silentWindow_iff raw 0).mpr (.inl rfl))]
    exact and_iff_right_of_imp fun h => by rw [h]; exact Nat.zero_le _

end Sys2Proof.Machine
end

section
/-! `SELECT` (42_select.md R150 to R159): the frequency of a bin and its band, the peak of a band, and the candidates.
-/

namespace Sys2Proof.Machine

/-! ### Frequencies -/

/-- The frequency of a bin in units of `2^-149`, before it is rounded (R151). -/
noncomputable def idealFrequency (s : State) (k : Nat) : ℝ :=
  2 ^ 149 * (k * s.regs.sampleRate.toNat : ℝ) / s.regs.len.toNat

theorem idealFrequency_nonneg (s : State) (k : Nat) : 0 ≤ idealFrequency s k := by
  unfold idealFrequency; positivity

theorem idealFrequency_mono (s : State) {j k : Nat} (h : j ≤ k) : idealFrequency s j ≤ idealFrequency s k := by
  unfold idealFrequency; gcongr

/-- `F(k)` is `RNE32(k·sr / n)` (R151). -/
theorem toNat_frequency {s : State} (hn : 0 < s.regs.len.toNat) (k : Nat) :
    (frequency s k).toNat = nearestBits (idealFrequency s k) := by
  rw [frequency, rneRat_toNat, windowLen, (comparesWith_rational _ hn).rneBits_eq, idealFrequency, Nat.cast_mul]

theorem nearestBits_zero : nearestBits 0 = 0 := by
  have hmid : midpoint 0 = 1 := by decide
  refine Nat.eq_zero_of_not_pos fun hpos => ?_
  have := midpoint_le_of_lt_nearestBits le_rfl hpos
  norm_num [hmid] at this

theorem signBit_frequency (s : State) (k : Nat) : signBit (frequency s k) = false := by
  have h : (frequency s k).toNat ≤ infBits := rneRat_le _ _
  rw [signBit_eq]
  exact decide_eq_false fun hle => absurd (hle.trans h) (by decide)

theorem isNaN_frequency (s : State) (k : Nat) : isNaN (frequency s k) = false :=
  isNaN_eq_false_of_le (by rw [magBits_eq_of_nonneg (signBit_frequency s k)]; exact rneRat_le _ _)

theorem unitsOf_frequency (s : State) (k : Nat) : unitsOf (frequency s k) = encUnits (frequency s k).toNat :=
  unitsOf_nonneg_word (signBit_frequency s k)

/-- No frequency is a NaN, so the band tests are comparisons of values (R153). -/
theorem inHighBand_iff (s : State) (k : Nat) :
    inHighBand s k = true ↔ (s.regs.boundHz.toNat * 2 ^ 149 : Int) < unitsOf (frequency s k) := by
  rw [inHighBand, fGtNat, isNaN_frequency, Bool.not_false, Bool.true_and, decide_eq_true_eq]

theorem inLowBand_iff (s : State) (k : Nat) :
    inLowBand s k = true ↔ (s.regs.floorHz.toNat * 2 ^ 149 : Int) ≤ unitsOf (frequency s k) ∧
      unitsOf (frequency s k) ≤ (s.regs.boundHz.toNat * 2 ^ 149 : Int) := by
  simp only [inLowBand, natLeF, fLeNat, isNaN_frequency, Bool.not_false, Bool.true_and, Bool.and_eq_true,
    decide_eq_true_eq]

/-- Settles O32: the frequency is the rounding of a real that grows with `k`, and it is no NaN. -/
theorem binFrequencyAndBands : Obligations.BinFrequencyAndBands := by
  unfold Obligations.BinFrequencyAndBands
  intro s k hn
  refine ⟨?nearest, ?zero, inHighBand_iff s k, inLowBand_iff s k, fun j hjk => ?mono⟩
  case nearest => rw [toNat_frequency hn]; exact nearestEven_nearestBits (idealFrequency_nonneg s k)
  case zero =>
    have h0 : idealFrequency s 0 = 0 := by simp [idealFrequency]
    rw [← BitVec.toNat_inj, toNat_frequency hn, h0, nearestBits_zero]
    rfl
  case mono =>
    rw [unitsOf_frequency, unitsOf_frequency, Nat.cast_le, encUnits_le_iff, toNat_frequency hn, toNat_frequency hn]
    exact nearestBits_mono (idealFrequency_nonneg s j) (idealFrequency_mono s hjk)

/-! ### The peak of a band -/

/-- The first element of a list in order that passes a test comes before every other one that does. -/
theorem before_of_find?_eq_some {key : Nat → Int} {l : List Nat} {p : Nat → Bool} {k j : Nat}
    (hl : l.Pairwise (Before key)) (hk : l.find? p = some k) (hj : j ∈ l) (hp : p j = true) :
    j = k ∨ Before key k j := by
  obtain ⟨-, as, bs, rfl, has⟩ := List.find?_eq_some_iff_append.mp hk
  obtain ⟨-, hkbs, -⟩ := List.pairwise_append.mp hl
  rcases List.mem_append.mp hj with hja | hjk
  · exact absurd hp (by simpa using has j hja)
  · exact (List.mem_cons.mp hjk).imp_right ((List.pairwise_cons.mp hkbs).1 j)

/-- The bin that the scan of R155 gives a band (`pickBands_eq_bandBin`). -/
def bandBin (s : State) (c : Channel) (band : State → Nat → Bool) : Option Nat :=
  (stableSortDesc (fun k => unitsOf (specBin s c k)) (qualifying s c)).find? (band s)

theorem pickBands_eq_bandBin (s : State) (c : Channel) :
    pickBands s c = (bandBin s c inHighBand, bandBin s c inLowBand) := pickBands_eq s c

section
variable {s : State} {c : Channel} {band : State → Nat → Bool} {k : Nat}

theorem inBandList_iff : inBandList s c band k ↔
    k ∈ stableSortDesc (fun k => unitsOf (specBin s c k)) (qualifying s c) ∧ band s k = true := by
  rw [(perm_stableSortDesc _ _).mem_iff, mem_qualifying, inBandList]
  tauto

theorem bandBin_eq_none_iff : bandBin s c band = none ↔ ∀ k, ¬ inBandList s c band k := by
  simp only [bandBin, List.find?_eq_none, inBandList_iff, not_and]

theorem isBandPeak_of_bandBin (h : bandBin s c band = some k) : isBandPeak s c band k := by
  refine ⟨inBandList_iff.mpr ⟨List.mem_of_find?_eq_some h, List.find?_some h⟩, fun j hj => ?_⟩
  obtain ⟨hmem, hband⟩ := inBandList_iff.mp hj
  have hsorted := pairwise_stableSortDesc (fun k => unitsOf (specBin s c k)) (pairwise_qualifying s c)
  rcases before_of_find?_eq_some hsorted h hmem hband with rfl | hlt | ⟨heq, hlt⟩
  · exact .inr ⟨rfl, le_rfl⟩
  · exact .inl hlt
  · exact .inr ⟨heq.symm, hlt.le⟩

/-- A band has at most one peak. -/
theorem isBandPeak_unique {j : Nat} (hj : isBandPeak s c band j) (hk : isBandPeak s c band k) : j = k := by
  have hjk := hj.2 k hk.1
  have hkj := hk.2 j hj.1
  omega

theorem exists_isBandPeak (h : inBandList s c band k) : ∃ p, isBandPeak s c band p := by
  cases hb : bandBin s c band with
  | none => exact absurd h (bandBin_eq_none_iff.mp hb k)
  | some p => exact ⟨p, isBandPeak_of_bandBin hb⟩

/-- The scan over the sorted bins picks the bin of the closed form (R157). -/
theorem bandBin_eq_some_iff : bandBin s c band = some k ↔ isBandPeak s c band k := by
  refine ⟨isBandPeak_of_bandBin, fun hk => ?_⟩
  cases hb : bandBin s c band with
  | none => exact absurd hk.1 (bandBin_eq_none_iff.mp hb k)
  | some p => rw [isBandPeak_unique (isBandPeak_of_bandBin hb) hk]

end

/-! ### The candidates -/

theorem selectBands_eq (s : State) (c : Channel) : selectBands s c = {
    hiF := (candidate s c (bandBin s c inHighBand)).1
    hiA := (candidate s c (bandBin s c inHighBand)).2
    loF := (candidate s c (bandBin s c inLowBand)).1
    loA := (candidate s c (bandBin s c inLowBand)).2 } := by
  rw [selectBands, pickBands_eq_bandBin]

theorem candidate_of_empty {s : State} {c : Channel} {band : State → Nat → Bool}
    (h : ∀ k, ¬ inBandList s c band k) : candidate s c (bandBin s c band) = (0#32, 0#32) := by
  rw [bandBin_eq_none_iff.mpr h, candidate]

theorem candidate_of_peak {s : State} {c : Channel} {band : State → Nat → Bool} {k : Nat}
    (h : isBandPeak s c band k) : candidate s c (bandBin s c band) = (frequency s k, specBin s c k) := by
  rw [bandBin_eq_some_iff.mpr h, candidate]

theorem cand_complete_selectStage (s : State) (c : Channel) :
    (complete (selectStage c s)).cand.get c = selectBands s c := by
  rw [complete_cand, selectStage_cand, lanes_get_set_same]

/-- Settles O41: the stage writes `CAND[c]`, and the completion `SEQ` and `DONE`. -/
theorem selectWritesItsCandidates : Obligations.SelectWritesItsCandidates := by
  unfold Obligations.SelectWritesItsCandidates
  exact fun c s => ⟨selectBands s c, exec_select c s⟩

/-- Settles O42: each band's bin is its peak, or none when the band is empty. -/
theorem selectPicksTheBandPeaks : Obligations.SelectPicksTheBandPeaks := by
  unfold Obligations.SelectPicksTheBandPeaks
  intro c s
  refine ⟨_, exec_select c s, ?_⟩
  rw [cand_complete_selectStage, selectBands_eq]
  exact ⟨fun h => Prod.ext_iff.mp (candidate_of_empty h), fun k h => Prod.ext_iff.mp (candidate_of_peak h),
    fun h => Prod.ext_iff.mp (candidate_of_empty h), fun k h => Prod.ext_iff.mp (candidate_of_peak h),
    fun k => exists_isBandPeak, fun k => exists_isBandPeak⟩

/-- A band of a silent spectrum, or of a window too short for a selectable bin, is empty (R159). -/
theorem not_inBandList {s : State} {c : Channel}
    (h : (∀ k < s.regs.len.toNat / 2, posF (specBin s c k) = false) ∨ s.regs.len.toNat ≤ 2 * floorBin s + 1)
    (band : State → Nat → Bool) (k : Nat) : ¬ inBandList s c band k := by
  rintro ⟨hfloor, -, hk, hpos, -⟩
  rw [binCount, windowLen] at hk
  rcases h with hzero | hshort
  · rw [hzero k hk] at hpos; exact Bool.false_ne_true hpos
  · omega

/-- Settles O43: both bands are empty. -/
theorem noBinGivesSentinels : Obligations.NoBinGivesSentinels := by
  unfold Obligations.NoBinGivesSentinels
  intro c s h
  refine ⟨_, exec_select c s, ?_⟩
  rw [cand_complete_selectStage, selectBands_eq, candidate_of_empty (not_inBandList h inHighBand),
    candidate_of_empty (not_inBandList h inLowBand)]

end Sys2Proof.Machine
end

section
/-! `SHAPE` (43_shape.md R170 to R179): the ceiling and the clamp, the pair a band gets, and the results under a legal
configuration. -/

namespace Sys2Proof.Machine

/-- Settles O44: the stage writes `RESULT[c]`, and the completion `SEQ` and `DONE`. -/
theorem shapeWritesItsResult : Obligations.ShapeWritesItsResult := by
  unfold Obligations.ShapeWritesItsResult
  exact exec_shape

/-! ### `Ceiling` -/

section
variable {g : Regs} {f : Word}

theorem ceilingOf_of_inside (hn : isNaN f = false) (hlo : (g.resLoHz.toNat * 2 ^ 149 : Int) ≤ unitsOf f)
    (hhi : unitsOf f ≤ (g.resHiHz.toNat * 2 ^ 149 : Int)) : ceilingOf g f = g.resCeil :=
  if_pos (by simp only [natLeF, fLeNat, hn, hlo, hhi, Bool.not_false, decide_true, Bool.and_self])

theorem ceilingOf_of_outside (h : isNaN f = true ∨ unitsOf f < (g.resLoHz.toNat * 2 ^ 149 : Int) ∨
    (g.resHiHz.toNat * 2 ^ 149 : Int) < unitsOf f) : ceilingOf g f = oneF := by
  refine if_neg ?_
  simp only [natLeF, fLeNat, Bool.and_eq_true, Bool.not_eq_true', decide_eq_true_eq]
  rintro ⟨⟨hn, hlo⟩, -, hhi⟩
  rcases h with hnan | hlow | hhigh
  · rw [hnan] at hn; cases hn
  · exact hlo.not_gt hlow
  · exact hhi.not_gt hhigh

/-- The two clauses of R174 leave no frequency out. -/
theorem eq_ceilingOf {cap : Word}
    (hin : isNaN f = false → (g.resLoHz.toNat * 2 ^ 149 : Int) ≤ unitsOf f →
      unitsOf f ≤ (g.resHiHz.toNat * 2 ^ 149 : Int) → cap = g.resCeil)
    (hout : (isNaN f = true ∨ unitsOf f < (g.resLoHz.toNat * 2 ^ 149 : Int) ∨
      (g.resHiHz.toNat * 2 ^ 149 : Int) < unitsOf f) → cap = oneF) : cap = ceilingOf g f := by
  by_cases h : isNaN f = true ∨ unitsOf f < (g.resLoHz.toNat * 2 ^ 149 : Int) ∨
    (g.resHiHz.toNat * 2 ^ 149 : Int) < unitsOf f
  · rw [hout h, ceilingOf_of_outside h]
  · simp only [not_or, Bool.not_eq_true, not_lt] at h
    obtain ⟨hn, hlo, hhi⟩ := h
    rw [hin hn hlo hhi, ceilingOf_of_inside hn hlo hhi]

/-- A legal `RES_CEIL` keeps every ceiling at most 1.0. -/
theorem ceilingOf_le_one (h : g.resCeil.toNat ≤ oneF.toNat) (f : Word) : (ceilingOf g f).toNat ≤ oneF.toNat := by
  unfold ceilingOf
  split
  · exact h
  · exact le_rfl

end

/-! ### `Clamp` -/

theorem leF_iff {a b : Word} (ha : isNaN a = false) (hb : isNaN b = false) :
    leF a b = true ↔ unitsOf a ≤ unitsOf b := by
  rw [leF, ha, hb, Bool.not_false, Bool.true_and, Bool.true_and, decide_eq_true_eq]

theorem leF_zero_iff {p : Word} (hp : isNaN p = false) : leF p 0#32 = true ↔ unitsOf p ≤ 0 :=
  leF_iff hp (by decide)

section
variable {p cap : Word}

theorem clamp_of_isNaN (hp : isNaN p = true) (cap : Word) : clamp p cap = 0#32 := if_pos hp

theorem clamp_of_nonpos (hp : isNaN p = false) (h0 : unitsOf p ≤ 0) (cap : Word) : clamp p cap = 0#32 := by
  simp only [clamp, hp, (leF_zero_iff hp).mpr h0, Bool.false_eq_true, if_false, if_true]

/-- A positive product is held to the ceiling. -/
theorem clamp_of_pos (hp : isNaN p = false) (hcap : isNaN cap = false) (h0 : 0 < unitsOf p) :
    clamp p cap = if unitsOf cap ≤ unitsOf p then cap else p := by
  simp only [clamp, hp, leF_zero_iff hp, leF_iff hcap hp, h0.not_ge, Bool.false_eq_true, if_false]

end

/-! ### `ShapeBand` -/

section
variable {g : Regs} {f : Word}

theorem shapeBand_of_zero (h : isZeroF f = true) (a d : Word) : shapeBand g f a d = (d, 0#32) := if_pos h

theorem shapeBand_of_ne_zero (h : isZeroF f = false) (a d : Word) :
    shapeBand g f a d = (f, clamp (mul32 a g.gain) (ceilingOf g f)) :=
  if_neg (by rw [h]; exact Bool.false_ne_true)

/-- Settles O45: the sentinel's arm of `ShapeBand`, and the arms of `Clamp` for the ceiling that R174 gives. -/
theorem shapeBandRule : Obligations.ShapeBandRule := by
  unfold Obligations.ShapeBandRule
  intro g f a d
  refine ⟨fun hz => shapeBand_of_zero ((isZeroF_iff f).mpr hz) a d, fun hpos hneg => ?_⟩
  have hz : isZeroF f = false := by
    rw [← Bool.not_eq_true, isZeroF_iff]
    exact not_or.mpr ⟨hpos, hneg⟩
  rw [shapeBand_of_ne_zero hz]
  refine ⟨rfl, fun cap hin hout hcap => ?_⟩
  rw [← eq_ceilingOf hin hout]
  refine ⟨fun hnan => clamp_of_isNaN hnan cap, fun hnum => ⟨fun h0 => clamp_of_nonpos hnum h0 cap, ?_, ?_⟩⟩
  · intro h0 hle
    exact (clamp_of_pos hnum hcap h0).trans (if_pos hle)
  · intro h0 hlt
    exact (clamp_of_pos hnum hcap h0).trans (if_neg hlt.not_ge)

/-- The amplitude is at most the ceiling of its frequency; with no candidate it is +0. -/
theorem shapeBand_le_ceilingOf (h : g.resCeil.toNat ≤ oneF.toNat) (f a d : Word) :
    (shapeBand g f a d).2.toNat ≤ (ceilingOf g f).toNat := by
  cases hz : isZeroF f with
  | true => rw [shapeBand_of_zero hz]; exact Nat.zero_le _
  | false => rw [shapeBand_of_ne_zero hz]; exact clamp_le (ceilingOf_le_one h f)

theorem isZeroF_shapeBand {d : Word} (hd : isZeroF d = false) (f a : Word) :
    isZeroF (shapeBand g f a d).1 = false := by
  cases hz : isZeroF f with
  | true => rw [shapeBand_of_zero hz]; exact hd
  | false => rw [shapeBand_of_ne_zero hz]; exact hz

/-- The encoding of a positive finite binary32. -/
def IsPosFinite (w : Word) : Prop := 0 < w.toNat ∧ w.toNat < infBits

theorem IsPosFinite.isZeroF {w : Word} (h : IsPosFinite w) : isZeroF w = false := by
  have hlt : w.toNat < 2 ^ 31 := h.2.trans (by decide)
  rw [Machine.isZeroF, magBits, Nat.mod_eq_of_lt hlt]
  exact beq_false_of_ne h.1.ne'

/-- A candidate frequency that is +0 or positive and finite gives a positive finite one. -/
theorem isPosFinite_shapeBand {d : Word} (hf : f.toNat < infBits) (hd : IsPosFinite d) (a : Word) :
    IsPosFinite (shapeBand g f a d).1 := by
  cases hz : isZeroF f with
  | true => rw [shapeBand_of_zero hz]; exact hd
  | false =>
    rw [shapeBand_of_ne_zero hz]
    refine ⟨Nat.pos_of_ne_zero fun h0 => ?_, hf⟩
    rw [isZeroF, magBits, h0] at hz
    cases hz

end

/-! ### The results under a legal configuration -/

theorem result_complete_shapeStage (s : State) (c : Channel) :
    (complete (shapeStage c s)).result.get c = shapeBands s.regs (s.cand.get c) := by
  rw [complete_result, shapeStage_result, lanes_get_set_same]

theorem isPosFinite_defaults {s : State} (h : configOk s = true) :
    IsPosFinite s.regs.hiDefault ∧ IsPosFinite s.regs.loDefault := by
  obtain ⟨-, -, -, -, -, -, hlo, hhi⟩ := (configOkExactly s).mp h
  exact ⟨hhi, hlo⟩

/-- Settles O46: the ceilings are at most 1.0, and the defaults are not zero. -/
theorem shapedAmplitudesInRange : Obligations.ShapedAmplitudesInRange := by
  unfold Obligations.ShapedAmplitudesInRange
  intro c s hc
  obtain ⟨hhi, hlo⟩ := isPosFinite_defaults hc
  refine ⟨_, exec_shape c s, ?_⟩
  rw [result_complete_shapeStage]
  exact ⟨shapeBand_le_one (resCeil_le_one hc) _ _ _, shapeBand_le_one (resCeil_le_one hc) _ _ _,
    isZeroF_shapeBand hhi.isZeroF _ _, isZeroF_shapeBand hlo.isZeroF _ _⟩

/-- Words without a sign have the order of their encodings. -/
theorem unitsOf_le_of_toNat_le {a b : Word} (hb : b.toNat < 2 ^ 31) (h : a.toNat ≤ b.toNat) :
    unitsOf a ≤ unitsOf b := by
  have sign : ∀ w : Word, w.toNat ≤ b.toNat → signBit w = false := fun w hw => by
    rw [signBit_eq]
    exact decide_eq_false (hw.trans_lt hb).not_ge
  rw [unitsOf_nonneg_word (sign a h), unitsOf_nonneg_word (sign b le_rfl), Nat.cast_le, encUnits_le_iff]
  exact h

/-- Inside the resonance sub-range the ceiling is `RES_CEIL` (R179). -/
theorem unitsOf_shapeBand_le_resCeil {g : Regs} (h : g.resCeil.toNat ≤ oneF.toNat) {f : Word} (a d : Word)
    (hn : isNaN f = false) (hlo : (g.resLoHz.toNat * 2 ^ 149 : Int) ≤ unitsOf f)
    (hhi : unitsOf f ≤ (g.resHiHz.toNat * 2 ^ 149 : Int)) :
    unitsOf (shapeBand g f a d).2 ≤ unitsOf g.resCeil := by
  have hle := shapeBand_le_ceilingOf h f a d
  rw [ceilingOf_of_inside hn hlo hhi] at hle
  exact unitsOf_le_of_toNat_le (h.trans_lt (by decide)) hle

/-- Settles O47: each band's amplitude is at most the ceiling of its frequency. -/
theorem resonanceNeverExceedsItsCeiling : Obligations.ResonanceNeverExceedsItsCeiling := by
  unfold Obligations.ResonanceNeverExceedsItsCeiling
  intro c s hc
  have hceil := resCeil_le_one hc
  refine ⟨_, exec_shape c s, ?_⟩
  rw [result_complete_shapeStage]
  exact ⟨unitsOf_shapeBand_le_resCeil hceil _ _, unitsOf_shapeBand_le_resCeil hceil _ _⟩

/-! ### The results after `SELECT` -/

/-- A bin of the spectrum has a frequency below `2^32`, far below the largest finite binary32. -/
theorem frequency_lt_infBits {s : State} {k : Nat} (hk : k < binCount s) : (frequency s k).toNat < infBits := by
  have hkn : k < s.regs.len.toNat := hk.trans_le (Nat.div_le_self _ _)
  have hn : 0 < s.regs.len.toNat := k.zero_le.trans_lt hkn
  have hideal : idealFrequency s k ≤ 2 ^ 181 := by
    have hn' : (0 : ℝ) < s.regs.len.toNat := Nat.cast_pos.mpr hn
    have hprod : (k * s.regs.sampleRate.toNat : ℝ) ≤ s.regs.len.toNat * 2 ^ 32 := by
      exact_mod_cast Nat.mul_le_mul hkn.le s.regs.sampleRate.isLt.le
    rw [idealFrequency, div_le_iff₀ hn']
    linarith
  have hmid : 2 * 2 ^ 181 < midpoint maxFiniteBits := by decide
  rw [toNat_frequency hn]
  refine Nat.lt_of_not_le fun hinf => ?_
  have hmid' := midpoint_le_of_lt_nearestBits (idealFrequency_nonneg s k) (b := maxFiniteBits) hinf
  have : (2 * 2 ^ 181 : ℝ) < midpoint maxFiniteBits := by exact_mod_cast hmid
  linarith

/-- A band's candidate frequency is the sentinel or that of one of its bins. -/
theorem candidate_frequency_lt_infBits (s : State) (c : Channel) (band : State → Nat → Bool) :
    (candidate s c (bandBin s c band)).1.toNat < infBits := by
  cases hb : bandBin s c band with
  | none => rw [candidate]; decide
  | some k =>
    obtain ⟨⟨-, -, hk, -⟩, -⟩ := isBandPeak_of_bandBin hb
    exact frequency_lt_infBits hk

/-- Settles O48: the candidate frequencies are finite, `SHAPE` replaces the zero ones by positive finite defaults, and
holds the amplitudes to 1.0. -/
theorem selectedResultsAreParams : Obligations.SelectedResultsAreParams := by
  unfold Obligations.SelectedResultsAreParams
  intro c s _ hc _
  obtain ⟨hhi, hlo⟩ := isPosFinite_defaults hc
  refine ⟨_, _, exec_select c s, exec_shape c _, ?_⟩
  rw [result_complete_shapeStage, cand_complete_selectStage, selectBands_eq, complete_regs, selectStage_regs]
  exact ⟨isPosFinite_shapeBand (candidate_frequency_lt_infBits s c inHighBand) hhi _,
    isPosFinite_shapeBand (candidate_frequency_lt_infBits s c inLowBand) hlo _,
    shapeBand_le_one (resCeil_le_one hc) _ _ _, shapeBand_le_one (resCeil_le_one hc) _ _ _⟩

end Sys2Proof.Machine
end

section
/-! `ANALYZE` (44_analyze.md R185 to R190): what one channel's three stages read and write, a run of them over the
declared channels, their order, and the runs of the stage commands through the port. -/

namespace Sys2Proof.Machine

/-! ### The declared channels -/

theorem mem_declaredChannels {s : State} {c : Channel} : c ∈ declaredChannels s ↔ c.index < s.regs.channels.toNat := by
  have hall : c ∈ [Channel.ch0, .ch1] := by cases c <;> decide
  rw [declaredChannels, List.mem_filter, decide_eq_true_eq]
  exact and_iff_right hall

theorem nodup_declaredChannels (s : State) : (declaredChannels s).Nodup := List.Nodup.filter _ (by decide)

theorem declaredChannels_of_one {s : State} (h : s.regs.channels = 1#32) : declaredChannels s = [.ch0] := by
  simp [declaredChannels, channelCount, h, Channel.index]

theorem declaredChannels_of_two {s : State} (h : s.regs.channels = 2#32) : declaredChannels s = [.ch0, .ch1] := by
  simp [declaredChannels, channelCount, h, Channel.index]

/-- A legal configuration declares channel 0, and `CHANNELS` channels in all (R116). -/
theorem declaredChannels_eq_cons {s : State} (h : configOk s = true) :
    ∃ cs, declaredChannels s = .ch0 :: cs ∧ cs.length + 1 = s.regs.channels.toNat := by
  rcases ((configOkExactly s).mp h).1 with hc | hc
  · exact ⟨[], declaredChannels_of_one hc, by rw [hc]; rfl⟩
  · exact ⟨[.ch1], declaredChannels_of_two hc, by rw [hc]; rfl⟩

/-! ### One channel -/

/-- The candidates that `ANALYZE` gives a channel (R185): those `SELECT` picks from the bins `SPECTRUM` writes. -/
def analyzedCand (s : State) (c : Channel) : Cand := selectBands (spectrumStage c s) c

/-- The result that `ANALYZE` gives a channel (R185). -/
def analyzedResult (s : State) (c : Channel) : RumbleParams := shapeBands s.regs (analyzedCand s c)

theorem analyzeChannel_eq (s : State) (c : Channel) : analyzeChannel s c = { s with
    mem := putBins c 0 (spectrumBins s c) s.mem
    cand := s.cand.set c (analyzedCand s c)
    result := s.result.set c (analyzedResult s c) } := by
  have hresult : (analyzeChannel s c).result = s.result.set c (analyzedResult s c) := by
    rw [analyzeChannel, shapeStage_result, selectStage_cand, lanes_get_set_same]
    rfl
  rw [← hresult]
  rfl

/-- The candidates of a channel depend on its window, the configuration and the parameters, not on the bins that lie in
the RAM (R185, R188). -/
theorem analyzedCand_congr {s t : State} {c : Channel} (hp : s.params = t.params) (hr : s.regs = t.regs)
    (hw : window s c = window t c) : analyzedCand s c = analyzedCand t c :=
  selectBands_congr hr fun k hk => by
    have hk' : k < s.regs.len.toNat / 2 := hk
    rw [specBin_spectrumStage hk', specBin_spectrumStage (hr ▸ hk'), spectrumOf, spectrumOf, hp, hr, hw]

theorem analyzedResult_congr {s t : State} {c : Channel} (hp : s.params = t.params) (hr : s.regs = t.regs)
    (hw : window s c = window t c) : analyzedResult s c = analyzedResult t c := by
  rw [analyzedResult, analyzedResult, analyzedCand_congr hp hr hw, hr]

/-- A byte outside the channel's bins reads as before (R189). -/
theorem readByte_analyzeChannel_other {s : State} {c : Channel} {a : Nat}
    (h : a < specAddr c 0 ∨ specAddr c (s.regs.len.toNat / 2) ≤ a) :
    readByte (analyzeChannel s c) a = readByte s a :=
  (readByte_eq_of_findByte (s := spectrumStage c s) (t := analyzeChannel s c) rfl rfl).trans
    (readByte_spectrumStage_other h)

/-- The windows of both channels lie below the SPEC RAMs, and the bins of each channel in its own SPEC RAM (R23). -/
structure WindowFits (s : State) : Prop where
  len : s.regs.len.toNat ≤ 16384
  channels : s.regs.channels.toNat ≤ 2

theorem windowFits_of_legal {s : State} (hp : s.params.wellFormed = true) (hc : configOk s = true)
    (hl : lengthOk s = true) : WindowFits s := by
  constructor
  · simp only [Params.wellFormed, Bool.and_eq_true, decide_eq_true_eq] at hp
    exact (len_le_nMax hc hl).trans hp.2
  · rcases ((configOkExactly s).mp hc).1 with h | h <;> rw [h] <;> decide

theorem WindowFits.analyzeChannel {s : State} (h : WindowFits s) (c : Channel) : WindowFits (analyzeChannel s c) :=
  ⟨h.len, h.channels⟩

/-- Analyzing a channel changes no window: the bins are written above the PCM RAM (R188). -/
theorem window_analyzeChannel {s : State} (h : WindowFits s) (c d : Channel) :
    window (analyzeChannel s c) d = window s d := by
  refine (window_congr (s := s) (t := analyzeChannel s c) rfl rfl fun i hi => ?_).symm
  have hslot : pcmAddr (i * s.regs.channels.toNat + d.index) + 1 < specAddr c 0 := by
    have hlen := h.len
    have hmul : i * s.regs.channels.toNat ≤ 16383 * 2 := Nat.mul_le_mul (by omega) h.channels
    cases c <;> cases d <;> simp only [pcmAddr, specAddr, Channel.index] <;> omega
  exact (readHalf_eq_of_readByte (readByte_analyzeChannel_other (.inl (by omega)))
    (readByte_analyzeChannel_other (.inl hslot))).symm

/-! ### A list of channels -/

/-- A channel that is not analyzed keeps its candidates and its result (R189). -/
theorem foldl_analyzeChannel_of_notMem {cs : List Channel} {c : Channel} (h : c ∉ cs) (s : State) :
    (cs.foldl analyzeChannel s).cand.get c = s.cand.get c ∧
      (cs.foldl analyzeChannel s).result.get c = s.result.get c := by
  induction cs generalizing s with
  | nil => exact ⟨rfl, rfl⟩
  | cons d cs ih =>
    obtain ⟨hd, hcs⟩ : c ≠ d ∧ c ∉ cs := by simpa using h
    have hcand : (analyzeChannel s d).cand.get c = s.cand.get c := by
      rw [analyzeChannel_eq, lanes_get_set_other _ hd]
    have hresult : (analyzeChannel s d).result.get c = s.result.get c := by
      rw [analyzeChannel_eq, lanes_get_set_other _ hd]
    rw [List.foldl_cons, ← hcand, ← hresult]
    exact ih hcs _

/-- A byte outside the bins of every channel analyzed reads as before (R189). -/
theorem readByte_foldl_analyzeChannel_other {cs : List Channel} {a : Nat} (s : State)
    (h : ∀ c ∈ cs, a < specAddr c 0 ∨ specAddr c (s.regs.len.toNat / 2) ≤ a) :
    readByte (cs.foldl analyzeChannel s) a = readByte s a := by
  induction cs generalizing s with
  | nil => rfl
  | cons c cs ih =>
    obtain ⟨hc, hcs⟩ := List.forall_mem_cons.mp h
    rw [List.foldl_cons, ih (analyzeChannel s c) hcs, readByte_analyzeChannel_other hc]

/-- Each channel analyzed gets the result that its stages alone would give it (R185, R188). -/
theorem result_foldl_analyzeChannel {cs : List Channel} (hcs : cs.Nodup) {c : Channel} (hc : c ∈ cs) {s : State}
    (h : WindowFits s) : (cs.foldl analyzeChannel s).result.get c = analyzedResult s c := by
  induction cs generalizing s with
  | nil => cases hc
  | cons d cs ih =>
    obtain ⟨hd, hnodup⟩ := List.nodup_cons.mp hcs
    rw [List.foldl_cons]
    rcases List.mem_cons.mp hc with rfl | hmem
    · rw [(foldl_analyzeChannel_of_notMem hd _).2, analyzeChannel_eq, lanes_get_set_same]
    · exact (ih hnodup hmem (h.analyzeChannel d)).trans (analyzedResult_congr rfl rfl (window_analyzeChannel h d c))

/-- Settles O49: the frames of the list of declared channels, which is channel 0 alone when `CHANNELS = 1`. -/
theorem analyzeWritesDeclaredChannels : Obligations.AnalyzeWritesDeclaredChannels := by
  unfold Obligations.AnalyzeWritesDeclaredChannels
  intro s
  obtain ⟨t, ht, hframe⟩ := everyCommandCompletes .analyze s
  obtain rfl := Host.Outcome.next.inj ((exec_analyze s).symm.trans ht)
  refine ⟨_, ht, hframe, fun c hc => ?undeclared, fun a ha => ?bytes, fun hone => ?mono⟩
  case undeclared => exact foldl_analyzeChannel_of_notMem (mt mem_declaredChannels.mp hc.not_gt) s
  case bytes =>
    have hcomplete := readByte_eq_of_findByte (s := (declaredChannels s).foldl analyzeChannel s)
      (t := complete ((declaredChannels s).foldl analyzeChannel s)) (a := a) rfl rfl
    exact hcomplete.trans
      (readByte_foldl_analyzeChannel_other s fun c hc => ha c (mem_declaredChannels.mp hc))
  case mono =>
    rw [declaredChannels_of_one hone]
    rfl

/-! ### Silent windows -/

/-- A silent window leaves a channel no candidate (R137, R159). -/
theorem analyzedCand_of_silent {s : State} {c : Channel} (h : s.regs.norm = 0#32 ∨
    ∀ i < s.regs.len.toNat, readHalf s (pcmAddr (i * s.regs.channels.toNat + c.index)) = 0#16) :
    analyzedCand s c = Cand.reset := by
  obtain ⟨t, ht, hzero⟩ := silentWindowGivesZeroBins c s h
  obtain rfl := Host.Outcome.next.inj ((exec_spectrum c s).symm.trans ht)
  have hbins : ∀ k < s.regs.len.toNat / 2, posF (specBin (spectrumStage c s) c k) = false := fun k hk => by
    rw [specBin_congr (s := spectrumStage c s) (t := complete (spectrumStage c s)) rfl rfl, hzero k hk]
    decide
  obtain ⟨u, hu, hcand⟩ := noBinGivesSentinels c (spectrumStage c s) (.inl hbins)
  obtain rfl := Host.Outcome.next.inj ((exec_select c _).symm.trans hu)
  rw [analyzedCand, ← cand_complete_selectStage, hcand, Cand.reset]

/-- No candidate gives the defaults with amplitude +0 (R173). -/
theorem shapeBands_reset (g : Regs) : shapeBands g Cand.reset =
    { freqHigh := g.hiDefault, ampHigh := 0#32, freqLow := g.loDefault, ampLow := 0#32 } := by
  have hzero : isZeroF 0#32 = true := by decide
  simp only [shapeBands, Cand.reset, shapeBand_of_zero hzero]

/-- Settles O51: each declared channel's result is that of its own silent window. -/
theorem silentWindowGivesTheDefaults : Obligations.SilentWindowGivesTheDefaults := by
  unfold Obligations.SilentWindowGivesTheDefaults
  intro s hp hconf hlen hsilent
  refine ⟨_, exec_analyze s, fun c hc => ?_⟩
  rw [complete_result, result_foldl_analyzeChannel (nodup_declaredChannels s) (mem_declaredChannels.mpr hc)
    (windowFits_of_legal hp hconf hlen), analyzedResult, analyzedCand_of_silent (hsilent.imp_right fun h => h c hc),
    shapeBands_reset]

/-! ### The order of the channels -/

/-- What a byte holds after a run of bins depends on the RAM before it at that byte only. -/
theorem findByte_putBins_congr (c : Channel) (ws : List Word) (k : Nat) {m m' : List Host.Cell} {x : Nat}
    (h : findByte m x = findByte m' x) : findByte (putBins c k ws m) x = findByte (putBins c k ws m') x := by
  induction ws generalizing k m m' with
  | nil => exact h
  | cons w ws ih => exact ih (k + 1) (by rw [findByte_putWord, findByte_putWord, h])

/-- Runs of bins that do not overlap can be written in either order. -/
theorem putBins_comm {m : List Host.Cell} (hm : rising m = true) {c d : Channel} {k j : Nat} {ws vs : List Word}
    (h : specAddr c (k + ws.length) ≤ specAddr d j) :
    putBins d j vs (putBins c k ws m) = putBins c k ws (putBins d j vs m) := by
  refine rising_ext (rising_putBins _ _ _ (rising_putBins _ _ _ hm))
    (rising_putBins _ _ _ (rising_putBins _ _ _ hm)) fun x => ?_
  by_cases hx : x < specAddr d j
  · rw [findByte_putBins_other d vs j _ (.inl hx)]
    exact findByte_putBins_congr c ws k (findByte_putBins_other d vs j m (.inl hx)).symm
  · have hx' : specAddr c (k + ws.length) ≤ x := h.trans (not_lt.mp hx)
    rw [findByte_putBins_other c ws k _ (.inr hx')]
    exact findByte_putBins_congr d vs j (findByte_putBins_other c ws k m (.inr hx'))

theorem lanes_set_comm {α : Type} (l : Lanes α) {c d : Channel} (h : c ≠ d) (v w : α) :
    (l.set c v).set d w = (l.set d w).set c v := by
  match c, d, h with
  | .ch0, .ch1, _ => rfl
  | .ch1, .ch0, _ => rfl

/-- The second of two channels is analyzed as if the first had not been. -/
theorem analyzeChannel_analyzeChannel {s : State} (h : WindowFits s) (c d : Channel) :
    analyzeChannel (analyzeChannel s c) d = { s with
      mem := putBins d 0 (spectrumBins s d) (putBins c 0 (spectrumBins s c) s.mem)
      cand := (s.cand.set c (analyzedCand s c)).set d (analyzedCand s d)
      result := (s.result.set c (analyzedResult s c)).set d (analyzedResult s d) } := by
  have hw := window_analyzeChannel h c d
  have hbins : spectrumBins (analyzeChannel s c) d = spectrumBins s d := spectrumBins_congr rfl rfl hw
  have hcand : analyzedCand (analyzeChannel s c) d = analyzedCand s d := analyzedCand_congr rfl rfl hw
  have hresult : analyzedResult (analyzeChannel s c) d = analyzedResult s d := analyzedResult_congr rfl rfl hw
  rw [analyzeChannel_eq (analyzeChannel s c) d, hbins, hcand, hresult, analyzeChannel_eq s c]

/-- Settles O52: each channel is analyzed as if alone, and their bins do not overlap. -/
theorem channelOrderIsNotObservable : Obligations.ChannelOrderIsNotObservable := by
  unfold Obligations.ChannelOrderIsNotObservable
  intro s hp hmem hconf hlen
  have hfit := windowFits_of_legal hp hconf hlen
  have hrising : rising s.mem = true := (Bool.and_eq_true_iff.mp hmem).1
  have hbins : specAddr .ch0 (0 + (spectrumBins s .ch0).length) ≤ specAddr .ch1 0 := by
    have := hfit.len
    rw [length_spectrumBins]
    simp only [specAddr, Channel.index]
    omega
  have hne : Channel.ch0 ≠ .ch1 := nofun
  rw [analyzeChannel_analyzeChannel hfit, analyzeChannel_analyzeChannel hfit, putBins_comm hrising hbins,
    lanes_set_comm _ hne, lanes_set_comm _ hne]

/-! ### What no stage reads -/

/-- `s` with another `SEQ`, `STATUS` and script, and other responses. -/
def withControl (q : Seq) (f : Status) (p : List Event) (r : List Response) (s : State) : State :=
  { s with seq := q, status := f, pending := p, responses := r }

section
variable (q : Seq) (f : Status) (p : List Event) (r : List Response) (c : Channel) (s : State)

theorem spectrumStage_withControl :
    spectrumStage c (withControl q f p r s) = withControl q f p r (spectrumStage c s) := by
  have hbins : spectrumBins (withControl q f p r s) c = spectrumBins s c :=
    spectrumBins_congr rfl rfl (window_congr rfl rfl fun _ _ => rfl)
  rw [spectrumStage, hbins]
  rfl

theorem selectStage_withControl :
    selectStage c (withControl q f p r s) = withControl q f p r (selectStage c s) := by
  have hbands : selectBands (withControl q f p r s) c = selectBands s c :=
    selectBands_congr rfl fun k _ => specBin_congr rfl rfl c k
  rw [selectStage, hbands]
  rfl

theorem shapeStage_withControl :
    shapeStage c (withControl q f p r s) = withControl q f p r (shapeStage c s) := rfl

theorem analyzeChannel_withControl :
    analyzeChannel (withControl q f p r s) c = withControl q f p r (analyzeChannel s c) := by
  rw [analyzeChannel, spectrumStage_withControl, selectStage_withControl, shapeStage_withControl, analyzeChannel]

theorem foldl_analyzeChannel_withControl (cs : List Channel) :
    cs.foldl analyzeChannel (withControl q f p r s) = withControl q f p r (cs.foldl analyzeChannel s) :=
  List.foldl_hom (withControl q f p r) fun t d => analyzeChannel_withControl q f p r d t

end

/-- The completion changes only what no stage reads (R113). -/
theorem complete_eq_withControl (s : State) :
    complete s = withControl .idle { s.status with done := true } s.pending s.responses s := rfl

/-- The stages of a channel completed one by one (R186). -/
theorem complete_stages (c : Channel) (s : State) :
    complete (shapeStage c (complete (selectStage c (complete (spectrumStage c s))))) =
      complete (analyzeChannel s c) := by
  rw [complete_eq_withControl (spectrumStage c s), selectStage_withControl]
  rfl

theorem complete_analyzeChannel_complete (s : State) (c : Channel) :
    complete (analyzeChannel (complete s) c) = complete (analyzeChannel s c) := by
  rw [complete_eq_withControl s, analyzeChannel_withControl]
  rfl

/-! ### The stage commands through the port -/

/-- The engine of `s`, beside any script and any responses. -/
def EngineOf (s u : State) : Prop := ∃ p r, u = { s with pending := p, responses := r }

/-- The engine of `s` with the command word `w` accepted. -/
def InFlight (w : Word) (s u : State) : Prop :=
  ∃ p r, u = withControl (.busy w) { s.status with done := false } p r s

/-- The completion step reads neither `SEQ`, `DONE`, the script nor the responses, and leaves the last two (R113). -/
theorem exec_withControl {i : Instr} {s t : State} (h : exec i s = .next t) (q : Seq) (d : Bool) (p : List Event)
    (r : List Response) :
    exec i (withControl q { s.status with done := d } p r s) = .next { t with pending := p, responses := r } := by
  cases i with
  | nop => cases h; rfl
  | analyze =>
    obtain ⟨_, _, _, hframe⟩ := foldl_analyzeChannel_frame (declaredChannels s) s
    cases h
    have hd : declaredChannels (withControl q { s.status with done := d } p r s) = declaredChannels s := rfl
    rw [exec_analyze, hd, foldl_analyzeChannel_withControl, hframe]
    rfl
  | spectrum c => cases h; rw [exec_spectrum, spectrumStage_withControl]; rfl
  | select c => cases h; rw [exec_select, selectStage_withControl]; rfl
  | shape c => cases h; rfl

/-- A command that passes its checks is accepted and completes (R112, R113). -/
theorem leads_command {s t : State} {i : Instr} (hi : s.seq = .idle) (hc : check s (encode i) = none)
    (ht : exec i s = .next t) : Leads (EngineOf s) (cmdProgram i ++ [Event.engineTurn]) (EngineOf t) := by
  refine Leads.append (Q := InFlight (encode i) s) (Leads.of_step fun u rest hu hp => ?issue)
    (Leads.of_step fun u rest hu hp => ?turn)
  case issue =>
    obtain ⟨p, r, rfl⟩ := hu
    refine ⟨_, step_cmd hp hi, ?_⟩
    rw [issue_ok (by exact hc)]
    exact ⟨rfl, _, _, rfl⟩
  case turn =>
    obtain ⟨p, r, rfl⟩ := hu
    refine ⟨{ t with pending := rest, responses := r }, ?_, rfl, _, _, rfl⟩
    rw [step_engineTurn hp, engineStep_busy rfl (decode_encode i)]
    exact exec_withControl ht (.busy (encode i)) false rest r

/-- The stage commands of one channel, each followed by the engine agent's step (R186). -/
def stageProgram (c : Channel) : List Event :=
  cmdProgram (.spectrum c) ++ [Event.engineTurn] ++ cmdProgram (.select c) ++ [Event.engineTurn] ++
    cmdProgram (.shape c) ++ [Event.engineTurn]

/-- Every command of a declared channel passes its checks. -/
theorem check_encode_of_legal {s : State} (hconf : configOk s = true) (hlen : lengthOk s = true) {i : Instr}
    (h : ∀ c, channelOperand i = some c → c ∈ declaredChannels s) : check s (encode i) = none := by
  refine (check_none_iff s _).mpr ⟨i, decode_encode i, .inr ⟨hconf, ?_, fun _ => hlen⟩⟩
  rw [← Bool.not_eq_true, requestBad_iff]
  exact fun ⟨c, hc, hle⟩ => hle.not_gt (mem_declaredChannels.mp (h c hc))

/-- The stage commands of a declared channel leave what its three stages in a row leave, completed (R186). -/
theorem leads_stageProgram {s : State} (hi : s.seq = .idle) (hconf : configOk s = true) (hlen : lengthOk s = true)
    {c : Channel} (hc : c ∈ declaredChannels s) :
    Leads (EngineOf s) (stageProgram c) (EngineOf (complete (analyzeChannel s c))) := by
  have hcheck : ∀ {t : State} {i : Instr}, t.params = s.params → t.regs = s.regs → channelOperand i = some c →
      check t (encode i) = none := fun hp hr ho =>
    (check_congr hp hr _).trans (check_encode_of_legal hconf hlen fun d hd => Option.some.inj (ho.symm.trans hd) ▸ hc)
  have hspectrum := leads_command (s := s) hi (hcheck rfl rfl rfl) (exec_spectrum c s)
  have hselect := leads_command (s := complete (spectrumStage c s)) rfl (hcheck rfl rfl rfl) (exec_select c _)
  have hshape := leads_command (s := complete (selectStage c (complete (spectrumStage c s)))) rfl
    (hcheck rfl rfl rfl) (exec_shape c _)
  rw [← complete_stages]
  exact hspectrum.append (hselect.append hshape)

/-- The stage commands of a list of declared channels, from a completed command on (R186). -/
theorem leads_stagePrograms {s : State} (hconf : configOk s = true) (hlen : lengthOk s = true) {cs : List Channel}
    (hcs : ∀ c ∈ cs, c ∈ declaredChannels s) :
    Leads (EngineOf (complete s)) (cs.flatMap stageProgram) (EngineOf (complete (cs.foldl analyzeChannel s))) := by
  induction cs generalizing s with
  | nil => exact .nil
  | cons c cs ih =>
    obtain ⟨hc, hrest⟩ := List.forall_mem_cons.mp hcs
    have hfirst := leads_stageProgram (s := complete s) rfl hconf hlen hc
    rw [complete_analyzeChannel_complete] at hfirst
    exact hfirst.append (ih (s := analyzeChannel s c) hconf hlen hrest)

theorem length_flatMap_stageProgram (cs : List Channel) : (cs.flatMap stageProgram).length = 6 * cs.length := by
  have hsix : ∀ c ∈ cs, (stageProgram c).length = 6 := fun _ _ => rfl
  rw [List.length_flatMap, List.map_congr_left hsix, List.map_const', List.sum_replicate, smul_eq_mul, Nat.mul_comm]

/-- Settles O50: both scripts lead to the engine that has analyzed every declared channel and completed. -/
theorem analyzeEqualsTheStages : Obligations.AnalyzeEqualsTheStages := by
  unfold Obligations.AnalyzeEqualsTheStages
  intro s hi hconf hlen
  obtain ⟨cs, hcs, hcount⟩ := declaredChannels_eq_cons hconf
  have hmem : ∀ c ∈ Channel.ch0 :: cs, c ∈ declaredChannels s := fun c hc => hcs ▸ hc
  have hanalyze := leads_command hi (check_encode_of_legal (i := .analyze) hconf hlen nofun) (exec_analyze s)
  have hstages : Leads (EngineOf s) ((declaredChannels s).flatMap stageProgram)
      (EngineOf (complete ((declaredChannels s).foldl analyzeChannel s))) := by
    rw [hcs]
    exact (leads_stageProgram hi hconf hlen (hmem _ List.mem_cons_self)).append
      (leads_stagePrograms (s := analyzeChannel s .ch0) hconf hlen fun c hc => hmem c (List.mem_cons_of_mem _ hc))
  obtain ⟨_, ht, -, _, _, rfl⟩ := hanalyze.run (s := s) ⟨_, _, rfl⟩
  obtain ⟨_, hu, -, _, _, rfl⟩ := hstages.run (s := s) ⟨_, _, rfl⟩
  rw [length_flatMap_stageProgram, hcs, List.length_cons, hcount, ← hcs] at hu
  exact ⟨_, _, ht, hu, rfl, rfl, rfl, rfl, rfl, rfl, rfl, rfl⟩

end Sys2Proof.Machine
end

section
/-! Errors (60_exceptions.md): writes while busy (R207, R62), the return from an error (R208), and an error on top of
another (R209). -/

namespace Sys2Proof.Machine

/-! ### Writes while busy -/

/-- An aligned write while busy, to anything but `CTRL` and `STATUS`, is a BusyWrite (R207). -/
theorem step_wr_busy {s : State} {cmd v : Word} {a : Nat} {rest : List Event} (hb : s.seq = .busy cmd)
    (h4 : a % 4 = 0) (hctrl : portOffset s.params a ≠ 0x004) (hstatus : portOffset s.params a ≠ 0x008)
    (h : s.pending = wr a v :: rest) :
    step s = .next (respond { rdata := none, resp := .okay } (busyWrite { s with pending := rest })) := by
  rw [step_wr_port h4 h, hostWrite, writeEffect_busy (by exact hb) (mt (locate_ctrl_iff _ _).mp hctrl)
    (mt (locate_status_iff _ _).mp hstatus)]

/-- A write through an address whose port offset is a row of the register map, in either state of `SEQ`. -/
theorem step_wr_portOffset {s : State} {a : Nat} {l : Location} {v : Word} {rest : List Event}
    (hl : (portOffset s.params a, l) ∈ registerMap) (h : s.pending = wr a v :: rest) :
    step s = .next (hostWrite l v { s with pending := rest }) := by
  have h4 : a % 4 = 0 := (portOffset_mod_four s.params a).symm.trans (registerMap_sound _ hl).2.2
  rw [step_wr_port h4 h, locate_of_mem_registerMap hl]

/-- A malformed write is answered with ERROR and does nothing (R62). -/
theorem hostStep_write_malformed {w : Width} {a : Nat} (hbad : w ≠ .word ∨ a % 4 ≠ 0) (v : Word) (s : State) :
    hostStep (.write w a v) s = respond { rdata := none, resp := .error } s := by
  have hwf : ¬ (Txn.write w a v).wellFormed = true := by
    rw [wellFormed_iff, not_and_or]
    exact hbad
  exact if_neg hwf

/-- Settles O9: by what the offset names, or by the malformed write's answer. -/
theorem writesWhileBusy : Obligations.WritesWhileBusy := by
  unfold Obligations.WritesWhileBusy
  intro s cmd width a v rest hb hp
  refine ⟨?busyWrite, ?ctrl, ?status, ?malformed⟩
  case busyWrite =>
    rintro rfl h4 hctrl hstatus
    exact step_wr_busy hb h4 hctrl hstatus hp
  case ctrl =>
    rintro rfl hctrl
    exact step_wr_portOffset (l := .ctrl) (hctrl ▸ by decide) hp
  case status =>
    rintro rfl hstatus
    exact step_wr_portOffset (l := .status) (hstatus ▸ by decide) hp
  case malformed =>
    intro hbad
    rw [step_host hp, hostStep_write_malformed hbad]
    rfl

/-! ### The return from an error -/

/-- Settles O10: both words clear what `writeStatus_eq` says their bits clear, and the checks do not read `STATUS`. -/
theorem returnFromError : Obligations.ReturnFromError := by
  unfold Obligations.ReturnFromError
  refine ⟨fun s rest hp => ⟨{ rdata := none, resp := .okay }, ?clearErr⟩,
    fun s rest hp => ⟨{ rdata := none, resp := .okay }, ?clear⟩,
    fun s f w rest hi hc hp => ⟨{ rdata := none, resp := .okay }, ?accepted⟩⟩
  case clearErr => rw [step_wr_status hp, writeStatus_eq]; rfl
  case clear => rw [step_wr_status hp, writeStatus_eq]; rfl
  case accepted =>
    have hcheck : check { s with status := f, pending := rest } w = none := (check_congr rfl rfl w).trans hc
    rw [step_cmd (s := { s with status := f }) hp hi, issue_ok hcheck]
    rfl

/-! ### Nested errors -/

/-- The engine agent's turn while busy: the command completes, with `DONE` set and the error fields kept (R113). -/
theorem step_engineTurn_busy {s : State} {cmd : Word} {i : Instr} {rest : List Event} (hb : s.seq = .busy cmd)
    (hd : decode cmd = .ok i) (h : s.pending = .engineTurn :: rest) :
    ∃ t, step s = .next t ∧ t.seq = .idle ∧ t.status = { s.status with done := true } := by
  obtain ⟨m, d, p, hexec⟩ := exec_frame i { s with pending := rest }
  exact ⟨_, (step_engineTurn h).trans ((engineStep_busy (by exact hb) hd).trans hexec), rfl, rfl⟩

/-- Settles O11: a rejection writes the whole of `STATUS`, and a completion keeps the error fields that the BusyWrite
left. -/
theorem nestedErrorsKeepTheNewest : Obligations.NestedErrorsKeepTheNewest := by
  unfold Obligations.NestedErrorsKeepTheNewest
  refine ⟨fun s w e rest _ hi hc hp => ⟨_, step_cmd hp hi, ?rejected⟩,
    fun s cmd v i a rest hb hd ha h4 hctrl hstatus hp => ?completed⟩
  case rejected => rw [issue_error ((check_pending s w rest).trans hc), respond_status, reject_status]
  case completed =>
    have hport := portOffset_eq s.params ha
    have hwrite := step_wr_busy hb h4 (hport.trans_ne hctrl) (hport.trans_ne hstatus) hp
    obtain ⟨t, hturn, hidle, hflags⟩ := step_engineTurn_busy (by exact hb) hd
      (respond_pending (busyWrite { s with pending := .engineTurn :: rest }) { rdata := none, resp := .okay })
    exact ⟨t, by rw [run_next 1 hwrite, run_next 0 hturn, run_zero], hidle, hflags⟩

end Sys2Proof.Machine
end

section
/-! Reset (70_reset_and_hazards.md): the hardware and the soft reset (R230, R232), what every register reads after one
(R231), the invariant there, and what a machine without a `SAMPLE_RATE` runs (R235). -/

namespace Sys2Proof.Machine

/-! ### What the host sees of the reset values -/

theorem ctrlWord_of_reset {s : State} (hc : s.ctrl = State.reset.ctrl) : ctrlWord s = 0#32 := by
  rw [ctrlWord, hc]; rfl

theorem statusWord_of_reset {s : State} (hi : s.seq = .idle) (hf : s.status = State.reset.status) :
    statusWord s = 0#32 := by
  rw [statusWord, isBusy, hi, hf]; rfl

theorem irq_of_reset {s : State} (hc : s.ctrl = State.reset.ctrl) : irq s = false := by
  rw [irq, hc]; rfl

/-- A RAM that nothing has written holds the draws of its epoch (R49). -/
theorem readByte_of_unwritten {s : State} (h : s.mem = []) (a : Nat) : readByte s a = Config.ramByte s.ramEpoch a := by
  rw [readByte, h]; rfl

/-! ### The two resets -/

/-- Settles O25: a `CTRL` word with bit 31 set is the soft reset, which writes no RAM. -/
theorem softResetKeepsTheRams : Obligations.SoftResetKeepsTheRams := by
  unfold Obligations.SoftResetKeepsTheRams
  intro s v rest hv hp
  refine ⟨_, none, step_wr_ctrl hp, ?_⟩
  rw [writeCtrl_of_reset hv]
  exact ⟨rfl, ctrlWord_of_reset rfl, fun a => readByte_eq_of_findByte rfl rfl⟩

/-- Settles O26: the step is `hardReset`, which leaves no RAM byte written. -/
theorem hardwareReset : Obligations.HardwareReset := by
  unfold Obligations.HardwareReset
  intro s rest hp
  exact ⟨_, step_hardReset hp, rfl, statusWord_of_reset rfl rfl, ctrlWord_of_reset rfl, irq_of_reset rfl,
    fun a => readByte_of_unwritten rfl a⟩

/-! ### The state after reset -/

theorem readLocation_cand_reset (c : Channel) (f : CandField) : readLocation State.reset (.cand c f) = 0#32 := by
  cases c <;> cases f <;> rfl

theorem readLocation_result_reset (c : Channel) (f : ResultField) :
    readLocation State.reset (.result c f) = 0#32 := by
  cases c <;> cases f <;> rfl

/-- Settles O27: the reset table's values are stored ones, and the derived registers are computed from them. -/
theorem resetRegisterValues : Obligations.ResetRegisterValues := by
  unfold Obligations.ResetRegisterValues
  have hconfig : ∀ r, readLocation State.reset (.cfg r) = Regs.reset.get r := fun _ => rfl
  exact ⟨rfl, irq_of_reset rfl, ctrlWord_of_reset rfl, statusWord_of_reset rfl rfl, rfl,
    hconfig .channels, hconfig .norm, hconfig .sampleRate, hconfig .periodMs, hconfig .len, hconfig .gain,
    hconfig .floorHz, hconfig .ceilHz, hconfig .boundHz, hconfig .resLoHz, hconfig .resHiHz, hconfig .resCeil,
    hconfig .loDefault, hconfig .hiDefault, readLocation_cand_reset, readLocation_result_reset, rfl, rfl,
    by decide, by decide, by decide⟩

/-- Settles O54: the instance of `inv_reset` with the spec's parameters and no script. -/
theorem resetMeetsTheInvariant : Obligations.ResetMeetsTheInvariant := by
  unfold Obligations.ResetMeetsTheInvariant
  exact inv_reset (p := Config.reference) (by decide) []

/-! ### Before `SAMPLE_RATE` is set -/

/-- A legal configuration has a `SAMPLE_RATE` of at least 1 (R116). -/
theorem configOk_of_sampleRate_zero {s : State} (h : s.regs.sampleRate = 0#32) : configOk s = false := by
  rw [← Bool.not_eq_true, configOkExactly s, h]
  rintro ⟨-, hrate, -⟩
  exact absurd hrate (by decide)

/-- Settles O8: from reset `NOP` is accepted and completes, and without a `SAMPLE_RATE` the configuration check is the
one that fails first. -/
theorem onlyNopRunsWithoutSampleRate : Obligations.OnlyNopRunsWithoutSampleRate := by
  unfold Obligations.OnlyNopRunsWithoutSampleRate
  refine ⟨rfl, ⟨_, nopCompletes.2 _ [] rfl rfl, ?status⟩, fun s w i hd hrate => ⟨?nop, fun hi => ?other⟩⟩
  case status => rfl
  case nop => rintro rfl; exact check_nop hd
  case other => rw [check_of_decode_ok hd hi, configOk_of_sampleRate_zero hrate]; rfl

end Sys2Proof.Machine
end
